-- ==== Sys2Proof/Word.lean ====
section
/-! DEFINITION. Words, ports, agents, modes and IQ pairs: the small types every other file names. -/

namespace Sys2Proof

/-- A command or response word (30_encoding R91, R94). -/
abbrev Word := BitVec 32

/-- A byte of the USB ring buffer (10_state R57). -/
abbrev Byte := BitVec 8

/-- The four command ports (30_encoding R90): 0 producer, 1 control host, 2 USB agent, 3 spectrum consumer. -/
inductive Port where
  | producer
  | host
  | usb
  | spectrum
  deriving DecidableEq, Repr, Inhabited

/-- The five agents of 00_scope R5: one per port, and the acquisition source that writes RAW. -/
inductive Agent where
  | port (p : Port)
  | acquisition
  deriving DecidableEq, Repr, Inhabited

/-- Demodulator modes (10_state R41), in their numbering 0 to 5. -/
inductive Mode where
  | am
  | ams
  | lsb
  | usb
  | fm
  | cw
  deriving DecidableEq, Repr, Inhabited

/-- The mode's number (10_state R41, 30_encoding R100). -/
def Mode.number : Mode → Nat
  | .am => 0
  | .ams => 1
  | .lsb => 2
  | .usb => 3
  | .fm => 4
  | .cw => 5

/-- An IQ pair (00_scope R19): the rules state at each use the range of its components. -/
structure IQ where
  re : Int
  im : Int
  deriving DecidableEq, Repr, Inhabited

/-- The pair (0, 0). -/
def IQ.zero : IQ := ⟨0, 0⟩

end Sys2Proof
end

