-- ==== Sys2Proof/Config.lean ====
section
/-! DEFINITION. What an implementation fixes: the constants and the OPEN parameters of 00_scope R6, their
admissibility (R7), the derived rates and counts (R6, R8), the test instance TESTCFG (92_eei_decisions D63), and
the one free value (the order of agents' steps where no schedule is given). -/

namespace Sys2Proof

/-! ### Constants with a value in 00_scope R6 -/

/-- IQ_WIN. -/ abbrev iqWin : Nat := 512
/-- IQ_IIR_SHIFT. -/ abbrev iqIirShift : Nat := 5
/-- IQ_MIN_T2. -/ abbrev iqMinT2 : Int := 1
/-- FFT_N. -/ abbrev fftN : Nat := 256
/-- FFT_H. -/ abbrev fftH : Nat := 128
/-- OUT_M. -/ abbrev outM : Nat := 128
/-- OUT_E. -/ abbrev outE : Nat := 64
/-- NOTCH_EDGE. -/ abbrev notchEdge : Nat := 3
/-- CONFIRM_MAX. -/ abbrev confirmMax : Nat := 255
/-- CORDIC_K. -/ abbrev cordicK : Int := 19902
/-- AM_DC_SHIFT. -/ abbrev amDcShift : Nat := 5

/-- SQ_DBM[0..12]: S0 to S9 at 6 dB a unit, then 10, 20 and 30 dB above S9. -/
def sqDbm : List Int := [-127, -121, -115, -109, -103, -97, -91, -85, -79, -73, -63, -53, -43]

/-- One de-emphasis coefficient set (B0, B1, A1) in Q15 (45_conditioner R211, R212). -/
structure DeemphSet where
  b0 : Int
  b1 : Int
  a1 : Int
  deriving DecidableEq, Repr, Inhabited

/-- One entry of AGC_PRESET: attack shift, decay shift, hang samples (00_scope R6). -/
structure AgcPreset where
  attack : Nat
  decay : Nat
  hang : Nat
  deriving DecidableEq, Repr, Inhabited

/-- One entry of MODE_BW: first and last bin of the pass band (00_scope R6). -/
structure Band where
  start : Nat
  stop : Nat
  deriving DecidableEq, Repr, Inhabited

/-- The OPEN parameters of 00_scope R6. Tables are lists, indexed by mode number, preset, speed or volume index. -/
structure Config where
  adcW : Nat
  blockSize : Nat
  fsIq : Nat
  cicR : Nat
  cicShift : Nat
  dcShift : Nat
  pllFrac : Nat
  pllKp : Nat
  pllKi : Nat
  pllFmax : Nat
  deemph1 : DeemphSet
  deemph2 : DeemphSet
  agcFrac : Nat
  agcSetpoint : Nat
  agcEps : Nat
  agcPreset : List (List AgcPreset)
  volTable : List Nat
  numBw : Nat
  modeBw : List (List Band)
  interpL : Nat
  rbCap : Nat
  specAlphaShift : Nat
  deriving DecidableEq, Repr, Inhabited

namespace Config

/-- FS_CIC = FS_IQ / CIC_R (00_scope R6). -/
def fsCic (c : Config) : Nat := c.fsIq / c.cicR
/-- FS_DEMOD = FS_CIC / 2 (00_scope R6). -/
def fsDemod (c : Config) : Nat := c.fsCic / 2
/-- P, IQ pairs per block (00_scope R8). -/
def pairs (c : Config) : Nat := c.blockSize / 2
/-- K, filter calls per block (00_scope R8). -/
def calls (c : Config) : Nat := c.pairs / (c.cicR * fftH)
/-- S, demodulated samples per block (00_scope R8). -/
def samples (c : Config) : Nat := c.calls * outE
/-- EXP, AUDIO_OUT entries per block (00_scope R8). -/
def expanded (c : Config) : Nat := c.samples * c.interpL

/-- MODE_BW[mode][bw] (an index outside a table: log 11). -/
def band (c : Config) (m : Mode) (bw : Nat) : Band := (c.modeBw.getD m.number []).getD bw default
/-- AGC_PRESET[mode][speed]. -/
def agcRow (c : Config) (m : Mode) (speed : Nat) : AgcPreset := (c.agcPreset.getD m.number []).getD speed default
/-- The largest hang_samples of AGC_PRESET (10_state R39). -/
def maxHang (c : Config) : Nat := (c.agcPreset.flatten.map AgcPreset.hang).foldl max 0
/-- DEEMPH[preset] for presets 1 and 2. -/
def deemphSet (c : Config) (preset : Nat) : DeemphSet := if preset = 1 then c.deemph1 else c.deemph2
/-- VOL_TABLE[index]. -/
def volume (c : Config) (index : Nat) : Nat := c.volTable.getD index 0

end Config

/-- ceil(log2 n) for n ≥ 1, as 00_scope R7 uses it. -/
def ceilLog2 (n : Nat) : Nat := if n ≤ 1 then 0 else Nat.log2 (n - 1) + 1

/-- A coefficient of 45_conditioner R212. -/
def DeemphSet.admissible (d : DeemphSet) : Bool :=
  decide (-32767 ≤ d.b0 ∧ d.b0 ≤ 32767 ∧ -32767 ≤ d.b1 ∧ d.b1 ≤ 32767 ∧ -32767 ≤ d.a1 ∧ d.a1 ≤ 32767)

/-- The clauses about rates, block size and word growth (00_scope R7 and the value column of R6). -/
abbrev Config.RatesOk (c : Config) : Prop :=
  1 ≤ c.cicR ∧ 1 ≤ c.fsIq ∧ c.fsIq % (2 * c.cicR) = 0 ∧
  1 ≤ c.blockSize ∧ c.blockSize % 2 = 0 ∧ (c.blockSize / 2) % (c.cicR * fftH) = 0 ∧
  c.adcW ≤ 15 ∧ c.cicShift ≤ 31 ∧ (c.adcW + 1) + 4 * ceilLog2 c.cicR ≤ 32

/-- The clauses about the single-number parameters (value column of 00_scope R6; PLL and AGC fields of natural-number
type need none). -/
abbrev Config.ScalarsOk (c : Config) : Prop :=
  1 ≤ c.dcShift ∧ c.dcShift ≤ 31 ∧
  1 ≤ c.agcSetpoint ∧ c.agcSetpoint ≤ 32767 ∧ 1 ≤ c.agcEps ∧
  1 ≤ c.interpL ∧ 2 ≤ c.rbCap ∧ c.rbCap % 2 = 0 ∧ c.specAlphaShift ≤ 16 ∧ 1 ≤ c.numBw

/-- The clauses about the tables: MODE_BW (R7), VOL_TABLE (R7; its range is 45_conditioner R225), AGC_PRESET's shape
and the de-emphasis coefficients (45_conditioner R212). -/
abbrev Config.TablesOk (c : Config) : Prop :=
  c.modeBw.length = 6 ∧
  (∀ row ∈ c.modeBw, row.length = c.numBw ∧ ∀ b ∈ row, b.start ≤ b.stop ∧ b.stop ≤ 63) ∧
  c.volTable.length = 10 ∧ (∀ v ∈ c.volTable, v ≤ 256) ∧ c.volume 0 = 0 ∧ c.volume 9 = 256 ∧
  c.agcPreset.length = 6 ∧ (∀ row ∈ c.agcPreset, row.length = 4) ∧
  c.deemph1.admissible = true ∧ c.deemph2.admissible = true

/-- 00_scope R7: the instances a model admits (log 7 says which clauses come from R6's value column). -/
abbrev Config.Admissible (c : Config) : Prop := c.RatesOk ∧ c.ScalarsOk ∧ c.TablesOk

/-- The row of AGC presets that TESTCFG uses for every mode. -/
def Config.testAgcRow : List AgcPreset := [⟨2, 8, 0⟩, ⟨2, 10, 100⟩, ⟨3, 12, 500⟩, ⟨4, 14, 2000⟩]

/-- TESTCFG (00_scope R6, 92_eei_decisions D63): the one instance the spec writes out. No claim about PicoRX. -/
def Config.testCfg : Config where
  adcW := 12
  blockSize := 1024
  fsIq := 250000
  cicR := 4
  cicShift := 6
  dcShift := 10
  pllFrac := 8
  pllKp := 64
  pllKi := 1
  pllFmax := 5120
  deemph1 := ⟨7749, 7749, 17270⟩
  deemph2 := ⟨5690, 5690, 21388⟩
  agcFrac := 16
  agcSetpoint := 16384
  agcEps := 1
  agcPreset := List.replicate 6 Config.testAgcRow
  volTable := [0, 2, 4, 8, 16, 32, 64, 128, 192, 256]
  numBw := 2
  modeBw := [[⟨0, 10⟩, ⟨0, 20⟩], [⟨0, 10⟩, ⟨0, 20⟩], [⟨1, 12⟩, ⟨1, 20⟩], [⟨1, 12⟩, ⟨1, 20⟩],
    [⟨0, 40⟩, ⟨0, 63⟩], [⟨0, 2⟩, ⟨0, 4⟩]]
  interpL := 4
  rbCap := 256
  specAlphaShift := 3

/-- FREE VALUE (20_memory R82, 48_commands R265, 60_exceptions R320; log 3): which agent moves at the n-th choice that
no given schedule decides. Nothing is known of it. -/
opaque Config.freeAgent : Nat → Agent

end Sys2Proof
end

