-- ==== Sys2Proof/Machine/Arith.lean ====
section
/-! DEFINITION. The arithmetic primitives of 00_scope R10 to R15 on mathematical integers (R9). -/

namespace Sys2Proof.Machine

/-- wrap32 (00_scope R10): the representative of v modulo 2^32 in int32. -/
def wrap32 (v : Int) : Int := (v + 2147483648) % 4294967296 - 2147483648

/-- clamp(v, lo, hi) = min(hi, max(lo, v)) (00_scope R11). -/
def clamp (v lo hi : Int) : Int := min hi (max lo v)

/-- sat16 (00_scope R11). -/
def sat16 (v : Int) : Int := clamp v (-32768) 32767

/-- `v >> s` = floor(v / 2^s) (00_scope R12). -/
def asr (v : Int) (s : Nat) : Int := v / ((2 ^ s : Nat) : Int)

/-- `v << s` = v × 2^s (00_scope R12). -/
def shl (v : Int) (s : Nat) : Int := v * ((2 ^ s : Nat) : Int)

/-- tdiv: division truncated toward zero (00_scope R13). -/
def tdiv (a b : Int) : Int := Int.tdiv a b

/-- abs (00_scope R13). -/
def absI (v : Int) : Int := (v.natAbs : Int)

/-- sgn0: +1 for v ≥ 0 and -1 for v < 0 (00_scope R13). -/
def sgn0 (v : Int) : Int := if 0 ≤ v then 1 else -1

/-- Digit-by-digit search of the largest t with t^p ≤ n, below t + 2^bits: each call tries one bit of t, the highest
first (92_eei_decisions D11: "binary search / digit-by-digit shift-and-test"). -/
def rootDigits (p n : Nat) : Nat → Nat → Nat
  | 0, t => t
  | b + 1, t => if (t + 2 ^ b) ^ p ≤ n then rootDigits p n b (t + 2 ^ b) else rootDigits p n b t

/-- isqrt: the largest r with r² ≤ n (00_scope R13). -/
def isqrt (n : Nat) : Nat := rootDigits 2 n (Nat.log2 n / 2 + 1) 0

/-- iir_track (00_scope R14): the new accumulator and the estimate. -/
def iirTrack (acc x : Int) (s : Nat) : Int × Int :=
  let acc' := acc + x - asr acc s
  (acc', asr acc' s)

/-- wrap_angle (00_scope R15): the representative in [-1024, 1023]. -/
def wrapAngle (a : Int) : Int := (a + 1024) % 2048 - 1024

/-- A fixed-length array built from the entries of a list, in order. -/
def toVec {α : Type} (n : Nat) (d : α) (l : List α) : Vector α n := Vector.ofFn fun k => l.getD k.val d

end Sys2Proof.Machine
end

