-- ==== Sys2Proof/Machine/Fft.lean ====
section
/-! DEFINITION. The radix-2 transform of the channel filter (42_channel_filter R149 to R152), on lists of IQ pairs. The
butterflies of one stage act on disjoint pairs, so a stage is written block by block. -/

namespace Sys2Proof.Machine

/-- bitrev(n, bits) (42_channel_filter R152). -/
def bitrev : Nat → Nat → Nat
  | _, 0 => 0
  | n, b + 1 => n % 2 * 2 ^ b + bitrev (n / 2) b

/-- One butterfly (42_channel_filter R149) with twiddle index idx: both outputs from the old a and b, the forward
direction halved, every component saturated. -/
def butterfly (forward : Bool) (idx : Nat) (a b : IQ) : IQ × IQ :=
  let wr := cosT idx
  let wi := if forward then -sinT idx else sinT idx
  let tr := asr (wr * b.re - wi * b.im) 15
  let ti := asr (wr * b.im + wi * b.re) 15
  if forward then
    (⟨sat16 (asr (a.re + tr) 1), sat16 (asr (a.im + ti) 1)⟩, ⟨sat16 (asr (a.re - tr) 1), sat16 (asr (a.im - ti) 1)⟩)
  else (⟨sat16 (a.re + tr), sat16 (a.im + ti)⟩, ⟨sat16 (a.re - tr), sat16 (a.im - ti)⟩)

/-- The butterflies of one block, from twiddle j on: the lower half `as` against the upper half `bs`, twiddle index
j × step. -/
def butterflies (forward : Bool) (step : Nat) : Nat → List IQ → List IQ → List IQ × List IQ
  | j, a :: as, b :: bs =>
    let r := butterfly forward (j * step) a b
    let rest := butterflies forward step (j + 1) as bs
    (r.1 :: rest.1, r.2 :: rest.2)
  | _, _, _ => ([], [])

/-- One stage: `blocks` blocks of length 2 × half, twiddle step 2048 / (2 × half). -/
def fftStage (forward : Bool) (half : Nat) : Nat → List IQ → List IQ
  | 0, _ => []
  | n + 1, l =>
    let r := butterflies forward (1024 / half) 0 (l.take half) ((l.drop half).take half)
    r.1 ++ r.2 ++ fftStage forward half n (l.drop (2 * half))

/-- FFT_CORE for L = 2^bits (42_channel_filter R149): bit-reversed order, then stages of half-length 1, 2, 4, ... -/
def fftCore (forward : Bool) (bits : Nat) (x : List IQ) : List IQ :=
  (List.range bits).foldl (fun l t => fftStage forward (2 ^ t) (2 ^ (bits - 1 - t)) l)
    ((List.range (2 ^ bits)).map fun n => x.getD (bitrev n bits) IQ.zero)

/-- FFT(x, forward): 256 points (42_channel_filter R150). -/
def fftForward (x : List IQ) : List IQ := fftCore true 8 x

/-- FFT(Y, inverse): 128 points, unscaled (42_channel_filter R151). -/
def fftInverse (x : List IQ) : List IQ := fftCore false 7 x

end Sys2Proof.Machine
end

