-- ==== Sys2Proof/Machine/State.lean ====
section
/-! DEFINITION. The machine's state as plain data: every element of 10_state (grouped by the unit that owns it), the
buffers RAW and AUDIO_OUT of 20_memory, the parameter instance, and the model's own host interface (issued commands,
delivered responses, schedule, pending RAW writes); faults, refusals and the state after reset (10_state R62,
70_reset_and_hazards R330, R332). -/

namespace Sys2Proof.Machine

/-- Indexed storage: (index, value) pairs with indices strictly rising and no value equal to what an unlisted index
reads as. `Memory 8` is a list of `Host.Cell`. -/
abbrev Memory (w : Nat) := List (Nat × BitVec w)

/-- What an unlisted index reads as: 0. The spec's own value for the ring buffer (10_state R57); for RAW and AUDIO_OUT
the spec leaves power-on contents open (R332): DESIGN CHOICE, unsafe, log 2. -/
def Memory.unlisted (w : Nat) : BitVec w := 0

/-- The canonical form. -/
abbrev Memory.wf {w : Nat} (m : Memory w) : Prop :=
  m.Pairwise (fun a b => a.1 < b.1) ∧ ∀ c ∈ m, c.2 ≠ Memory.unlisted w

/-- One channel of the CIC: cic_integ[ch][0..3] and cic_delay[ch][0..3], int32 each (10_state R33). -/
structure CicChannel where
  integ0 : Int
  integ1 : Int
  integ2 : Int
  integ3 : Int
  delay0 : Int
  delay1 : Int
  delay2 : Int
  delay3 : Int
  deriving DecidableEq, Repr, Inhabited

/-- CIC decimator (10_state R33). -/
structure Cic where
  chI : CicChannel
  chQ : CicChannel
  cnt : Nat
  deriving DecidableEq, Repr, Inhabited

/-- Running DC removal: dc_acc[I], dc_acc[Q] (10_state R34). -/
structure DcRemoval where
  accI : Int
  accQ : Int
  deriving DecidableEq, Repr, Inhabited

/-- IQ imbalance corrector (10_state R35): iq_n, iq_acc[1..3], iq_f[1..3], iq_c1, iq_c2, iq_fallback. -/
structure IqCorr where
  n : Nat
  acc1 : Int
  acc2 : Int
  acc3 : Int
  f1 : Int
  f2 : Int
  f3 : Int
  c1 : Int
  c2 : Int
  fallback : Bool
  deriving DecidableEq, Repr, Inhabited

/-- Filter input buffer fb_re, fb_im and fb_cnt (10_state R36). -/
structure FilterInput where
  buf : Vector IQ 128
  cnt : Nat
  deriving DecidableEq, Repr

/-- Channel filter (10_state R37): carried half block, carried overlap half, capture buffer, peak tracking, notch. -/
structure Filter where
  last : Vector IQ 128
  ola : Vector IQ 64
  cap : Vector IQ 256
  peakBin : Nat
  peakPow : Int
  secondPow : Int
  lastPeakBin : Nat
  confirm : Nat
  deriving DecidableEq, Repr

/-- Demodulators (10_state R38). -/
structure Demod where
  amDc : Int
  pllPhase : Int
  pllFreq : Int
  fmLast : Int
  cwPhase : Int
  deriving DecidableEq, Repr, Inhabited

/-- Conditioner (10_state R39). -/
structure Cond where
  deX : Int
  deY : Int
  agcHold : Int
  agcHang : Nat
  sqOpen : Bool
  deriving DecidableEq, Repr, Inhabited

/-- One copy of the twelve control registers (10_state R40 to R53); MODE is `mode` and `bw` (R41). -/
structure Controls where
  mode : Mode
  bw : Nat
  shift : Int
  swap : Bool
  iqCorr : Bool
  deemph : Nat
  agc : Nat
  notch : Bool
  sidetone : Nat
  volume : Nat
  squelch : Nat
  gainCal : Int
  pwm : Nat
  deriving DecidableEq, Repr, Inhabited

/-- Values latched at BEGIN (10_state R54). -/
structure Latched where
  binShift : Int
  cwInc : Nat
  sqThresh : Nat
  deriving DecidableEq, Repr, Inhabited

/-- USB-shared registers and their block copies (10_state R55). -/
structure Usb where
  mute : Bool
  vol : Nat
  blkMute : Bool
  blkVol : Nat
  deriving DecidableEq, Repr, Inhabited

/-- Output stager (10_state R56). -/
structure Stager where
  interpPrev : Int
  outIdx : Nat
  deriving DecidableEq, Repr, Inhabited

/-- USB ring buffer (10_state R57): rb_data (cells are `Host.Cell`), rb_head, rb_count. -/
structure Ring where
  data : Memory 8
  head : Nat
  count : Nat
  deriving DecidableEq, Repr, Inhabited

/-- The capture lock (10_state R58, 47_spectrum R260). -/
inductive Lock where
  | free
  | producer
  | consumer (p : Port)
  deriving DecidableEq, Repr, Inhabited

/-- Spectrum accumulator and capture lock (10_state R58). -/
structure Spectrum where
  acc : Vector Int 256
  lock : Lock
  blkCapture : Bool
  deriving DecidableEq, Repr

/-- Published values and per-block scratch (10_state R59); `sigDbm` is the binary32 pattern. -/
structure Published where
  sigEst : Int
  sigDbm : Word
  sqOpen : Bool
  magSum : Int
  magCnt : Nat
  deriving DecidableEq, Repr, Inhabited

/-- The block sequencer (10_state R32): IDLE, BEGIN, SAMPLE(j), END. -/
inductive Seq where
  | idle
  | begun
  | sample (j : Nat)
  | ending
  deriving DecidableEq, Repr, Inhabited

/-- Everything 10_state names that RESET resets (10_state R62). `status` is STATUS[7:0]; bits 8 to 12 of STATUS are
views of `pub.sqOpen`, `seq`, `iq.fallback` and `spec.lock` (10_state R60) and are stored there only. -/
structure Regs where
  seq : Seq
  seqPort : Port
  cic : Cic
  dc : DcRemoval
  iq : IqCorr
  fin : FilterInput
  filt : Filter
  demod : Demod
  cond : Cond
  pend : Controls
  act : Controls
  latched : Latched
  usb : Usb
  stager : Stager
  ring : Ring
  spec : Spectrum
  pub : Published
  status : BitVec 8
  deriving DecidableEq, Repr

/-- One command port (30_encoding R90): the words its agent has still to complete, the first of them in progress or
next, and the response words of each command completed so far, oldest first (R94; an empty list for no words). -/
structure PortState where
  cmds : List Word
  replies : List (List Word)
  deriving DecidableEq, Repr, Inhabited

/-- The four ports (30_encoding R90). -/
structure Ports where
  producer : PortState
  host : PortState
  usb : PortState
  spectrum : PortState
  deriving DecidableEq, Repr, Inhabited

/-- The machine. `cfg` is the parameter instance (00_scope R6): no step and no RESET writes it (log 1). `regs` is the
state of 10_state; `raw` and `audioOut` are RAW and AUDIO_OUT (20_memory R71, R72). The rest is the model's own host
interface: the ports (log 4), the port `cur` whose command is being executed (48_commands' p), the schedule `sched` and
the counter `turn` of free choices after it (log 3), and the RAW writes `acq` the acquisition source has still to make
(log 5). -/
structure State where
  cfg : Config
  regs : Regs
  raw : Memory 16
  audioOut : Memory 24
  ports : Ports
  cur : Port
  sched : List Agent
  turn : Nat
  acq : List (Nat × BitVec 16)
  deriving DecidableEq, Repr

/-- Why a step stops with a fault. Neither happens in a run from reset (log 6). -/
inductive Fault where
  /-- An access to an index RAW does not have (20_memory R71): raised by a SAMPLE step whose j is P or more, and by a
  write of the acquisition source past BLOCK_SIZE. Safe: the access names nothing that exists. -/
  | rawIndex (k : Nat)
  /-- A block's write to an index AUDIO_OUT does not have (20_memory R72): raised by a SAMPLE step whose filter call
  would write past EXP. Safe: the access names nothing that exists. -/
  | audioIndex (k : Nat)
  deriving DecidableEq, Repr

/-- Why a step is refused. -/
inductive Refusal where
  /-- The instruction has no meaning in this model yet. Safe. No arm uses it. -/
  | notModelled (mnemonic : String)
  /-- The parameter instance is not admissible: "A model refuses any other instance" (00_scope R7). Safe. -/
  | inadmissibleConfig
  deriving DecidableEq, Repr

/-! ### Reset values (10_state R62, 70_reset_and_hazards R330) -/

/-- CIC channel at reset (10_state R33). -/
def CicChannel.reset : CicChannel := ⟨0, 0, 0, 0, 0, 0, 0, 0⟩

/-- Control registers at reset, both copies (10_state R40). -/
def Controls.reset : Controls where
  mode := .am
  bw := 0
  shift := 0
  swap := false
  iqCorr := false
  deemph := 0
  agc := 0
  notch := false
  sidetone := 0
  volume := 0
  squelch := 0
  gainCal := 0
  pwm := 0

/-- Everything 0, except iq_c2 = 32768, sig_dbm = minus infinity, seq = IDLE and spec_lock = FREE (10_state R62). -/
def Regs.reset : Regs where
  seq := .idle
  seqPort := .producer
  cic := ⟨CicChannel.reset, CicChannel.reset, 0⟩
  dc := ⟨0, 0⟩
  iq := ⟨0, 0, 0, 0, 0, 0, 0, 0, 32768, false⟩
  fin := ⟨Vector.replicate 128 IQ.zero, 0⟩
  filt := ⟨Vector.replicate 128 IQ.zero, Vector.replicate 64 IQ.zero, Vector.replicate 256 IQ.zero, 0, 0, 0, 0, 0⟩
  demod := ⟨0, 0, 0, 0, 0⟩
  cond := ⟨0, 0, 0, 0, false⟩
  pend := Controls.reset
  act := Controls.reset
  latched := ⟨0, 0, 0⟩
  usb := ⟨false, 0, false, 0⟩
  stager := ⟨0, 0⟩
  ring := ⟨[], 0, 0⟩
  spec := ⟨Vector.replicate 256 0, .free, false⟩
  pub := ⟨0, 0xFF800000#32, false, 0, 0⟩
  status := 0

/-- A port on which nothing has been issued. -/
def PortState.reset : PortState := ⟨[], []⟩

/-- The machine at power-on (70_reset_and_hazards R332) with parameter instance `c`: the state RESET gives, nothing
issued on any port, nothing scheduled. RAW and AUDIO_OUT, whose contents the spec leaves open, list nothing (log 2). -/
def State.resetWith (c : Config) : State where
  cfg := c
  regs := Regs.reset
  raw := []
  audioOut := []
  ports := ⟨PortState.reset, PortState.reset, PortState.reset, PortState.reset⟩
  cur := .producer
  sched := []
  turn := 0
  acq := []

/-- The machine right after reset, of the instance TESTCFG: the parameters are OPEN and TESTCFG is the only instance the
spec writes out (DESIGN CHOICE, log 1). -/
def State.reset : State := State.resetWith Config.testCfg

end Sys2Proof.Machine
end

