-- ==== Sys2Proof/Machine/ChannelFilter.lean ====
section
/-! DEFINITION. The frequency-domain channel filter with the adaptive notch (42_channel_filter R145 to R166). -/

namespace Sys2Proof.Machine

/-- The upper_sideband flag of a mode (10_state R42). -/
def Mode.usbFlag : Mode → Bool
  | .am => true
  | .ams => true
  | .lsb => false
  | .usb => true
  | .fm => true
  | .cw => true

/-- The lower_sideband flag of a mode (10_state R42). -/
def Mode.lsbFlag : Mode → Bool
  | .am => true
  | .ams => true
  | .lsb => true
  | .usb => false
  | .fm => true
  | .cw => true

/-- WINDOW[n] (42_channel_filter R148). -/
def window (n : Nat) : Int := asr (32767 - cosT (8 * n)) 1

/-- APPLY_WINDOW from index n on (42_channel_filter R148). -/
def applyWindow : Nat → List IQ → List IQ
  | _, [] => []
  | n, x :: xs => ⟨asr (x.re * window n) 15, asr (x.im * window n) 15⟩ :: applyWindow (n + 1) xs

/-- ROTATE (42_channel_filter R154): X'[k] = X[(k + b) mod 256]. -/
def rotate (b : Int) (x : List IQ) : List IQ :=
  (List.range fftN).map fun (k : Nat) => x.getD (((k : Int) + b) % 256).toNat IQ.zero

/-- Masked spectrum and peak scan under way (42_channel_filter R156, R157). -/
structure Scan where
  y : List IQ
  peakBin : Nat
  peakPow : Int
  secondPow : Int
  deriving DecidableEq, Repr, Inhabited

/-- The scan before its first bin: Y all (0, 0), no peak. -/
def Scan.start : Scan := ⟨List.replicate outM IQ.zero, 0, 0, 0⟩

/-- The power of a bin (42_channel_filter R157). -/
def binPower (v : IQ) : Int := v.re * v.re + v.im * v.im

/-- Y[idx] <- v, then PEAK_CONSIDER(idx) (42_channel_filter R156, R157); ties keep the earlier bin. -/
def Scan.take (sc : Scan) (idx : Nat) (v : IQ) : Scan :=
  let sc' := { sc with y := sc.y.set idx v }
  let p := binPower v
  if sc.peakPow < p then { sc' with secondPow := sc.peakPow, peakPow := p, peakBin := idx }
  else if sc.secondPow < p then { sc' with secondPow := p }
  else sc'

/-- One k of the mask's scan: the positive frequency, then the negative one (42_channel_filter R156). -/
def maskBin (m : Mode) (x : List IQ) (sc : Scan) (k : Nat) : Scan :=
  let sc1 := if Mode.usbFlag m then sc.take k (x.getD k IQ.zero) else sc
  if Mode.lsbFlag m ∧ 1 ≤ k then sc1.take (128 - k) (x.getD (256 - k) IQ.zero) else sc1

/-- MASK and PEAK over k = start..stop, ascending (42_channel_filter R156, R157). -/
def maskAndPeak (m : Mode) (b : Band) (x : List IQ) : Scan :=
  (List.range' b.start (b.stop + 1 - b.start)).foldl (maskBin m x) Scan.start

/-- NOTCH's confirm counter and last peak (42_channel_filter R160). -/
def notchConfirm (f : Filter) : Filter :=
  { f with
    confirm := if f.peakBin = f.lastPeakBin then min confirmMax (f.confirm + 1) else f.confirm - 1
    lastPeakBin := f.peakBin }

/-- NOTCH's zeroing (42_channel_filter R161), with the counter already updated. -/
def notchZero (f : Filter) (y : List IQ) : List IQ :=
  if 127 < f.confirm ∧ notchEdge < f.peakBin ∧ f.peakBin < 127 - notchEdge then
    ((y.set (f.peakBin - 1) IQ.zero).set f.peakBin IQ.zero).set (f.peakBin + 1) IQ.zero
  else y

/-- OVERLAP_ADD's emitted half (42_channel_filter R163). -/
def overlapEmit (ola : List IQ) (y : List IQ) : List IQ :=
  List.zipWith (fun a o => ⟨sat16 (a.re + o.re), sat16 (a.im + o.im)⟩) (y.take outE) ola

/-- Steps (1) to (3): window, forward transform, rotation if bin_shift is not 0 (42_channel_filter R146). -/
def shiftedSpectrum (binShift : Int) (block : List IQ) : List IQ :=
  let x := fftForward (applyWindow 0 block)
  if binShift ≠ 0 then rotate binShift x else x

/-- The filter state and the masked (and, with the notch on, notched) spectrum Y after steps (5) and (6)
(42_channel_filter R156 to R161). -/
def maskedSpectrum (act : Controls) (band : Band) (f : Filter) (x : List IQ) : Filter × List IQ :=
  let sc := maskAndPeak act.mode band x
  let f1 := { f with peakBin := sc.peakBin, peakPow := sc.peakPow, secondPow := sc.secondPow }
  if act.notch then
    let f2 := notchConfirm f1
    (f2, notchZero f2 sc.y)
  else (f1, sc.y)

/-- CHANFILT (42_channel_filter R146): new half block n, control, capture flag; the new filter state and the 64 pairs
emitted. -/
def chanFilt (cfg : Config) (act : Controls) (binShift : Int) (capture : Bool) (f : Filter) (n : Vector IQ 128) :
    Filter × List IQ :=
  let x := shiftedSpectrum binShift (f.last.toList ++ n.toList)
  let f1 := { f with last := n, cap := if capture then toVec 256 IQ.zero x else f.cap }
  let m := maskedSpectrum act (cfg.band act.mode act.bw) f1 x
  let y := fftInverse m.2
  ({ m.1 with ola := toVec 64 IQ.zero (y.drop outE) }, overlapEmit f.ola.toList y)

end Sys2Proof.Machine
end

