-- ==== Sys2Proof/Machine/CicDecimator.lean ====
section
/-! DEFINITION. The CIC decimator (40_cic R110 to R118). -/

namespace Sys2Proof.Machine

/-- CIC_INTEGRATE of one channel (40_cic R111): each stage adds its predecessor's new value, modulo 2^32 (R115). -/
def cicIntegrate (c : CicChannel) (x : Int) : CicChannel :=
  let i0 := wrap32 (c.integ0 + x)
  let i1 := wrap32 (c.integ1 + i0)
  let i2 := wrap32 (c.integ2 + i1)
  let i3 := wrap32 (c.integ3 + i2)
  { c with integ0 := i0, integ1 := i1, integ2 := i2, integ3 := i3 }

/-- The four cascaded first differences of CIC_COMB (40_cic R113): each delay takes its stage's input; the second result
is the last stage's output, before scaling. -/
def cicComb (c : CicChannel) : CicChannel × Int :=
  let v0 := c.integ3
  let v1 := wrap32 (v0 - c.delay0)
  let v2 := wrap32 (v1 - c.delay1)
  let v3 := wrap32 (v2 - c.delay2)
  ({ c with delay0 := v0, delay1 := v1, delay2 := v2, delay3 := v3 }, wrap32 (v3 - c.delay3))

/-- CIC_SCALE (40_cic R114). -/
def cicScale (cfg : Config) (v : Int) : Int := sat16 (asr v cfg.cicShift)

/-- CIC_DECIMATE (40_cic R112): the new state, and the output pair on a ready call. -/
def cicDecimate (cfg : Config) (u : Cic) (x : IQ) : Cic × Option IQ :=
  let ci := cicIntegrate u.chI x.re
  let cq := cicIntegrate u.chQ x.im
  if u.cnt + 1 < cfg.cicR then (⟨ci, cq, u.cnt + 1⟩, none)
  else
    let oi := cicComb ci
    let oq := cicComb cq
    (⟨oi.1, oq.1, 0⟩, some ⟨cicScale cfg oi.2, cicScale cfg oq.2⟩)

end Sys2Proof.Machine
end

