-- ==== Sys2Proof/Machine/Cordic.lean ====
section
/-! DEFINITION. The CORDIC polar converter (43_cordic_sine R175 to R182): a pure function of its operands. -/

namespace Sys2Proof.Machine

/-- The running vector and angle of a conversion. -/
structure CordicVec where
  i : Int
  q : Int
  ang : Int
  deriving DecidableEq, Repr, Inhabited

/-- Rounds k = 0..5 with ATAN[k] (43_cordic_sine R176). -/
def cordicTable : List (Nat × Int) := [(0, 256), (1, 151), (2, 80), (3, 41), (4, 20), (5, 10)]

/-- Pre-rotation into the right half-plane (43_cordic_sine R177). -/
def cordicPre (i q : Int) : CordicVec :=
  if i < 0 then (if 0 ≤ q then ⟨q, -i, 512⟩ else ⟨-q, i, -512⟩) else ⟨i, q, 0⟩

/-- One vectoring round (43_cordic_sine R178); q = 0 takes the first branch. -/
def cordicRound (v : CordicVec) (k : Nat × Int) : CordicVec :=
  if 0 ≤ v.q then ⟨v.i + asr v.q k.1, v.q - asr v.i k.1, v.ang + k.2⟩
  else ⟨v.i - asr v.q k.1, v.q + asr v.i k.1, v.ang - k.2⟩

/-- The vector after pre-rotation and the six rounds (43_cordic_sine R177, R178, R180). -/
def cordicRun (i q : Int) : CordicVec := cordicTable.foldl cordicRound (cordicPre i q)

/-- CORDIC magnitude (43_cordic_sine R179); not saturated. -/
def cordicMag (i q : Int) : Int := asr ((cordicRun i q).i * cordicK) 15

/-- CORDIC phase in [-1024, 1023] (43_cordic_sine R179). -/
def cordicPhase (i q : Int) : Int := wrapAngle (cordicRun i q).ang

end Sys2Proof.Machine
end

