-- ==== Sys2Proof/Machine/Float.lean ====
section
/-! DEFINITION. Binary32 results of the getters (00_scope R18): rounding to nearest with ties to even, the decimal
logarithm behind sig_dbm (45_conditioner R221) computed exactly, and the squelch threshold (R216). No floating-point
operation of the host language is used. -/

namespace Sys2Proof.Machine

/-- The binary32 pattern of minus infinity. -/
def f32NegInf : Word := 0xFF800000#32

/-- The exponent shift that leaves a 24-bit significand of m / 2^k, or fewer bits where the result is subnormal. -/
def f32Shift (m k : Nat) : Nat := max (Nat.log2 m - 23) (k - 149)

/-- m / 2^sh to nearest, ties to even; `sticky` says that the number is in truth a little more than m (by less than
1). -/
def roundEven (m sh : Nat) (sticky : Bool) : Nat :=
  let q := m / 2 ^ sh
  let r := m % 2 ^ sh * 2
  if 2 ^ sh < r ∨ (r = 2 ^ sh ∧ (sticky = true ∨ q % 2 = 1)) then q + 1 else q

/-- Magnitude bits of the binary32 nearest (m + ε) / 2^k, where ε is 0, or between 0 and 1 if `sticky`
(00_scope R18). m is 0 or at least 2^24. Past the largest finite value the result is infinity. -/
def f32Magnitude (m k : Nat) (sticky : Bool) : Nat :=
  if m = 0 then 0
  else min ((f32Shift m k + 149 - k) * 8388608 + roundEven m (f32Shift m k) sticky) 0x7F800000

/-- bits32(f32(n / 2^k)) of a natural number n. -/
def f32OfNat (n k : Nat) : Word := BitVec.ofNat 32 (f32Magnitude (n * 16777216) (k + 24) false)

/-! ### The decimal logarithm -/

/-- floor(log10 x) for x ≥ 1, with fuel. -/
def log10Floor : Nat → Nat → Nat
  | 0, _ => 0
  | fuel + 1, x => if x < 10 then 0 else log10Floor fuel (x / 10) + 1

/-- Working precision of the interval, in bits. -/
abbrev logPrec : Nat := 512

/-- Fraction bits taken of 20·log10(n): more than any difference between 20·log10(n) and an integer up to 348 can need
for n ≤ 46341, so that 24 significant bits and a sticky bit are always there (DEDUCED, log 10). -/
abbrev logBits : Nat := 352

/-- The next binary digit of log10 x. lo and hi enclose 2^logPrec · y², where y = x^(2^j) / 10^r is in [1, 10) and r is
floor(2^j · log10 x). Where the interval does not decide, the exact comparison does. -/
def logDigit (x j r lo hi : Nat) : Bool :=
  if 10 * 2 ^ logPrec ≤ lo then true
  else if hi ≤ 10 * 2 ^ logPrec then false
  else decide (10 ^ (2 * r + 1) ≤ x ^ 2 ^ (j + 1))

/-- `n` more binary digits of log10 x after the first j, of which r is the value so far; lo and hi enclose
2^logPrec · x^(2^j) / 10^r. -/
def logLoop (x : Nat) : Nat → Nat → Nat → Nat → Nat → Nat
  | 0, _, r, _, _ => r
  | n + 1, j, r, lo, hi =>
    let l := lo * lo / 2 ^ logPrec
    let h := hi * hi / 2 ^ logPrec + 1
    if logDigit x j r l h then logLoop x n (j + 1) (2 * r + 1) (l / 10) (h / 10 + 1)
    else logLoop x n (j + 1) (2 * r) l h

/-- floor(2^bits · log10 x) for x ≥ 1. -/
def log10Scaled (x bits : Nat) : Nat :=
  let d := log10Floor (Nat.log2 x + 1) x
  let lo := x * 2 ^ logPrec / 10 ^ d
  logLoop x bits 0 d lo (lo + 1)

/-- Whether log10 x is an integer: x is a power of ten. -/
def isPowerOfTen (x : Nat) : Bool := decide (10 ^ log10Floor (Nat.log2 x + 1) x = x)

/-- sig_dbm (45_conditioner R221): f32(-∞) for 0, else f32(20·log10(n) - g). The value is v / 2^logBits with v known
exactly, or between v and v + 1 where n is no power of ten. -/
def signalDbm (n : Nat) (g : Int) : Word :=
  if n = 0 then f32NegInf
  else
    let v : Int := (log10Scaled (n ^ 20) logBits : Int) - g * ((2 ^ logBits : Nat) : Int)
    let exact := isPowerOfTen n
    if 0 ≤ v then BitVec.ofNat 32 (f32Magnitude v.toNat logBits (!exact))
    else if exact then BitVec.ofNat 32 (2147483648 + f32Magnitude (-v).toNat logBits false)
    else BitVec.ofNat 32 (2147483648 + f32Magnitude (-v - 1).toNat logBits true)

/-! ### The squelch threshold -/

/-- floor(10^(d/20)) for an integer d: the largest t ≥ 0 with t^20 ≤ 10^d, and 0 for d < 0 (45_conditioner R216). -/
def twentiethRoot (d : Int) : Nat := if d < 0 then 0 else rootDigits 20 (10 ^ d.toNat) (d.toNat / 5 + 1) 0

/-- SQ_THRESH(k, g) (45_conditioner R216). -/
def sqThreshold (k : Nat) (g : Int) : Nat := twentiethRoot (sqDbm.getD k 0 + g)

end Sys2Proof.Machine
end

