-- ==== Sys2Proof/Machine/Conditioner.lean ====
section
/-! DEFINITION. De-emphasis, AGC, squelch gate, signal estimate and volume (45_conditioner R210 to R226). -/

namespace Sys2Proof.Machine

/-- DEEMPH (45_conditioner R211): off bypasses and keeps the state. -/
def deemphasis (cfg : Config) (preset : Nat) (c : Cond) (x : Int) : Cond × Int :=
  if preset = 0 then (c, x)
  else
    let k := cfg.deemphSet preset
    let y := sat16 (asr (k.b0 * x + k.b1 * c.deX + k.a1 * c.deY) 15)
    ({ c with deX := x, deY := y }, y)

/-- AGC's hold and hang update: attack, else hang, else decay (45_conditioner R214). -/
def agcUpdate (cfg : Config) (p : AgcPreset) (c : Cond) (x : Int) : Cond :=
  let m := shl (absI x) cfg.agcFrac
  if c.agcHold < m then { c with agcHold := c.agcHold + asr (m - c.agcHold) p.attack, agcHang := p.hang }
  else if 0 < c.agcHang then { c with agcHang := c.agcHang - 1 }
  else { c with agcHold := c.agcHold - asr c.agcHold p.decay }

/-- The gain, floored at 1, from the hold value (45_conditioner R214). -/
def agcGain (cfg : Config) (hold : Int) : Int :=
  max 1 ((cfg.agcSetpoint : Int) / max (asr hold cfg.agcFrac) cfg.agcEps)

/-- Soft clip: the excess beyond the setpoint is halved (45_conditioner R214). -/
def softClip (setpoint y : Int) : Int :=
  if setpoint < y then setpoint + asr (y - setpoint) 1
  else if y < -setpoint then -setpoint - asr (-setpoint - y) 1
  else y

/-- AGC (45_conditioner R214): the gain uses the hold value after this sample's update. -/
def agc (cfg : Config) (p : AgcPreset) (c : Cond) (x : Int) : Cond × Int :=
  let c' := agcUpdate cfg p c x
  (c', sat16 (softClip cfg.agcSetpoint (x * agcGain cfg c'.agcHold)))

/-- SQ_GATE (45_conditioner R218). -/
def sqGate (c : Cond) (x : Int) : Int := if c.sqOpen then x else 0

/-- VOLUME (45_conditioner R225). -/
def volumeScale (cfg : Config) (index : Nat) (x : Int) : Int := asr (x * cfg.volume index) 8

/-- SIG_ACCUM (45_conditioner R219). -/
def sigAccum (p : Published) (x : IQ) : Published :=
  { p with magSum := p.magSum + cordicMag x.re x.im, magCnt := p.magCnt + 1 }

/-- SIG_PUBLISH (45_conditioner R220, R221): the estimate, its strength, and the squelch state of the block. -/
def sigPublish (p : Published) (gainCal : Int) (sqOpen : Bool) : Published :=
  let est := p.magSum / (p.magCnt : Int)
  { p with sigEst := est, sigDbm := signalDbm est.toNat gainCal, sqOpen := sqOpen }

end Sys2Proof.Machine
end

