-- ==== Sys2Proof/Machine/Demodulators.lean ====
section
/-! DEFINITION. The demodulator bank and the software PLL (44_demodulators R190 to R207). -/

namespace Sys2Proof.Machine

/-- The DC tracker of AM and AMS: the new am_dc and the saturated difference (44_demodulators R192, R197). -/
def amTrack (d : Demod) (v : Int) : Demod × Int :=
  let t := iirTrack d.amDc v amDcShift
  ({ d with amDc := t.1 }, sat16 (v - t.2))

/-- DEMOD_AM (44_demodulators R192). -/
def demodAm (d : Demod) (x : IQ) : Demod × Int := amTrack d (cordicMag x.re x.im)

/-- VCO phase in angle units (44_demodulators R193). -/
def vcoAngle (cfg : Config) (d : Demod) : Int := asr d.pllPhase cfg.pllFrac

/-- The input rotated by the VCO phase, not saturated (44_demodulators R193). -/
def amsRotate (th : Int) (x : IQ) : IQ :=
  ⟨asr (x.re * cosT th - x.im * sinT th) 15, asr (x.re * sinT th + x.im * cosT th) 15⟩

/-- The phase error of the synchronised vector (44_demodulators R194). -/
def amsError (v : IQ) : Int := -cordicPhase v.re v.im

/-- Loop filter: frequency integrator with its clamp, then phase integrator with the new frequency (44_demodulators
R195, R196). -/
def pllUpdate (cfg : Config) (d : Demod) (e : Int) : Demod :=
  let freq := clamp (d.pllFreq + e * cfg.pllKi) (-(cfg.pllFmax : Int)) cfg.pllFmax
  { d with pllFreq := freq, pllPhase := (d.pllPhase + freq + e * cfg.pllKp) % shl 2048 cfg.pllFrac }

/-- DEMOD_AMS (44_demodulators R193 to R197). -/
def demodAms (cfg : Config) (d : Demod) (x : IQ) : Demod × Int :=
  let v := amsRotate (vcoAngle cfg d) x
  amTrack (pllUpdate cfg d (amsError v)) v.re

/-- DEMOD_FM (44_demodulators R199). -/
def demodFm (d : Demod) (x : IQ) : Demod × Int :=
  let ph := cordicPhase x.re x.im
  ({ d with fmLast := ph }, wrapAngle (ph - d.fmLast))

/-- DEMOD_CW (44_demodulators R201, R202): the phase before its advance is used. -/
def demodCw (cwInc : Nat) (d : Demod) (x : IQ) : Demod × Int :=
  ({ d with cwPhase := (d.cwPhase + cwInc) % 2048 }, sat16 (asr (x.re * cosT d.cwPhase - x.im * sinT d.cwPhase) 15))

/-- DEMOD dispatch (44_demodulators R191, R200). -/
def demodulate (cfg : Config) (m : Mode) (cwInc : Nat) (d : Demod) (x : IQ) : Demod × Int :=
  match m with
  | .am => demodAm d x
  | .ams => demodAms cfg d x
  | .lsb => (d, x.re)
  | .usb => (d, x.re)
  | .fm => demodFm d x
  | .cw => demodCw cwInc d x

/-- MODE_CHANGE_ZERO: the newly active demodulator's own state (44_demodulators R205). -/
def modeChangeZero (m : Mode) (d : Demod) : Demod :=
  match m with
  | .am => { d with amDc := 0 }
  | .ams => { d with amDc := 0, pllPhase := 0, pllFreq := 0 }
  | .lsb => d
  | .usb => d
  | .fm => { d with fmLast := 0 }
  | .cw => { d with cwPhase := 0 }

end Sys2Proof.Machine
end

