-- ==== Sys2Proof/Machine/Frontend.lean ====
section
/-! DEFINITION. Deinterleave, DC removal and the IQ imbalance corrector (41_frontend_iq R125 to R134). -/

namespace Sys2Proof.Machine

/-- The ADC sample of a raw word: bits [ADC_W-1:0], the others ignored (41_frontend_iq R126). -/
def adcSample (cfg : Config) (w : BitVec 16) : Int := ((w.toNat % 2 ^ cfg.adcW : Nat) : Int)

/-- DEINTERLEAVE (41_frontend_iq R126, 10_state R44). -/
def deinterleave (cfg : Config) (swap : Bool) (w0 w1 : BitVec 16) : IQ :=
  if swap then ⟨adcSample cfg w1, adcSample cfg w0⟩ else ⟨adcSample cfg w0, adcSample cfg w1⟩

/-- DC_REMOVE (41_frontend_iq R127). -/
def dcRemove (cfg : Config) (d : DcRemoval) (x : IQ) : DcRemoval × IQ :=
  let ti := iirTrack d.accI x.re cfg.dcShift
  let tq := iirTrack d.accQ x.im cfg.dcShift
  (⟨ti.1, tq.1⟩, ⟨sat16 (x.re - ti.2), sat16 (x.im - tq.2)⟩)

/-- Low end of int32, the clamp of 41_frontend_iq R130. -/
abbrev int32Lo : Int := -2147483648

/-- High end of int32. -/
abbrev int32Hi : Int := 2147483647

/-- IQ_UPDATE at a window boundary (41_frontend_iq R130, R133, R134): the three low-pass filters, the coefficients or
the fallback, and cleared sums. -/
def iqUpdate (u : IqCorr) : IqCorr :=
  let t1 := iirTrack u.f1 u.acc1 iqIirShift
  let t2 := iirTrack u.f2 u.acc2 iqIirShift
  let t3 := iirTrack u.f3 u.acc3 iqIirShift
  let rad := t3.2 * t3.2 - t1.2 * t1.2
  let base : IqCorr := { u with f1 := t1.1, f2 := t2.1, f3 := t3.1, acc1 := 0, acc2 := 0, acc3 := 0, n := 0 }
  if t2.2 < iqMinT2 ∨ rad < 0 then { base with c1 := 0, c2 := 32768, fallback := true }
  else
    { base with
      c1 := clamp (tdiv (shl t1.2 15) t2.2) int32Lo int32Hi
      c2 := clamp (isqrt (shl rad 30 / (t2.2 * t2.2)).toNat) int32Lo int32Hi
      fallback := false }

/-- IQ_ESTIMATE (41_frontend_iq R129): the three sums over the window, and IQ_UPDATE when it is full. -/
def iqEstimate (u : IqCorr) (x : IQ) : IqCorr :=
  let u' : IqCorr :=
    { u with
      acc1 := u.acc1 - sgn0 x.re * x.im
      acc2 := u.acc2 + absI x.re
      acc3 := u.acc3 + absI x.im
      n := u.n + 1 }
  if u'.n = iqWin then iqUpdate u' else u'

/-- IQ_APPLY (41_frontend_iq R132): q first, using the uncorrected i. -/
def iqApply (u : IqCorr) (x : IQ) : IQ :=
  ⟨sat16 (asr (x.re * u.c2) 15), sat16 (x.im + asr (x.re * u.c1) 15)⟩

/-- The IQ corrector of FRONTEND: estimate, then apply, while enabled; untouched while disabled (41_frontend_iq R125,
R131). -/
def iqCorrect (enable : Bool) (u : IqCorr) (x : IQ) : IqCorr × IQ :=
  if enable then
    let u' := iqEstimate u x
    (u', iqApply u' x)
  else (u, x)

/-- FRONTEND (41_frontend_iq R125). -/
def frontend (cfg : Config) (act : Controls) (d : DcRemoval) (u : IqCorr) (w0 w1 : BitVec 16) :
    DcRemoval × IqCorr × IQ :=
  let r := dcRemove cfg d (deinterleave cfg act.swap w0 w1)
  let c := iqCorrect act.iqCorr u r.2
  (r.1, c.1, c.2)

end Sys2Proof.Machine
end

