-- ==== Sys2Proof/Syntax.lean ====
section
/-! DEFINITION. The commands of 30_encoding R95, one constructor per row of spec/opcode_table.json, in the table's
order, with the operand fields of R92 as the bits the command word carries; the two decode errors; and the
pseudo-instructions of R103. -/

namespace Sys2Proof

/-- A command with its operands (30_encoding R92, R95). `b` is the B-format bit, `u` a U8 or U24 field, `s` an S24
field (two's complement), `mode` and `bw` the M-format fields. -/
inductive Instr where
  | reset
  | processBlock
  | getStatus
  | clrStatus
  | setMode (mode : BitVec 4) (bw : BitVec 4)
  | setShift (s : BitVec 24)
  | setSwapIq (b : Bool)
  | setIqCorr (b : Bool)
  | setDeemph (u : BitVec 8)
  | setAgcSpeed (u : BitVec 8)
  | setAutonotch (b : Bool)
  | setSidetone (u : BitVec 24)
  | setVolume (u : BitVec 8)
  | setSquelch (u : BitVec 8)
  | setGainCal (s : BitVec 24)
  | setPwmScale (u : BitVec 24)
  | getSignalDbm
  | getSquelch
  | getUsbFill
  | usbSetMute (b : Bool)
  | usbSetVolume (u : BitVec 24)
  | usbPop (u : BitVec 24)
  | specAcquire
  | specRead
  | specRelease
  deriving DecidableEq, Repr

/-- Why a command word is no command (30_encoding R96, R97). -/
inductive DecodeError where
  /-- The op is not in the opcode map (R96). -/
  | illegal
  /-- A listed op with reserved-zero bits set, or SET_MODE with mode 6 to 15 (R97). -/
  | reserved
  deriving DecidableEq, Repr

/-- The pseudo-instructions of 30_encoding R103. -/
inductive Pseudo where
  | getSpectrum
  | muteUsb
  | unmuteUsb
  | processBlocks (n : Nat)
  deriving DecidableEq, Repr

/-- Their expansions (30_encoding R103; 48_commands R299 for get_spectrum). -/
def Pseudo.expand : Pseudo → List Instr
  | .getSpectrum => [.specAcquire, .specRead, .specRelease]
  | .muteUsb => [.usbSetMute true]
  | .unmuteUsb => [.usbSetMute false]
  | .processBlocks n => List.replicate n .processBlock

end Sys2Proof
end

