-- ==== Sys2Proof/WellFormed.lean ====
section
/-! DEFINITION. Which instruction terms stand for a command word: the only field whose bits admit a value that no
command has is SET_MODE's mode (30_encoding R97, R99). -/

namespace Sys2Proof

/-- The instruction has an encoding (30_encoding R97: modes 6 to 15 are reserved). -/
def Instr.wellFormed : Instr → Bool
  | .reset => true
  | .processBlock => true
  | .getStatus => true
  | .clrStatus => true
  | .setMode mode _ => decide (mode.toNat ≤ 5)
  | .setShift _ => true
  | .setSwapIq _ => true
  | .setIqCorr _ => true
  | .setDeemph _ => true
  | .setAgcSpeed _ => true
  | .setAutonotch _ => true
  | .setSidetone _ => true
  | .setVolume _ => true
  | .setSquelch _ => true
  | .setGainCal _ => true
  | .setPwmScale _ => true
  | .getSignalDbm => true
  | .getSquelch => true
  | .getUsbFill => true
  | .usbSetMute _ => true
  | .usbSetVolume _ => true
  | .usbPop _ => true
  | .specAcquire => true
  | .specRead => true
  | .specRelease => true

end Sys2Proof
end

