-- ==== Sys2Proof/Decode.lean ====
section
/-! DEFINITION. Decoding (total on every 32-bit word, 30_encoding R99) and encoding (R92, R95, R102). A command is one
whole word and has no byte order (20_memory R76), so the decoder reads the word itself. -/

namespace Sys2Proof

/-- Bits [31:24] (30_encoding R91). -/
def opField (w : Word) : BitVec 8 := w.extractLsb' 24 8

/-- Bits [23:0] (30_encoding R91). -/
def operandField (w : Word) : BitVec 24 := w.extractLsb' 0 24

/-- Format N: [23:0] reserved-zero (30_encoding R92, R97). -/
def formatN (o : BitVec 24) (i : Instr) : Except DecodeError Instr :=
  if o = 0 then .ok i else .error .reserved

/-- Format B: [0] b, [23:1] reserved-zero. -/
def formatB (o : BitVec 24) (f : Bool → Instr) : Except DecodeError Instr :=
  if o.extractLsb' 1 23 = 0 then .ok (f (o.getLsbD 0)) else .error .reserved

/-- Format U8: [7:0] u, [23:8] reserved-zero. -/
def formatU8 (o : BitVec 24) (f : BitVec 8 → Instr) : Except DecodeError Instr :=
  if o.extractLsb' 8 16 = 0 then .ok (f (o.extractLsb' 0 8)) else .error .reserved

/-- Format M: [3:0] mode, [7:4] bw, [23:8] reserved-zero; a mode of 6 to 15 is RESERVED too (30_encoding R97, R99;
the reserved-zero bits are checked first, 60_exceptions R313). -/
def formatM (o : BitVec 24) (f : BitVec 4 → BitVec 4 → Instr) : Except DecodeError Instr :=
  if o.extractLsb' 8 16 ≠ 0 then .error .reserved
  else if 5 < (o.extractLsb' 0 4).toNat then .error .reserved
  else .ok (f (o.extractLsb' 0 4) (o.extractLsb' 4 4))

/-- The opcode map (30_encoding R95); an op outside it is ILLEGAL (R96). -/
def decodeOp (op : Nat) (o : BitVec 24) : Except DecodeError Instr :=
  match op with
  | 0x01 => formatN o .reset
  | 0x02 => formatN o .processBlock
  | 0x03 => formatN o .getStatus
  | 0x04 => formatN o .clrStatus
  | 0x10 => formatM o .setMode
  | 0x11 => .ok (.setShift o)
  | 0x12 => formatB o .setSwapIq
  | 0x13 => formatB o .setIqCorr
  | 0x14 => formatU8 o .setDeemph
  | 0x15 => formatU8 o .setAgcSpeed
  | 0x16 => formatB o .setAutonotch
  | 0x17 => .ok (.setSidetone o)
  | 0x18 => formatU8 o .setVolume
  | 0x19 => formatU8 o .setSquelch
  | 0x1A => .ok (.setGainCal o)
  | 0x1B => .ok (.setPwmScale o)
  | 0x20 => formatN o .getSignalDbm
  | 0x21 => formatN o .getSquelch
  | 0x22 => formatN o .getUsbFill
  | 0x30 => formatB o .usbSetMute
  | 0x31 => .ok (.usbSetVolume o)
  | 0x32 => .ok (.usbPop o)
  | 0x40 => formatN o .specAcquire
  | 0x41 => formatN o .specRead
  | 0x42 => formatN o .specRelease
  | _ => .error .illegal

/-- Decode a command word (30_encoding R99): exactly one command, or ILLEGAL, or RESERVED. -/
def decode (w : Word) : Except DecodeError Instr := decodeOp (opField w).toNat (operandField w)

/-- op and operand put together: `(op << 24) | operand` (30_encoding R102). -/
def commandWord (op : BitVec 8) (o : BitVec 24) : Word := op ++ o

/-- Operand of format B. -/
def operandB (b : Bool) : BitVec 24 := (0 : BitVec 23) ++ BitVec.ofBool b

/-- Operand of format U8. -/
def operandU8 (u : BitVec 8) : BitVec 24 := (0 : BitVec 16) ++ u

/-- Operand of format M. -/
def operandM (mode bw : BitVec 4) : BitVec 24 := (0 : BitVec 16) ++ (bw ++ mode)

/-- The word of an instruction, from the encodings of 30_encoding R92 and R95. -/
def encode : Instr → Word
  | .reset => commandWord 0x01 0
  | .processBlock => commandWord 0x02 0
  | .getStatus => commandWord 0x03 0
  | .clrStatus => commandWord 0x04 0
  | .setMode mode bw => commandWord 0x10 (operandM mode bw)
  | .setShift s => commandWord 0x11 s
  | .setSwapIq b => commandWord 0x12 (operandB b)
  | .setIqCorr b => commandWord 0x13 (operandB b)
  | .setDeemph u => commandWord 0x14 (operandU8 u)
  | .setAgcSpeed u => commandWord 0x15 (operandU8 u)
  | .setAutonotch b => commandWord 0x16 (operandB b)
  | .setSidetone u => commandWord 0x17 u
  | .setVolume u => commandWord 0x18 (operandU8 u)
  | .setSquelch u => commandWord 0x19 (operandU8 u)
  | .setGainCal s => commandWord 0x1A s
  | .setPwmScale u => commandWord 0x1B u
  | .getSignalDbm => commandWord 0x20 0
  | .getSquelch => commandWord 0x21 0
  | .getUsbFill => commandWord 0x22 0
  | .usbSetMute b => commandWord 0x30 (operandB b)
  | .usbSetVolume u => commandWord 0x31 u
  | .usbPop u => commandWord 0x32 u
  | .specAcquire => commandWord 0x40 0
  | .specRead => commandWord 0x41 0
  | .specRelease => commandWord 0x42 0

/-- The instruction the decoder reads from an opcode-table word `w` of `nbits` bits (every command is one 32-bit
word, 30_encoding R91, so bits from `nbits` up are 0 and nothing stands above bit 31). -/
def decodeTableWord (nbits w : Nat) : Option Instr :=
  match decode (BitVec.ofNat 32 (w % 2 ^ nbits)) with
  | .ok i => some i
  | .error _ => none

end Sys2Proof
end

