-- ==== Sys2Proof/Machine/Flags.lean ====
section
/-! DEFINITION. The STATUS register (10_state R60, R61), the error codes (60_exceptions R310) and the recording of an
error in STATUS[7:0] (R312). -/

namespace Sys2Proof.Machine

/-- The errors of 60_exceptions R310. -/
inductive Err where
  | illegal
  | reserved
  | clamped
  | lockMisuse
  deriving DecidableEq, Repr

/-- Error codes 1 to 4 (60_exceptions R310). -/
def Err.code : Err → Nat
  | .illegal => 1
  | .reserved => 2
  | .clamped => 3
  | .lockMisuse => 4

/-- The sticky bit of an error: STATUS bit (code - 1) (60_exceptions R310). -/
def stickyMask (e : Err) : BitVec 8 := (1 : BitVec 8) <<< (e.code - 1)

/-- FIRST_ERR = STATUS[7:4] (10_state R60). -/
def firstErr (st : BitVec 8) : BitVec 4 := st.extractLsb' 4 4

/-- STATUS[7:0] after recording an error (60_exceptions R312): its sticky bit set, and FIRST_ERR its code if FIRST_ERR
was 0. -/
def recordBits (st : BitVec 8) (e : Err) : BitVec 8 :=
  let st' := st ||| stickyMask e
  if firstErr st' = 0 then st' ||| (BitVec.ofNat 8 e.code <<< 4) else st'

/-- STATUS.LOCK: FREE 0, PRODUCER 1, CONSUMER 2 (10_state R60, 48_commands R300). -/
def lockCode : Lock → BitVec 2
  | .free => 0
  | .producer => 1
  | .consumer _ => 2

/-- The word GET_STATUS returns (48_commands R300, 10_state R60); bits [31:13] read 0. -/
def statusWord (r : Regs) : Word :=
  (0 : BitVec 19) ++ lockCode r.spec.lock ++ BitVec.ofBool r.iq.fallback ++ BitVec.ofBool (decide (r.seq ≠ .idle)) ++
    BitVec.ofBool r.pub.sqOpen ++ r.status

end Sys2Proof.Machine
end

