-- ==== Sys2Proof/Machine/Operands.lean ====
section
/-! DEFINITION. Operand assembly (30_encoding R92, R93), enumerated operands (R100), the clamping of setter values
(R98) and the packing of USB_POP's response (R94). -/

namespace Sys2Proof.Machine

/-- zext of a U8, U24 or bw field (30_encoding R93). -/
def zext {w : Nat} (u : BitVec w) : Nat := u.toNat

/-- sext_24 (30_encoding R93): v - 2^24 if v[23] = 1, else v. -/
def sext24 (s : BitVec 24) : Int := s.toInt

/-- The mode a mode field names, none for 6 to 15 (30_encoding R97, R100). -/
def modeOf (m : BitVec 4) : Option Mode :=
  match m.toNat with
  | 0 => some .am
  | 1 => some .ams
  | 2 => some .lsb
  | 3 => some .usb
  | 4 => some .fm
  | 5 => some .cw
  | _ => none

/-- An unsigned setter value brought to at most `hi`, and whether that changed it (30_encoding R98). -/
def clampNat (u hi : Nat) : Nat × Bool := if hi < u then (hi, true) else (u, false)

/-- A signed setter value brought into [lo, hi], and whether that changed it (30_encoding R98, 48_commands R276,
R285). -/
def clampInt (v lo hi : Int) : Int × Bool :=
  let h := min hi (max lo v)
  (h, decide (h ≠ v))

/-- Four bytes to a word, byte n in bits [8n+7 : 8n] (20_memory R76, 30_encoding R94). -/
def packWord (b0 b1 b2 b3 : Byte) : Word := b3 ++ b2 ++ b1 ++ b0

/-- The data words of a POP response: ceil(m/4) words, little-endian, unused high bytes 0 (30_encoding R94). -/
def packBytes : List Byte → List Word
  | [] => []
  | [a] => [packWord a 0 0 0]
  | [a, b] => [packWord a b 0 0]
  | [a, b, c] => [packWord a b c 0]
  | a :: b :: c :: d :: rest => packWord a b c d :: packBytes rest

end Sys2Proof.Machine
end

