-- ==== Sys2Proof/Machine/Ops.lean ====
section
/-! DEFINITION. The named operations the meanings share: indexed storage, ports, completing a command, recording and
raising an error (the core's only exception mechanism, 60_exceptions R312; there is no trap and no return, R314),
writing a pending control register, the schedule, fetching a command word, and the acquisition source's step. -/

namespace Sys2Proof.Machine

/-! ### Indexed storage (20_memory R71, R72, R74) -/

/-- Read one entry. -/
def Memory.read {w : Nat} : Memory w → Nat → BitVec w
  | [], _ => Memory.unlisted w
  | (b, v) :: m, a => if a = b then v else Memory.read m a

/-- Write one entry, keeping the canonical form: writing what an unlisted index reads as removes the entry. -/
def Memory.write {w : Nat} : Memory w → Nat → BitVec w → Memory w
  | [], a, v => if v = Memory.unlisted w then [] else [(a, v)]
  | (b, x) :: m, a, v =>
    if a < b then (if v = Memory.unlisted w then (b, x) :: m else (a, v) :: (b, x) :: m)
    else if a = b then (if v = Memory.unlisted w then m else (a, v) :: m)
    else (b, x) :: Memory.write m a v

/-! ### Ports (30_encoding R90) -/

/-- The state of port p. -/
def Ports.get (ps : Ports) : Port → PortState
  | .producer => ps.producer
  | .host => ps.host
  | .usb => ps.usb
  | .spectrum => ps.spectrum

/-- Replace the state of port p. -/
def Ports.set (ps : Ports) (p : Port) (x : PortState) : Ports :=
  match p with
  | .producer => { ps with producer := x }
  | .host => { ps with host := x }
  | .usb => { ps with usb := x }
  | .spectrum => { ps with spectrum := x }

/-- A port's command in progress completes with these response words: they are delivered, and the port is free for its
agent's next command (48_commands R265, 30_encoding R90). -/
def PortState.finish (x : PortState) (ws : List Word) : PortState := ⟨x.cmds.tail, x.replies ++ [ws]⟩

/-- The command in progress on port p completes, with response words ws. -/
def State.finishPort (s : State) (p : Port) (ws : List Word) : State :=
  { s with ports := s.ports.set p ((s.ports.get p).finish ws) }

/-- respond(ws) (00_scope R17) and completion of the executing command: its response words go to the issuing port. -/
def State.respond (s : State) (ws : List Word) : State := s.finishPort s.cur ws

/-! ### Errors (60_exceptions R312, 00_scope R17) -/

/-- The error a word that is no command raises (30_encoding R96, R97). -/
def decodeErr : DecodeError → Err
  | .illegal => .illegal
  | .reserved => .reserved

/-- record Err(e): STATUS changes as R312 says; the command goes on. -/
def State.recordErr (s : State) (e : Err) : State :=
  { s with regs := { s.regs with status := recordBits s.regs.status e } }

/-- record Err(e) if b holds. -/
def State.recordIf (s : State) (b : Bool) (e : Err) : State := if b then s.recordErr e else s

/-- raise Err(e): STATUS changes as R312 says, no other state changes, no word is returned, and the port is free for
its next command. Nothing is saved and control goes nowhere (60_exceptions R311, R314). -/
def State.raiseErr (s : State) (e : Err) : State := (s.recordErr e).respond []

/-! ### Setters (48_commands R272) -/

/-- A setter's effect: the pending control registers become pend, CLAMPED is recorded if `clamped`, and the command
completes with no words. -/
def State.setPend (s : State) (pend : Controls) (clamped : Bool) : State :=
  ({ s with regs := { s.regs with pend := pend } }.recordIf clamped .clamped).respond []

/-! ### RAW and AUDIO_OUT (20_memory R71, R72) -/

/-- MemRead(RAW, k); an index RAW does not have faults (log 6). -/
def State.readRaw (s : State) (k : Nat) : Except Fault (BitVec 16) :=
  if k < s.cfg.blockSize then .ok (s.raw.read k) else .error (.rawIndex k)

/-- MemWrite(AUDIO_OUT, out_idx, p) and out_idx <- out_idx + 1 (46_output_stager R238). -/
def State.pushAudio (s : State) (p : Int) : State :=
  { s with
    audioOut := s.audioOut.write s.regs.stager.outIdx (BitVec.ofInt 24 p)
    regs := { s.regs with stager := { s.regs.stager with outIdx := s.regs.stager.outIdx + 1 } } }

/-! ### Agents and the schedule (00_scope R5, 20_memory R82, 60_exceptions R320) -/

/-- No port has a command and the acquisition source has nothing to write: no agent has a step. -/
def State.quiet (s : State) : Bool :=
  s.ports.producer.cmds.isEmpty && s.ports.host.cmds.isEmpty && s.ports.usb.cmds.isEmpty &&
    s.ports.spectrum.cmds.isEmpty && s.acq.isEmpty

/-- The agent whose step is next: the schedule's head, and past its end a free value (log 3). -/
def State.nextAgent (s : State) : Agent :=
  match s.sched with
  | a :: _ => a
  | [] => Config.freeAgent s.turn

/-- The schedule has been consulted once. -/
def State.tick (s : State) : State :=
  match s.sched with
  | _ :: rest => { s with sched := rest }
  | [] => { s with turn := s.turn + 1 }

/-- The command word at the head of port p: the one in progress, or the next. -/
def State.fetch (s : State) (p : Port) : Option Word := (s.ports.get p).cmds.head?

/-- Put a command word where port p's next fetch reads it. -/
def State.issue (s : State) (p : Port) (w : Word) : State :=
  { s with ports := s.ports.set p { s.ports.get p with cmds := w :: (s.ports.get p).cmds } }

/-- One step of the acquisition source (00_scope R5): it writes its next RAW entry, and has no step while a block is in
progress (20_memory R87). -/
def acquire (s : State) : Host.Outcome State Fault Refusal :=
  match s.regs.seq, s.acq with
  | .idle, (k, v) :: rest =>
    if k < s.cfg.blockSize then .next { s with raw := s.raw.write k v, acq := rest } else .fault (.rawIndex k)
  | _, _ => .next s

end Sys2Proof.Machine
end

