-- ==== Sys2Proof/Machine/OutputStager.lean ====
section
/-! DEFINITION. Interpolation, PWM scaling, the USB tap and the USB ring buffer (46_output_stager R235 to R247). -/

namespace Sys2Proof.Machine

/-- The run of INTERP_L points of INTERPOLATE, from prev toward v (46_output_stager R236). -/
def interpolationRun (cfg : Config) (prev v : Int) : List Int :=
  (List.range cfg.interpL).map fun (k : Nat) => prev + (v - prev) * (k : Int) / (cfg.interpL : Int)

/-- PWM_SCALE's count (46_output_stager R238). -/
def pwmCount (pwm : Nat) (y : Int) : Int := clamp (asr ((y + 32768) * pwm) 16) 0 pwm

/-- INTERPOLATE (46_output_stager R236): each point of the run goes through PWM_SCALE to AUDIO_OUT (R238). -/
def interpolate (s : State) (v : Int) : State :=
  let s' := (interpolationRun s.cfg s.regs.stager.interpPrev v).foldl
    (fun t y => t.pushAudio (pwmCount t.regs.act.pwm y)) s
  { s' with regs := { s'.regs with stager := { s'.regs.stager with interpPrev := v } } }

/-- rb_push (46_output_stager R243): a full buffer drops its oldest byte. -/
def rbPush (cap : Nat) (r : Ring) (b : Byte) : Ring :=
  let r' : Ring := if r.count = cap then { r with head := (r.head + 1) % cap, count := r.count - 1 } else r
  { r' with data := r'.data.write ((r'.head + r'.count) % cap) b, count := r'.count + 1 }

/-- The m oldest bytes, oldest first (46_output_stager R244). -/
def rbPeek (cap : Nat) (r : Ring) (m : Nat) : List Byte :=
  (List.range m).map fun t => r.data.read ((r.head + t) % cap)

/-- rb_pop (46_output_stager R244). -/
def rbPop (cap : Nat) (r : Ring) (n : Nat) : Ring × List Byte :=
  let m := min n r.count
  ({ r with head := (r.head + m) % cap, count := r.count - m }, rbPeek cap r m)

/-- rb_fill (46_output_stager R245). -/
def rbFill (cap : Nat) (r : Ring) : Nat := r.count * 100 / cap

/-- The sample of USB_TAP (46_output_stager R240). -/
def usbSample (u : Usb) (x : Int) : Int := if u.blkMute then 0 else asr (x * u.blkVol) 8

/-- USB_TAP (46_output_stager R240, 20_memory R75): low byte first. -/
def usbTap (cap : Nat) (u : Usb) (r : Ring) (x : Int) : Ring :=
  let w := BitVec.ofInt 16 (usbSample u x)
  rbPush cap (rbPush cap r (w.extractLsb' 0 8)) (w.extractLsb' 8 8)

end Sys2Proof.Machine
end

