-- ==== Sys2Proof/Machine/SpectrumUnit.lean ====
section
/-! DEFINITION. The spectrum accumulator and the producer's side of the capture lock (47_spectrum R255 to R263). -/

namespace Sys2Proof.Machine

/-- SPEC_TRY_ACQUIRE (47_spectrum R256): never waits. -/
def specTryAcquire (u : Spectrum) : Spectrum :=
  if u.lock = .free then { u with lock := .producer, blkCapture := true } else { u with blkCapture := false }

/-- One accumulator entry blended with a magnitude (47_spectrum R258). -/
def specBlend (shift : Nat) (acc mag : Int) : Int := acc + asr (shl mag 16 - acc) shift

/-- The captured bin shown at display entry j: bins 128..255, then 0..127 (47_spectrum R258). -/
def displayBin (j : Nat) : Nat := (j + 128) % 256

/-- SPEC_ACCUMULATE and the producer's release (47_spectrum R258). -/
def specAccumulate (shift : Nat) (cap : Vector IQ 256) (u : Spectrum) : Spectrum :=
  { acc := Vector.ofFn fun j =>
      let b := cap[displayBin j.val]'(Nat.mod_lt _ (by decide))
      specBlend shift u.acc[j] (cordicMag b.re b.im)
    lock := .free
    blkCapture := false }

/-- SPEC_DOWNSAMPLE's output word k (47_spectrum R259, 48_commands R297). -/
def specWord (acc : Vector Int 256) (k : Nat) : Word :=
  f32OfNat (acc.toList.getD (2 * k) 0 + acc.toList.getD (2 * k + 1) 0).toNat 16

/-- The 128 words of SPEC_READ (30_encoding R94, 47_spectrum R259). -/
def specWords (acc : Vector Int 256) : List Word := (List.range 128).map (specWord acc)

end Sys2Proof.Machine
end

