-- ==== Sys2Proof/Machine/Block.lean ====
section
/-! DEFINITION. PROCESS_BLOCK (48_commands R265 to R271): its BEGIN, SAMPLE and END steps and the hold of a second
producer. -/

namespace Sys2Proof.Machine

/-- The values latched at BEGIN from the active registers (10_state R54). -/
def latch (cfg : Config) (act : Controls) : Latched where
  binShift := tdiv ((fftN : Int) * act.shift) cfg.fsCic
  cwInc := act.sidetone * 2048 / cfg.fsDemod
  sqThresh := sqThreshold act.squelch act.gainCal

/-- The registers after the BEGIN step (48_commands R267). -/
def beginRegs (cfg : Config) (r : Regs) : Regs :=
  { r with
    act := r.pend
    demod := if r.pend.mode ≠ r.act.mode then modeChangeZero r.pend.mode r.demod else r.demod
    latched := latch cfg r.pend
    usb := { r.usb with blkMute := r.usb.mute, blkVol := r.usb.vol }
    spec := specTryAcquire r.spec
    cond := { r.cond with sqOpen := decide (((latch cfg r.pend).sqThresh : Int) < r.pub.sigEst) }
    pub := { r.pub with magSum := 0, magCnt := 0 }
    stager := { r.stager with outIdx := 0 }
    seq := .sample 0 }

/-- The BEGIN step (48_commands R267). -/
def beginStep (s : State) : State := { s with regs := beginRegs s.cfg s.regs }

/-- The gated audio sample of one channel-filter output pair, with the registers it updates: SIG_ACCUM, DEMOD, DEEMPH,
AGC, SQ_GATE (48_commands R268). -/
def audioSample (cfg : Config) (r : Regs) (x : IQ) : Regs × Int :=
  let d := demodulate cfg r.act.mode r.latched.cwInc r.demod x
  let e := deemphasis cfg r.act.deemph r.cond d.2
  let a := agc cfg (cfg.agcRow r.act.mode r.act.agc) e.1 e.2
  ({ r with pub := sigAccum r.pub x, demod := d.1, cond := a.1 }, sqGate a.1 a.2)

/-- Everything that happens to one channel-filter output pair (48_commands R268): the audio sample, USB_TAP, VOLUME,
INTERPOLATE. -/
def outputPair (s : State) (x : IQ) : State :=
  let a := audioSample s.cfg s.regs x
  let s' := { s with regs := { a.1 with ring := usbTap s.cfg.rbCap a.1.usb a.1.ring a.2 } }
  interpolate s' (volumeScale s.cfg a.1.act.volume a.2)

/-- seq <- SAMPLE(j+1), or END after the last (48_commands R268). -/
def nextSeq (cfg : Config) (j : Nat) : Seq := if j + 1 < cfg.pairs then .sample (j + 1) else .ending

/-- The front end and the CIC of SAMPLE(j) on the two raw words (48_commands R268): the registers and the CIC's output
on a ready call. -/
def sampleInput (cfg : Config) (r : Regs) (w0 w1 : BitVec 16) : Regs × Option IQ :=
  let f := frontend cfg r.act r.dc r.iq w0 w1
  let c := cicDecimate cfg r.cic f.2.2
  ({ r with dc := f.1, iq := f.2.1, cic := c.1 }, c.2)

/-- A ready CIC output enters the filter input buffer (48_commands R268): the registers, and whether the buffer is now
full, its counter then back at 0. -/
def fillInput (r : Regs) (x : IQ) : Regs × Bool :=
  let b := r.fin.buf.setIfInBounds r.fin.cnt x
  if r.fin.cnt + 1 = fftH then ({ r with fin := ⟨b, 0⟩ }, true) else ({ r with fin := ⟨b, r.fin.cnt + 1⟩ }, false)

/-- The filter call and its OUT_E outputs (48_commands R268). -/
def filterCall (s : State) : State :=
  let f := chanFilt s.cfg s.regs.act s.regs.latched.binShift s.regs.spec.blkCapture s.regs.filt s.regs.fin.buf
  f.2.foldl outputPair { s with regs := { s.regs with filt := f.1 } }

/-- The outputs of a filter call fit into AUDIO_OUT from out_idx on (20_memory R72). -/
def audioFits (s : State) : Bool := decide (s.regs.stager.outIdx + outE * s.cfg.interpL ≤ s.cfg.expanded)

/-- SAMPLE(j) on the raw words it read (48_commands R268). An output that AUDIO_OUT has no entry for faults (log 6). -/
def sampleWords (s : State) (j : Nat) (w0 w1 : BitVec 16) : Host.Outcome State Fault Refusal :=
  let a := sampleInput s.cfg s.regs w0 w1
  match a.2 with
  | none => .next { s with regs := { a.1 with seq := nextSeq s.cfg j } }
  | some x =>
    let b := fillInput a.1 x
    let s' : State := { s with regs := { b.1 with seq := nextSeq s.cfg j } }
    if b.2 then (if audioFits s' then .next (filterCall s') else .fault (.audioIndex s.cfg.expanded)) else .next s'

/-- The SAMPLE(j) step (48_commands R268). -/
def sampleStep (s : State) (j : Nat) : Host.Outcome State Fault Refusal :=
  match s.readRaw (2 * j), s.readRaw (2 * j + 1) with
  | .ok w0, .ok w1 => sampleWords s j w0 w1
  | .error f, _ => .fault f
  | _, .error f => .fault f

/-- The registers after the END step (48_commands R269). -/
def endRegs (cfg : Config) (r : Regs) : Regs :=
  { r with
    pub := sigPublish r.pub r.act.gainCal r.cond.sqOpen
    spec := if r.spec.blkCapture then specAccumulate cfg.specAlphaShift r.filt.cap r.spec else r.spec
    seq := .idle }

/-- The END step (48_commands R269). -/
def endStep (s : State) : State := { s with regs := endRegs s.cfg s.regs }

/-- One atomic step of PROCESS_BLOCK (48_commands R266). From IDLE it starts the block: seq and seq_port are set and
BEGIN runs, in one step, so that no step leaves seq at BEGIN (log 12). While its own block is in progress it takes the block's next step, and completes with END.
While another port's block is in progress it holds: nothing changes. -/
def execProcessBlock (s : State) : Host.Outcome State Fault Refusal :=
  match s.regs.seq with
  | .idle => .next (beginStep { s with regs := { s.regs with seq := .begun, seqPort := s.cur } })
  | .begun => if s.regs.seqPort = s.cur then .next (beginStep s) else .next s
  | .sample j => if s.regs.seqPort = s.cur then sampleStep s j else .next s
  | .ending => if s.regs.seqPort = s.cur then .next ((endStep s).respond []) else .next s

end Sys2Proof.Machine
end

