-- ==== Sys2Proof/Machine/Getters.lean ====
section
/-! DEFINITION. The getters (48_commands R290 to R292): no effect on the core's state (20_memory R80). -/

namespace Sys2Proof.Machine

/-- GET_SIGNAL_DBM (48_commands R290). -/
def execGetSignalDbm (s : State) : Host.Outcome State Fault Refusal := .next (s.respond [s.regs.pub.sigDbm])

/-- GET_SQUELCH (48_commands R291): 1 open, 0 closed. -/
def execGetSquelch (s : State) : Host.Outcome State Fault Refusal :=
  .next (s.respond [if s.regs.pub.sqOpen then 1 else 0])

/-- GET_USB_FILL (48_commands R292, 46_output_stager R245). -/
def execGetUsbFill (s : State) : Host.Outcome State Fault Refusal :=
  .next (s.respond [BitVec.ofNat 32 (rbFill s.cfg.rbCap s.regs.ring)])

end Sys2Proof.Machine
end

