-- ==== Sys2Proof/Machine/Setters.lean ====
section
/-! DEFINITION. The twelve setters (48_commands R272 to R286): each writes one pending control register. -/

namespace Sys2Proof.Machine

/-- SET_MODE (48_commands R275): a mode of 6 to 15 raises RESERVED, here as
in decoding (log 9); bw is clamped to NUM_BW - 1. -/
def execSetMode (mode bw : BitVec 4) (s : State) : Host.Outcome State Fault Refusal :=
  match modeOf mode with
  | none => .next (s.raiseErr .reserved)
  | some m =>
    let b := clampNat (zext bw) (s.cfg.numBw - 1)
    .next (s.setPend { s.regs.pend with mode := m, bw := b.1 } b.2)

/-- SET_SHIFT (48_commands R276). -/
def execSetShift (v : BitVec 24) (s : State) : Host.Outcome State Fault Refusal :=
  let h := clampInt (sext24 v) (-((s.cfg.fsCic / 2 : Nat) : Int)) ((s.cfg.fsCic / 2 : Nat) : Int)
  .next (s.setPend { s.regs.pend with shift := h.1 } h.2)

/-- SET_SWAP_IQ (48_commands R277). -/
def execSetSwapIq (b : Bool) (s : State) : Host.Outcome State Fault Refusal :=
  .next (s.setPend { s.regs.pend with swap := b } false)

/-- SET_IQ_CORR (48_commands R278). -/
def execSetIqCorr (b : Bool) (s : State) : Host.Outcome State Fault Refusal :=
  .next (s.setPend { s.regs.pend with iqCorr := b } false)

/-- SET_DEEMPH (48_commands R279). -/
def execSetDeemph (u : BitVec 8) (s : State) : Host.Outcome State Fault Refusal :=
  let n := clampNat (zext u) 2
  .next (s.setPend { s.regs.pend with deemph := n.1 } n.2)

/-- SET_AGC_SPEED (48_commands R280). -/
def execSetAgcSpeed (u : BitVec 8) (s : State) : Host.Outcome State Fault Refusal :=
  let n := clampNat (zext u) 3
  .next (s.setPend { s.regs.pend with agc := n.1 } n.2)

/-- SET_AUTONOTCH (48_commands R281). -/
def execSetAutonotch (b : Bool) (s : State) : Host.Outcome State Fault Refusal :=
  .next (s.setPend { s.regs.pend with notch := b } false)

/-- SET_SIDETONE (48_commands R282). -/
def execSetSidetone (u : BitVec 24) (s : State) : Host.Outcome State Fault Refusal :=
  let n := clampNat (zext u) (s.cfg.fsDemod / 2)
  .next (s.setPend { s.regs.pend with sidetone := n.1 } n.2)

/-- SET_VOLUME (48_commands R283). -/
def execSetVolume (u : BitVec 8) (s : State) : Host.Outcome State Fault Refusal :=
  let n := clampNat (zext u) 9
  .next (s.setPend { s.regs.pend with volume := n.1 } n.2)

/-- SET_SQUELCH (48_commands R284). -/
def execSetSquelch (u : BitVec 8) (s : State) : Host.Outcome State Fault Refusal :=
  let n := clampNat (zext u) 12
  .next (s.setPend { s.regs.pend with squelch := n.1 } n.2)

/-- SET_GAIN_CAL (48_commands R285). -/
def execSetGainCal (v : BitVec 24) (s : State) : Host.Outcome State Fault Refusal :=
  let g := clampInt (sext24 v) (-255) 255
  .next (s.setPend { s.regs.pend with gainCal := g.1 } g.2)

/-- SET_PWM_SCALE (48_commands R286): every U24 value is legal. -/
def execSetPwmScale (u : BitVec 24) (s : State) : Host.Outcome State Fault Refusal :=
  .next (s.setPend { s.regs.pend with pwm := zext u } false)

end Sys2Proof.Machine
end

