-- ==== Sys2Proof/Machine/SpectrumCommands.lean ====
section
/-! DEFINITION. The spectrum consumer's commands (48_commands R296 to R299). -/

namespace Sys2Proof.Machine

/-- The capture lock takes a new value. -/
def State.setLock (s : State) (l : Lock) : State :=
  { s with regs := { s.regs with spec := { s.regs.spec with lock := l } } }

/-- SPEC_ACQUIRE (48_commands R296): held by this port already, LOCK_MISUSE; held by another, the command holds (nothing
changes); free, taken. -/
def execSpecAcquire (s : State) : Host.Outcome State Fault Refusal :=
  if s.regs.spec.lock = .consumer s.cur then .next (s.raiseErr .lockMisuse)
  else if s.regs.spec.lock = .free then .next ((s.setLock (.consumer s.cur)).respond [])
  else .next s

/-- SPEC_READ (48_commands R297). -/
def execSpecRead (s : State) : Host.Outcome State Fault Refusal :=
  if s.regs.spec.lock = .consumer s.cur then .next (s.respond (specWords s.regs.spec.acc))
  else .next (s.raiseErr .lockMisuse)

/-- SPEC_RELEASE (48_commands R298). -/
def execSpecRelease (s : State) : Host.Outcome State Fault Refusal :=
  if s.regs.spec.lock = .consumer s.cur then .next ((s.setLock .free).respond [])
  else .next (s.raiseErr .lockMisuse)

end Sys2Proof.Machine
end

