-- ==== Sys2Proof/Machine/System.lean ====
section
/-! DEFINITION. RESET, GET_STATUS and CLR_STATUS (70_reset_and_hazards R330, R331; 48_commands R300 to R302). -/

namespace Sys2Proof.Machine

/-- The block in progress ends with RESET: its PROCESS_BLOCK completes without further steps
(70_reset_and_hazards R331), with no response words (log 13). -/
def State.abortBlock (s : State) : State :=
  if s.regs.seq ≠ .idle ∧ s.regs.seqPort ≠ s.cur then s.finishPort s.regs.seqPort [] else s

/-- RESET (70_reset_and_hazards R330): every element of 10_state takes its reset value; RAW, AUDIO_OUT and the
parameters stay, and commands of other ports that have not started are not affected (R331). -/
def execReset (s : State) : Host.Outcome State Fault Refusal :=
  .next ({ s.abortBlock with regs := Regs.reset }.respond [])

/-- GET_STATUS (48_commands R300). -/
def execGetStatus (s : State) : Host.Outcome State Fault Refusal := .next (s.respond [statusWord s.regs])

/-- CLR_STATUS (48_commands R301). -/
def execClrStatus (s : State) : Host.Outcome State Fault Refusal :=
  .next ({ s with regs := { s.regs with status := 0 } }.respond [])

end Sys2Proof.Machine
end

