-- ==== Sys2Proof/Machine/UsbCommands.lean ====
section
/-! DEFINITION. The USB agent's commands (48_commands R293 to R295). -/

namespace Sys2Proof.Machine

/-- USB_SET_MUTE (48_commands R293): not latched through pend. -/
def execUsbSetMute (b : Bool) (s : State) : Host.Outcome State Fault Refusal :=
  .next ({ s with regs := { s.regs with usb := { s.regs.usb with mute := b } } }.respond [])

/-- USB_SET_VOLUME (48_commands R294): clamped to 256. -/
def execUsbSetVolume (u : BitVec 24) (s : State) : Host.Outcome State Fault Refusal :=
  let n := clampNat (zext u) 256
  .next (({ s with regs := { s.regs with usb := { s.regs.usb with vol := n.1 } } }.recordIf n.2 .clamped).respond [])

/-- USB_POP (48_commands R295): the bytes leave the ring buffer and are returned packed, after their number. -/
def execUsbPop (u : BitVec 24) (s : State) : Host.Outcome State Fault Refusal :=
  let p := rbPop s.cfg.rbCap s.regs.ring (zext u)
  .next ({ s with regs := { s.regs with ring := p.1 } }.respond (BitVec.ofNat 32 p.2.length :: packBytes p.2))

end Sys2Proof.Machine
end

