-- ==== Sys2Proof/Machine/Dispatch.lean ====
section
/-! DEFINITION. One arm per command, each one call of its meaning (48_commands; the issuing port is `s.cur`). -/

namespace Sys2Proof.Machine

def exec (i : Instr) (s : State) : Host.Outcome State Fault Refusal :=
  match i with
  | .reset => Sys2Proof.Machine.execReset s
  | .processBlock => Sys2Proof.Machine.execProcessBlock s
  | .getStatus => Sys2Proof.Machine.execGetStatus s
  | .clrStatus => Sys2Proof.Machine.execClrStatus s
  | .setMode mode bw => Sys2Proof.Machine.execSetMode mode bw s
  | .setShift v => Sys2Proof.Machine.execSetShift v s
  | .setSwapIq b => Sys2Proof.Machine.execSetSwapIq b s
  | .setIqCorr b => Sys2Proof.Machine.execSetIqCorr b s
  | .setDeemph u => Sys2Proof.Machine.execSetDeemph u s
  | .setAgcSpeed u => Sys2Proof.Machine.execSetAgcSpeed u s
  | .setAutonotch b => Sys2Proof.Machine.execSetAutonotch b s
  | .setSidetone u => Sys2Proof.Machine.execSetSidetone u s
  | .setVolume u => Sys2Proof.Machine.execSetVolume u s
  | .setSquelch u => Sys2Proof.Machine.execSetSquelch u s
  | .setGainCal v => Sys2Proof.Machine.execSetGainCal v s
  | .setPwmScale u => Sys2Proof.Machine.execSetPwmScale u s
  | .getSignalDbm => Sys2Proof.Machine.execGetSignalDbm s
  | .getSquelch => Sys2Proof.Machine.execGetSquelch s
  | .getUsbFill => Sys2Proof.Machine.execGetUsbFill s
  | .usbSetMute b => Sys2Proof.Machine.execUsbSetMute b s
  | .usbSetVolume u => Sys2Proof.Machine.execUsbSetVolume u s
  | .usbPop u => Sys2Proof.Machine.execUsbPop u s
  | .specAcquire => Sys2Proof.Machine.execSpecAcquire s
  | .specRead => Sys2Proof.Machine.execSpecRead s
  | .specRelease => Sys2Proof.Machine.execSpecRelease s

end Sys2Proof.Machine
end

