-- ==== Sys2Proof/Machine/Step.lean ====
section
/-! DEFINITION. One step of the machine: one atomic step of one agent (20_memory R79, R82; 48_commands R265). -/

namespace Sys2Proof.Machine

/-- One step. An inadmissible parameter instance is refused (00_scope R7). If no agent has anything to do, nothing
changes (60_exceptions R325). Otherwise the next agent of the schedule moves: the acquisition source writes RAW; a port
runs its command word, which is decoded and executed, or raises ILLEGAL or RESERVED (30_encoding R96, R97); an agent
with nothing to do, or one that must hold, changes nothing but the schedule. -/
def step (s : State) : Host.Outcome State Fault Refusal :=
  if ¬ s.cfg.Admissible then .refused .inadmissibleConfig
  else if s.quiet then .next s
  else
    match s.nextAgent with
    | .acquisition => acquire s.tick
    | .port p =>
      match s.fetch p with
      | none => .next s.tick
      | some w =>
        match decode w with
        | .ok i => exec i { s.tick with cur := p }
        | .error e => .next ({ s.tick with cur := p }.raiseErr (decodeErr e))

/-- s with the word w (bits from nbits up 0) issued on the control host's port, ahead of anything else there, and that
port's step next (log 8): every command is accepted on every port (30_encoding R90). -/
def State.withFetchWord (s : State) (nbits w : Nat) : State :=
  { s.issue .host (BitVec.ofNat 32 (w % 2 ^ nbits)) with sched := .port .host :: s.sched }

end Sys2Proof.Machine
end

