-- ==== Sys2Proof/Safety.lean ====
section
/-! DEFINITION. What claims about a run speak of: the ranges 10_state gives its registers, the legal values of the
control registers, the canonical form of the storages, the sequencer's bookkeeping within a block, the capture lock's
states, a silent receiver, and what a completed command leaves alone. -/

namespace Sys2Proof.Machine

/-- int16 (00_scope R9). -/
abbrev Int16 (v : Int) : Prop := -32768 ≤ v ∧ v ≤ 32767

/-- int32 (00_scope R9). -/
abbrev Int32Range (v : Int) : Prop := -2147483648 ≤ v ∧ v ≤ 2147483647

/-- Both components in int16 (00_scope R19). -/
abbrev IQ.Int16 (x : IQ) : Prop := Machine.Int16 x.re ∧ Machine.Int16 x.im

/-- Every pair of a list is an int16 pair. -/
abbrev AllInt16 (l : List IQ) : Prop := ∀ x ∈ l, IQ.Int16 x

/-- The legal values of the control registers (10_state R40). -/
structure Controls.Legal (cfg : Config) (c : Controls) : Prop where
  bw : c.bw < cfg.numBw
  shiftLo : -((cfg.fsCic / 2 : Nat) : Int) ≤ c.shift
  shiftHi : c.shift ≤ ((cfg.fsCic / 2 : Nat) : Int)
  deemph : c.deemph ≤ 2
  agc : c.agc ≤ 3
  sidetone : c.sidetone ≤ cfg.fsDemod / 2
  volume : c.volume ≤ 9
  squelch : c.squelch ≤ 12
  gainLo : -255 ≤ c.gainCal
  gainHi : c.gainCal ≤ 255
  pwm : c.pwm < 16777216

/-- Both copies legal. -/
abbrev State.ControlsLegal (s : State) : Prop := s.regs.pend.Legal s.cfg ∧ s.regs.act.Legal s.cfg

/-- Every indexed storage is in canonical form. -/
abbrev State.MemoriesCanonical (s : State) : Prop := s.raw.wf ∧ s.audioOut.wf ∧ s.regs.ring.data.wf

/-- Every listed index exists (20_memory R71, R72, R74), and so does every index the acquisition source will write. -/
structure State.IndicesExist (s : State) : Prop where
  raw : ∀ c ∈ s.raw, c.1 < s.cfg.blockSize
  audio : ∀ c ∈ s.audioOut, c.1 < s.cfg.expanded
  ring : ∀ c ∈ s.regs.ring.data, c.1 < s.cfg.rbCap
  acq : ∀ c ∈ s.acq, c.1 < s.cfg.blockSize

/-- The ring buffer's indices (10_state R57). -/
abbrev Ring.Ok (cap : Nat) (r : Ring) : Prop := r.head < cap ∧ r.count ≤ cap

/-- The bytes a ring buffer holds, oldest first (46_output_stager R244, R246). -/
def Ring.contents (cap : Nat) (r : Ring) : List Byte :=
  (List.range r.count).map fun k => r.data.read ((r.head + k) % cap)

/-- The counters of a block in progress, by the sequencer's state (48_commands R268, R271; 10_state R36, R56): how many
pairs the CIC and the filter input hold, how many samples were demodulated and how many AUDIO_OUT entries written. No
step leaves seq at BEGIN. -/
def Regs.SeqOk (cfg : Config) (r : Regs) : Prop :=
  match r.seq with
  | .idle => r.cic.cnt = 0 ∧ r.fin.cnt = 0
  | .begun => False
  | .sample j =>
    j < cfg.pairs ∧ r.cic.cnt = j % cfg.cicR ∧ r.fin.cnt = j / cfg.cicR % fftH ∧
      r.pub.magCnt = j / (cfg.cicR * fftH) * outE ∧ r.stager.outIdx = j / (cfg.cicR * fftH) * outE * cfg.interpL
  | .ending => r.cic.cnt = 0 ∧ r.fin.cnt = 0 ∧ r.pub.magCnt = cfg.samples ∧ r.stager.outIdx = cfg.expanded

/-- The capture lock's states (47_spectrum R256, R260): the producer holds it exactly while the block captures, and only
while a block is in progress. -/
abbrev Regs.LockOk (r : Regs) : Prop :=
  (r.spec.lock = .producer ↔ r.spec.blkCapture = true) ∧ (r.spec.lock = .producer → r.seq ≠ .idle)

/-- STATUS[7:0] as errors can leave it (60_exceptions R310, R312): FIRST_ERR is 0 exactly when no sticky bit is set, it
is at most 4, and the sticky bit it names is set. -/
abbrev statusOk (st : BitVec 8) : Prop :=
  (firstErr st).toNat ≤ 4 ∧ (firstErr st = 0 ↔ st.extractLsb' 0 4 = 0) ∧
    (firstErr st ≠ 0 → st.getLsbD ((firstErr st).toNat - 1) = true)

/-- Ranges of one CIC channel (10_state R33). -/
structure CicChannel.InRange (c : CicChannel) : Prop where
  integ0 : Int32Range c.integ0
  integ1 : Int32Range c.integ1
  integ2 : Int32Range c.integ2
  integ3 : Int32Range c.integ3
  delay0 : Int32Range c.delay0
  delay1 : Int32Range c.delay1
  delay2 : Int32Range c.delay2
  delay3 : Int32Range c.delay3

/-- Ranges of the input units: CIC, DC removal, IQ corrector, filter input (10_state R33 to R36). -/
structure Regs.InputInRange (cfg : Config) (r : Regs) : Prop where
  chI : r.cic.chI.InRange
  chQ : r.cic.chQ.InRange
  cicCnt : r.cic.cnt < cfg.cicR
  dcI : 0 ≤ r.dc.accI ∧ r.dc.accI ≤ ((2 ^ (cfg.adcW + cfg.dcShift) : Nat) : Int)
  dcQ : 0 ≤ r.dc.accQ ∧ r.dc.accQ ≤ ((2 ^ (cfg.adcW + cfg.dcShift) : Nat) : Int)
  iqN : r.iq.n < iqWin
  iqAcc1 : absI r.iq.acc1 ≤ (r.iq.n : Int) * 32768
  iqAcc2 : absI r.iq.acc2 ≤ (r.iq.n : Int) * 32768
  iqAcc3 : absI r.iq.acc3 ≤ (r.iq.n : Int) * 32768
  iqF1 : absI r.iq.f1 < 1073741824
  iqF2 : absI r.iq.f2 < 1073741824
  iqF3 : absI r.iq.f3 < 1073741824
  iqC1 : Int32Range r.iq.c1
  iqC2 : Int32Range r.iq.c2
  finBuf : AllInt16 r.fin.buf.toList
  finCnt : r.fin.cnt < fftH

/-- Ranges of the channel filter (10_state R37). -/
structure Filter.InRange (f : Filter) : Prop where
  last : AllInt16 f.last.toList
  ola : AllInt16 f.ola.toList
  cap : AllInt16 f.cap.toList
  peakBin : f.peakBin ≤ 127
  peakPow : 0 ≤ f.peakPow ∧ f.peakPow ≤ 2147483648
  secondPow : 0 ≤ f.secondPow ∧ f.secondPow ≤ 2147483648
  lastPeakBin : f.lastPeakBin ≤ 127
  confirm : f.confirm ≤ confirmMax

/-- Ranges of the audio side: demodulators, conditioner, USB registers, stager, ring buffer (10_state R38, R39, R54 to
R57). -/
structure Regs.AudioInRange (cfg : Config) (r : Regs) : Prop where
  pllPhase : 0 ≤ r.demod.pllPhase ∧ r.demod.pllPhase < shl 2048 cfg.pllFrac
  pllFreq : -(cfg.pllFmax : Int) ≤ r.demod.pllFreq ∧ r.demod.pllFreq ≤ cfg.pllFmax
  fmLast : -1024 ≤ r.demod.fmLast ∧ r.demod.fmLast ≤ 1023
  cwPhase : 0 ≤ r.demod.cwPhase ∧ r.demod.cwPhase ≤ 2047
  deX : Int16 r.cond.deX
  deY : Int16 r.cond.deY
  agcHold : 0 ≤ r.cond.agcHold ∧ r.cond.agcHold ≤ shl 32768 cfg.agcFrac
  agcHang : r.cond.agcHang ≤ cfg.maxHang
  cwInc : r.latched.cwInc ≤ 1024
  usbVol : r.usb.vol ≤ 256
  blkVol : r.usb.blkVol ≤ 256
  interpPrev : Int16 r.stager.interpPrev
  outIdx : r.stager.outIdx ≤ cfg.expanded
  ring : r.ring.Ok cfg.rbCap

/-- The largest CORDIC magnitude of an int16 pair (43_cordic_sine R179). -/
abbrev magMax : Int := 46341

/-- Ranges of what CORDIC magnitudes are summed and blended into: the spectrum accumulator (10_state R58), the estimate
and the sum it is the average of (R59). -/
structure Regs.LevelsInRange (r : Regs) : Prop where
  acc : ∀ x ∈ r.spec.acc.toList, 0 ≤ x ∧ x ≤ magMax * 65536
  sigEst : 0 ≤ r.pub.sigEst ∧ r.pub.sigEst ≤ magMax
  magSum : 0 ≤ r.pub.magSum ∧ r.pub.magSum ≤ magMax * r.pub.magCnt

/-- Every datapath register within the range 10_state gives it. -/
structure State.InRange (s : State) : Prop where
  input : s.regs.InputInRange s.cfg
  filter : s.regs.filt.InRange
  audio : s.regs.AudioInRange s.cfg
  levels : s.regs.LevelsInRange

/-- The gated audio samples of a list of channel-filter outputs, in order, from the registers r on (48_commands R268). -/
def gatedSamples (cfg : Config) : Regs → List IQ → List Int
  | _, [] => []
  | r, x :: xs => (audioSample cfg r x).2 :: gatedSamples cfg (audioSample cfg r x).1 xs

/-- The gated audio samples of the filter call that SAMPLE(j) runs once its pair has entered the filter input; none where
the CIC is not ready (48_commands R268). -/
def State.callSamples (s : State) (j : Nat) : List Int :=
  let a := sampleInput s.cfg s.regs (s.raw.read (2 * j)) (s.raw.read (2 * j + 1))
  match a.2 with
  | none => []
  | some x =>
    let r := (fillInput a.1 x).1
    let f := chanFilt s.cfg r.act r.latched.binShift r.spec.blkCapture r.filt r.fin.buf
    gatedSamples s.cfg { r with filt := f.1 } f.2

/-- The two bytes USB_TAP pushes for a gated sample, low byte first (46_output_stager R240). -/
def usbBytes (u : Usb) (x : Int) : List Byte :=
  let w := BitVec.ofInt 16 (if u.blkMute then 0 else x * u.blkVol / 256)
  [w.extractLsb' 0 8, w.extractLsb' 8 8]

/-- A receiver that has seen nothing but zero samples (45_conditioner R223): every datapath register the signal runs
through is 0, and the squelch is closed. -/
structure Regs.Silent (r : Regs) : Prop where
  dc : r.dc = ⟨0, 0⟩
  chI : r.cic.chI = CicChannel.reset
  chQ : r.cic.chQ = CicChannel.reset
  iqAcc : r.iq.acc1 = 0 ∧ r.iq.acc2 = 0 ∧ r.iq.acc3 = 0
  iqF : r.iq.f1 = 0 ∧ r.iq.f2 = 0 ∧ r.iq.f3 = 0
  iqC : r.iq.c1 = 0 ∧ r.iq.c2 = 32768
  fin : r.fin.buf = Vector.replicate 128 IQ.zero
  last : r.filt.last = Vector.replicate 128 IQ.zero
  ola : r.filt.ola = Vector.replicate 64 IQ.zero
  sqOpen : r.cond.sqOpen = false
  interpPrev : r.stager.interpPrev = 0
  sigEst : r.pub.sigEst = 0
  sigDbm : r.pub.sigDbm = f32NegInf
  pubSqOpen : r.pub.sqOpen = false
  magSum : r.pub.magSum = 0

/-- What a command that completes with response words ws leaves alone: everything but the core's registers and the
issuing port, on which the command is done and its response delivered (48_commands R265; storages through the read of
one entry). -/
structure Completes (s t : State) (ws : List Word) : Prop where
  cfg : t.cfg = s.cfg
  raw : ∀ k, t.raw.read k = s.raw.read k
  audio : ∀ k, t.audioOut.read k = s.audioOut.read k
  cur : t.cur = s.cur
  sched : t.sched = s.sched
  turn : t.turn = s.turn
  acq : t.acq = s.acq
  cmds : (t.ports.get s.cur).cmds = (s.ports.get s.cur).cmds.tail
  replies : (t.ports.get s.cur).replies = (s.ports.get s.cur).replies ++ [ws]
  others : ∀ p, p ≠ s.cur → t.ports.get p = s.ports.get p

/-- What a hold of PROCESS_BLOCK or SPEC_ACQUIRE, a BEGIN and a SAMPLE step leave alone besides: all of the model's own
host interface. -/
structure SameHost (s t : State) : Prop where
  cfg : t.cfg = s.cfg
  raw : ∀ k, t.raw.read k = s.raw.read k
  ports : t.ports = s.ports
  cur : t.cur = s.cur
  sched : t.sched = s.sched
  turn : t.turn = s.turn
  acq : t.acq = s.acq

/-- Byte n of the data words of a POP response: bits [8(n mod 4)+7 : 8(n mod 4)] of word n // 4 (30_encoding R94). -/
def dataByte (ws : List Word) (n : Nat) : Byte := (ws.getD (n / 4) 0).extractLsb' (8 * (n % 4)) 8

/-- The ops of the opcode map, each with the reserved-zero bits of its format (30_encoding R92, R95). -/
def opcodeRows : List (Nat × Word) :=
  [(0x01, 0x00FFFFFF), (0x02, 0x00FFFFFF), (0x03, 0x00FFFFFF), (0x04, 0x00FFFFFF), (0x10, 0x00FFFF00), (0x11, 0),
    (0x12, 0x00FFFFFE), (0x13, 0x00FFFFFE), (0x14, 0x00FFFF00), (0x15, 0x00FFFF00), (0x16, 0x00FFFFFE), (0x17, 0),
    (0x18, 0x00FFFF00), (0x19, 0x00FFFF00), (0x1A, 0), (0x1B, 0)] ++
  [(0x20, 0x00FFFFFF), (0x21, 0x00FFFFFF), (0x22, 0x00FFFFFF), (0x30, 0x00FFFFFE), (0x31, 0), (0x32, 0),
    (0x40, 0x00FFFFFF), (0x41, 0x00FFFFFF), (0x42, 0x00FFFFFF)]

/-- The reserved-zero bits of a listed op, none for an op that is not listed. -/
def reservedZero (op : Nat) : Option Word := opcodeRows.lookup op

/-- It is port p's turn and its word decodes to i. -/
def State.Runs (s : State) (p : Port) (i : Instr) : Prop :=
  s.nextAgent = .port p ∧ ∃ w, s.fetch p = some w ∧ decode w = .ok i

/-- n steps of the machine, ending at the first that gives no next state. -/
def runSteps : Nat → State → Host.Outcome State Fault Refusal
  | 0, s => .next s
  | n + 1, s =>
    match step s with
    | .next t => runSteps n t
    | .fault f => .fault f
    | .refused r => .refused r

/-- A list of pairs through the CIC: the state after it and the last call's output (40_cic R112). -/
def cicRun (cfg : Config) (u : Cic) (xs : List IQ) : Cic × Option IQ :=
  xs.foldl (fun a x => cicDecimate cfg a.1 x) (u, none)

/-- The CIC after reset (10_state R33). -/
def Cic.reset : Cic := ⟨CicChannel.reset, CicChannel.reset, 0⟩

/-- An error-accumulator line stepper with integer increment q and remainder r over L (46_output_stager R237): n points
from y on, with error e. -/
def bresenham (L q r : Int) : Nat → Int → Int → List Int
  | 0, _, _ => []
  | n + 1, y, e =>
    y :: (if L ≤ e + r then bresenham L q r n (y + q + 1) (e + r - L) else bresenham L q r n (y + q) (e + r))

/-- SQ_DBM[k] (00_scope R6). -/
def squelchDbm (k : Nat) : Int := if k ≤ 9 then -127 + 6 * (k : Int) else if k = 10 then -63 else if k = 11 then -53 else -43

/-- What the capture lock guards: the spectrum unit and the capture buffer replaced. -/
def State.withCapture (s : State) (sp : Spectrum) (cap : Vector IQ 256) : State :=
  { s with regs := { s.regs with spec := sp, filt := { s.regs.filt with cap := cap } } }

/-- The rational value of a finite binary32 pattern (00_scope R18). -/
def f32Value (w : Word) : ℚ :=
  let e := (w.toNat / 8388608) % 256
  let f := w.toNat % 8388608
  let m : ℚ := if e = 0 then (f : ℚ) / 2 ^ 149 else ((8388608 + f : Nat) : ℚ) * 2 ^ e / 2 ^ 150
  if w.toNat < 2147483648 then m else -m

/-- A pattern that is a number: neither an infinity nor a NaN. -/
abbrev F32Finite (w : Word) : Prop := (w.toNat / 8388608) % 256 ≠ 255

/-- w is the binary32 pattern nearest the real r, ties to even (00_scope R18). -/
def NearestF32 (w : Word) (r : ℝ) : Prop :=
  F32Finite w ∧ (r = 0 → w = 0) ∧
    ∀ v : Word, F32Finite v →
      |(f32Value w : ℝ) - r| ≤ |(f32Value v : ℝ) - r| ∧
        (|(f32Value v : ℝ) - r| = |(f32Value w : ℝ) - r| → f32Value v ≠ f32Value w → w.toNat % 2 = 0)

end Sys2Proof.Machine
end

