-- ==== Sys2Proof/Certificates/Slice0/Obligations.lean ====
section
/-! DEFINITION. The statements for the provers. Where a statement speaks of ports' command and response lists, of the
schedule or of the acquisition source's pending writes, those are the model's own host interface (logs 3, 4 and 5). -/

section
open Sys2Proof Sys2Proof.Machine

/-! ### Encoding -/

/-- 30_encoding R95, R99: a well-formed instruction's word decodes to it, with every operand at every value. -/
def Obligations.DecodeOfEncode : Prop :=
  ∀ i : Instr, i.wellFormed = true → decode (encode i) = .ok i

/-- 30_encoding R99: a word that decodes is the word of the instruction it decodes to, which is well-formed. -/
def Obligations.EncodeOfDecode : Prop :=
  ∀ (w : Word) (i : Instr), decode w = .ok i → encode i = w ∧ i.wellFormed = true

/-- 30_encoding R96, R97, R99: which words are ILLEGAL and which RESERVED. -/
def Obligations.WordsWithoutCommand : Prop :=
  ∀ w : Word,
    (decode w = .error .illegal ↔ reservedZero (w.toNat / 16777216) = none) ∧
    (decode w = .error .reserved ↔
      ∃ m, reservedZero (w.toNat / 16777216) = some m ∧
        (w &&& m ≠ 0 ∨ (w.toNat / 16777216 = 0x10 ∧ 5 < w.toNat % 16)))

/-- 30_encoding R95, 48_commands R274 and the commands' own rules: words the spec writes out. -/
def Obligations.SpecWordsDecode : Prop :=
  [0x01000000, 0x02000000, 0x03000000, 0x04000000, 0x20000000, 0x21000000, 0x22000000, 0x40000000, 0x41000000,
    0x42000000].map decode =
    [.ok .reset, .ok .processBlock, .ok .getStatus, .ok .clrStatus, .ok .getSignalDbm, .ok .getSquelch, .ok .getUsbFill,
      .ok .specAcquire, .ok .specRead, .ok .specRelease] ∧
  decode 0x10000010 = .ok (.setMode 0 1) ∧ decode 0x10000003 = .ok (.setMode 3 0) ∧
  decode 0x11FFF676 = .ok (.setShift (BitVec.ofInt 24 (-2442))) ∧ decode 0x11009C40 = .ok (.setShift 40000) ∧
  decode 0x170002BC = .ok (.setSidetone 700) ∧ decode 0x18000007 = .ok (.setVolume 7) ∧
  decode 0x1A000078 = .ok (.setGainCal 120) ∧ decode 0x1AFFFFEC = .ok (.setGainCal (BitVec.ofInt 24 (-20))) ∧
  decode 0x1B0003E8 = .ok (.setPwmScale 1000) ∧ decode 0x30000001 = .ok (.usbSetMute true) ∧
  decode 0x31000080 = .ok (.usbSetVolume 128) ∧ decode 0x32000004 = .ok (.usbPop 4) ∧
  decode 0x00000000 = .error .illegal ∧ decode 0xFFFFFFFF = .error .illegal ∧ decode 0x12000002 = .error .reserved ∧
  decode 0x10000006 = .error .reserved

/-! ### Steps -/

/-- 48_commands R265, 20_memory R82: when it is port p's turn and its word decodes to i, the step is i's on port p; the
turn is spent (the schedule is the model's own, log 3; the port's command list is, log 4). -/
def Obligations.StepRunsDecoded : Prop :=
  ∀ (s : State) (p : Port) (w : Word) (i : Instr),
    s.cfg.Admissible → s.nextAgent = .port p → (s.ports.get p).cmds.head? = some w → decode w = .ok i →
    step s = exec i { s with
      sched := s.sched.tail
      turn := if s.sched = [] then s.turn + 1 else s.turn
      cur := p }

/-- 30_encoding R96, R97, 60_exceptions R312: a word that is no command records its error, returns nothing and changes
nothing else (the port's lists and the schedule are the model's own, logs 3 and 4). -/
def Obligations.StepRaisesOnNonCommand : Prop :=
  ∀ (s : State) (p : Port) (w : Word) (e : DecodeError),
    s.cfg.Admissible → s.nextAgent = .port p → (s.ports.get p).cmds.head? = some w → decode w = .error e →
    ∃ t, step s = .next t ∧
      t.regs = { s.regs with
        status := recordBits s.regs.status (match e with | .illegal => Err.illegal | .reserved => Err.reserved) } ∧
      Completes { s with
        sched := s.sched.tail
        turn := if s.sched = [] then s.turn + 1 else s.turn
        cur := p } t []

/-- 20_memory R71, R87: the acquisition source's step writes its next RAW entry when no block is in progress and nothing
while one is (its list of pending writes and the schedule are the model's own, logs 3 and 5). -/
def Obligations.AcquisitionStep : Prop :=
  ∀ (s : State) (k : Nat) (v : BitVec 16) (rest : List (Nat × BitVec 16)),
    s.cfg.Admissible → s.nextAgent = .acquisition → s.acq = (k, v) :: rest → k < s.cfg.blockSize →
    ∃ t, step s = .next t ∧ t.cfg = s.cfg ∧ t.regs = s.regs ∧ t.audioOut = s.audioOut ∧ t.ports = s.ports ∧
      t.cur = s.cur ∧ t.sched = s.sched.tail ∧
      (s.regs.seq = .idle → s.raw.wf → t.acq = rest ∧ ∀ a, t.raw.read a = if a = k then v else s.raw.read a) ∧
      (s.regs.seq ≠ .idle → t.acq = s.acq ∧ t.raw = s.raw)

/-! ### Status and reset -/

/-- 60_exceptions R310, R312: recording an error sets the sticky bit of its code, and FIRST_ERR where that was 0. -/
def Obligations.RecordedErrorBits : Prop :=
  ∀ (st : BitVec 8) (e : Err),
    (∀ k, k < 4 → (recordBits st e).getLsbD k = (st.getLsbD k || decide (k + 1 = e.code))) ∧
    (recordBits st e).toNat / 16 = (if st.toNat / 16 = 0 then e.code else st.toNat / 16) ∧
    Err.illegal.code = 1 ∧ Err.reserved.code = 2 ∧ Err.clamped.code = 3 ∧ Err.lockMisuse.code = 4

/-- 48_commands R300, 10_state R60: GET_STATUS answers the STATUS word, and has no side effect. -/
def Obligations.GetStatusAnswers : Prop :=
  decode 0x03000000 = .ok .getStatus ∧
  ∀ s : State, ∃ (t : State) (w : Word), exec .getStatus s = .next t ∧ Completes s t [w] ∧ t.regs = s.regs ∧
    w.toNat = s.regs.status.toNat + (if s.regs.pub.sqOpen then 256 else 0) + (if s.regs.seq = .idle then 0 else 512) +
      (if s.regs.iq.fallback then 1024 else 0) +
      (match s.regs.spec.lock with | .free => 0 | .producer => 2048 | .consumer _ => 4096)

/-- 48_commands R301: CLR_STATUS clears the sticky bits and FIRST_ERR and nothing else. -/
def Obligations.ClrStatusClears : Prop :=
  decode 0x04000000 = .ok .clrStatus ∧
  ∀ s : State, ∃ t, exec .clrStatus s = .next t ∧ Completes s t [] ∧ t.regs = { s.regs with status := 0 }

/-- 70_reset_and_hazards R330, R331: RESET puts every register to its reset value, leaves RAW, AUDIO_OUT and the
parameters, completes, and completes the PROCESS_BLOCK of another port whose block it ends; no other port is affected
(the ports' lists and the schedule are the model's own, logs 3 and 4). -/
def Obligations.ResetResets : Prop :=
  decode 0x01000000 = .ok .reset ∧
  ∀ s : State, ∃ t, exec .reset s = .next t ∧ t.regs = Regs.reset ∧ t.cfg = s.cfg ∧
    (∀ k, t.raw.read k = s.raw.read k) ∧ (∀ k, t.audioOut.read k = s.audioOut.read k) ∧
    t.cur = s.cur ∧ t.sched = s.sched ∧ t.turn = s.turn ∧ t.acq = s.acq ∧
    ∀ p, t.ports.get p =
      if p = s.cur ∨ (s.regs.seq ≠ .idle ∧ p = s.regs.seqPort) then
        ⟨(s.ports.get p).cmds.tail, (s.ports.get p).replies ++ [[]]⟩
      else s.ports.get p

/-- 10_state R62 (and each register's own rule): everything is 0 after RESET and at power-on, except iq_c2 = 32768,
sig_dbm = minus infinity, seq = IDLE and spec_lock = FREE (seq_port, a port number, is 0: the producer's). -/
def Obligations.ResetValues : Prop :=
  State.reset.regs = Regs.reset ∧
  (let r := Regs.reset
   let z : CicChannel := ⟨0, 0, 0, 0, 0, 0, 0, 0⟩
   let c : Controls := ⟨.am, 0, 0, false, false, 0, 0, false, 0, 0, 0, 0, 0⟩
   r.seq = .idle ∧ r.seqPort = .producer ∧ r.cic = ⟨z, z, 0⟩ ∧ r.dc = ⟨0, 0⟩ ∧
   r.iq = ⟨0, 0, 0, 0, 0, 0, 0, 0, 32768, false⟩ ∧
   (∀ k (h : k < 128), r.fin.buf[k] = ⟨0, 0⟩) ∧ r.fin.cnt = 0 ∧
   (∀ k (h : k < 128), r.filt.last[k] = ⟨0, 0⟩) ∧ (∀ k (h : k < 64), r.filt.ola[k] = ⟨0, 0⟩) ∧
   (∀ k (h : k < 256), r.filt.cap[k] = ⟨0, 0⟩) ∧ r.filt.peakBin = 0 ∧ r.filt.peakPow = 0 ∧ r.filt.secondPow = 0 ∧
   r.filt.lastPeakBin = 0 ∧ r.filt.confirm = 0 ∧ r.demod = ⟨0, 0, 0, 0, 0⟩ ∧ r.cond = ⟨0, 0, 0, 0, false⟩ ∧
   r.pend = c ∧ r.act = c ∧ r.latched = ⟨0, 0, 0⟩ ∧ r.usb = ⟨false, 0, false, 0⟩ ∧ r.stager = ⟨0, 0⟩ ∧
   (∀ k, r.ring.data.read k = 0) ∧ r.ring.head = 0 ∧ r.ring.count = 0 ∧
   (∀ k (h : k < 256), r.spec.acc[k] = 0) ∧ r.spec.lock = .free ∧ r.spec.blkCapture = false ∧
   r.pub = ⟨0, 0xFF800000, false, 0, 0⟩ ∧ r.status = 0)

/-! ### Setters -/

/-- 48_commands R275: SET_MODE. -/
def Obligations.SetModeSets : Prop :=
  ∀ (mode bw : BitVec 4) (s : State),
    (∀ md : Mode, md.number = mode.toNat →
      decode ((0x100000#24 : BitVec 24) ++ (bw ++ mode)) = .ok (.setMode mode bw) ∧
      ∃ t, exec (.setMode mode bw) s = .next t ∧ Completes s t [] ∧
        t.regs = { s.regs with
          pend := { s.regs.pend with mode := md, bw := min bw.toNat (s.cfg.numBw - 1) }
          status := if s.cfg.numBw - 1 < bw.toNat then recordBits s.regs.status .clamped else s.regs.status }) ∧
    (5 < mode.toNat →
      decode ((0x100000#24 : BitVec 24) ++ (bw ++ mode)) = .error .reserved ∧
      ∃ t, exec (.setMode mode bw) s = .next t ∧ Completes s t [] ∧
        t.regs = { s.regs with status := recordBits s.regs.status .reserved })

/-- 48_commands R276: SET_SHIFT; the operand is two's complement (30_encoding R93). -/
def Obligations.SetShiftSets : Prop :=
  ∀ (v : BitVec 24) (s : State),
    let hz : Int := if v.getLsbD 23 then (v.toNat : Int) - 16777216 else v.toNat
    let lim : Int := ((s.cfg.fsCic / 2 : Nat) : Int)
    decode ((0x11#8 : BitVec 8) ++ v) = .ok (.setShift v) ∧
    ∃ t, exec (.setShift v) s = .next t ∧ Completes s t [] ∧
      t.regs = { s.regs with
        pend := { s.regs.pend with shift := if lim < hz then lim else if hz < -lim then -lim else hz }
        status := if lim < hz ∨ hz < -lim then recordBits s.regs.status .clamped else s.regs.status }

/-- 48_commands R285: SET_GAIN_CAL. -/
def Obligations.SetGainCalSets : Prop :=
  ∀ (v : BitVec 24) (s : State),
    let db : Int := if v.getLsbD 23 then (v.toNat : Int) - 16777216 else v.toNat
    decode ((0x1A#8 : BitVec 8) ++ v) = .ok (.setGainCal v) ∧
    ∃ t, exec (.setGainCal v) s = .next t ∧ Completes s t [] ∧
      t.regs = { s.regs with
        pend := { s.regs.pend with gainCal := if 255 < db then 255 else if db < -255 then -255 else db }
        status := if 255 < db ∨ db < -255 then recordBits s.regs.status .clamped else s.regs.status }

/-- 48_commands R277, R278, R281: SET_SWAP_IQ, SET_IQ_CORR and SET_AUTONOTCH; while the active notch flag is off, no step
of a block changes confirm or last_peak_bin. -/
def Obligations.FlagSettersSet : Prop :=
  ∀ (b : Bool) (s : State),
    (decode (0x12000000#32 + if b then 1 else 0) = .ok (.setSwapIq b) ∧
      ∃ t, exec (.setSwapIq b) s = .next t ∧ Completes s t [] ∧
        t.regs = { s.regs with pend := { s.regs.pend with swap := b } }) ∧
    (decode (0x13000000#32 + if b then 1 else 0) = .ok (.setIqCorr b) ∧
      ∃ t, exec (.setIqCorr b) s = .next t ∧ Completes s t [] ∧
        t.regs = { s.regs with pend := { s.regs.pend with iqCorr := b } }) ∧
    (decode (0x16000000#32 + if b then 1 else 0) = .ok (.setAutonotch b) ∧
      ∃ t, exec (.setAutonotch b) s = .next t ∧ Completes s t [] ∧
        t.regs = { s.regs with pend := { s.regs.pend with notch := b } }) ∧
    (s.regs.act.notch = false → ∀ (j : Nat) (t : State), s.regs.seq = .sample j → exec .processBlock s = .next t →
      t.regs.filt.confirm = s.regs.filt.confirm ∧ t.regs.filt.lastPeakBin = s.regs.filt.lastPeakBin)

/-- 48_commands R279, R280, R283, R284: SET_DEEMPH, SET_AGC_SPEED, SET_VOLUME and SET_SQUELCH. -/
def Obligations.IndexSettersSet : Prop :=
  ∀ (u : BitVec 8) (s : State),
    (decode ((0x140000#24 : BitVec 24) ++ u) = .ok (.setDeemph u) ∧
      ∃ t, exec (.setDeemph u) s = .next t ∧ Completes s t [] ∧
        t.regs = { s.regs with
          pend := { s.regs.pend with deemph := if 2 < u.toNat then 2 else u.toNat }
          status := if 2 < u.toNat then recordBits s.regs.status .clamped else s.regs.status }) ∧
    (decode ((0x150000#24 : BitVec 24) ++ u) = .ok (.setAgcSpeed u) ∧
      ∃ t, exec (.setAgcSpeed u) s = .next t ∧ Completes s t [] ∧
        t.regs = { s.regs with
          pend := { s.regs.pend with agc := if 3 < u.toNat then 3 else u.toNat }
          status := if 3 < u.toNat then recordBits s.regs.status .clamped else s.regs.status }) ∧
    (decode ((0x180000#24 : BitVec 24) ++ u) = .ok (.setVolume u) ∧
      ∃ t, exec (.setVolume u) s = .next t ∧ Completes s t [] ∧
        t.regs = { s.regs with
          pend := { s.regs.pend with volume := if 9 < u.toNat then 9 else u.toNat }
          status := if 9 < u.toNat then recordBits s.regs.status .clamped else s.regs.status }) ∧
    (decode ((0x190000#24 : BitVec 24) ++ u) = .ok (.setSquelch u) ∧
      ∃ t, exec (.setSquelch u) s = .next t ∧ Completes s t [] ∧
        t.regs = { s.regs with
          pend := { s.regs.pend with squelch := if 12 < u.toNat then 12 else u.toNat }
          status := if 12 < u.toNat then recordBits s.regs.status .clamped else s.regs.status })

/-- 48_commands R282: SET_SIDETONE. -/
def Obligations.SetSidetoneSets : Prop :=
  ∀ (u : BitVec 24) (s : State),
    decode ((0x17#8 : BitVec 8) ++ u) = .ok (.setSidetone u) ∧
    ∃ t, exec (.setSidetone u) s = .next t ∧ Completes s t [] ∧
      t.regs = { s.regs with
        pend := { s.regs.pend with sidetone := if s.cfg.fsDemod / 2 < u.toNat then s.cfg.fsDemod / 2 else u.toNat }
        status := if s.cfg.fsDemod / 2 < u.toNat then recordBits s.regs.status .clamped else s.regs.status }

/-- 48_commands R286: SET_PWM_SCALE. -/
def Obligations.SetPwmScaleSets : Prop :=
  ∀ (u : BitVec 24) (s : State),
    decode ((0x1B#8 : BitVec 8) ++ u) = .ok (.setPwmScale u) ∧
    ∃ t, exec (.setPwmScale u) s = .next t ∧ Completes s t [] ∧
      t.regs = { s.regs with pend := { s.regs.pend with pwm := u.toNat } }

/-! ### Getters and USB commands -/

/-- 48_commands R290 to R292, 20_memory R80, 46_output_stager R245: the getters answer the published values and the
ring's fill percentage, and change no register. -/
def Obligations.GettersAnswer : Prop :=
  ∀ s : State,
    (decode 0x20000000 = .ok .getSignalDbm ∧
      ∃ t, exec .getSignalDbm s = .next t ∧ Completes s t [s.regs.pub.sigDbm] ∧ t.regs = s.regs) ∧
    (decode 0x21000000 = .ok .getSquelch ∧
      ∃ t, exec .getSquelch s = .next t ∧ Completes s t [if s.regs.pub.sqOpen then 1 else 0] ∧ t.regs = s.regs) ∧
    (decode 0x22000000 = .ok .getUsbFill ∧
      ∃ t, exec .getUsbFill s = .next t ∧
        Completes s t [BitVec.ofNat 32 (s.regs.ring.count * 100 / s.cfg.rbCap)] ∧ t.regs = s.regs)

/-- 48_commands R293, R294: USB_SET_MUTE and USB_SET_VOLUME write the shared register at once, the block's copy not; the
mute flag takes effect at the next BEGIN, whichever port's. -/
def Obligations.UsbSettersSet : Prop :=
  ∀ s : State,
    (∀ b : Bool, decode (0x30000000#32 + if b then 1 else 0) = .ok (.usbSetMute b) ∧
      ∃ t, exec (.usbSetMute b) s = .next t ∧ Completes s t [] ∧
        t.regs = { s.regs with usb := { s.regs.usb with mute := b } } ∧
        (s.regs.seq = .idle → ∀ p, ∃ v, exec .processBlock { t with cur := p } = .next v ∧ v.regs.usb.blkMute = b)) ∧
    (∀ u : BitVec 24, decode ((0x31#8 : BitVec 8) ++ u) = .ok (.usbSetVolume u) ∧
      ∃ t, exec (.usbSetVolume u) s = .next t ∧ Completes s t [] ∧
        t.regs = { s.regs with
          usb := { s.regs.usb with vol := if 256 < u.toNat then 256 else u.toNat }
          status := if 256 < u.toNat then recordBits s.regs.status .clamped else s.regs.status })

/-- 48_commands R295, 46_output_stager R244, 30_encoding R94: USB_POP returns the oldest bytes, packed after their
number, and they leave the ring buffer. -/
def Obligations.UsbPopPops : Prop :=
  ∀ (u : BitVec 24) (s : State),
    let m := min u.toNat s.regs.ring.count
    decode ((0x32#8 : BitVec 8) ++ u) = .ok (.usbPop u) ∧
    ∃ (t : State) (ws : List Word), exec (.usbPop u) s = .next t ∧ Completes s t (BitVec.ofNat 32 m :: ws) ∧
      ws.length = (m + 3) / 4 ∧
      (∀ n, n < m → dataByte ws n = (s.regs.ring.contents s.cfg.rbCap).getD n 0) ∧
      (∀ n, m ≤ n → dataByte ws n = 0) ∧
      t.regs = { s.regs with
        ring := { s.regs.ring with
          head := (s.regs.ring.head + m) % s.cfg.rbCap
          count := s.regs.ring.count - m } } ∧
      t.regs.ring.contents s.cfg.rbCap = (s.regs.ring.contents s.cfg.rbCap).drop m

/-! ### Spectrum commands -/

/-- 48_commands R296: SPEC_ACQUIRE on a port that holds the lock raises LOCK_MISUSE; it takes a free lock; it holds while
the lock is held otherwise (a hold is a step that changes nothing: the model's rendering, log 3). -/
def Obligations.SpecAcquireTakes : Prop :=
  decode 0x40000000 = .ok .specAcquire ∧
  ∀ s : State,
    (s.regs.spec.lock = .consumer s.cur → ∃ t, exec .specAcquire s = .next t ∧ Completes s t [] ∧
      t.regs = { s.regs with status := recordBits s.regs.status .lockMisuse }) ∧
    (s.regs.spec.lock = .free → ∃ t, exec .specAcquire s = .next t ∧ Completes s t [] ∧
      t.regs = { s.regs with spec := { s.regs.spec with lock := .consumer s.cur } }) ∧
    (s.regs.spec.lock ≠ .consumer s.cur → s.regs.spec.lock ≠ .free → exec .specAcquire s = .next s)

/-- 48_commands R297, 47_spectrum R259, 00_scope R18: SPEC_READ by the holder answers 128 words, word k the binary32
nearest (spec_acc[2k] + spec_acc[2k+1]) / 2^16; by any other port it raises LOCK_MISUSE and returns no words. The premise
on spec_acc is 10_state R58's range, which every step keeps (Obligations.DatapathStaysInRange). -/
def Obligations.SpecReadAnswers : Prop :=
  decode 0x41000000 = .ok .specRead ∧
  ∀ s : State,
    (s.regs.spec.lock = .consumer s.cur → (∀ x ∈ s.regs.spec.acc.toList, 0 ≤ x ∧ x ≤ 46341 * 65536) →
      ∃ (t : State) (ws : List Word), exec .specRead s = .next t ∧ Completes s t ws ∧ t.regs = s.regs ∧
        ws.length = 128 ∧
        ∀ k, k < 128 → NearestF32 (ws.getD k 0)
          ((((s.regs.spec.acc.toList.getD (2 * k) 0 + s.regs.spec.acc.toList.getD (2 * k + 1) 0 : Int)) : ℝ) / 65536)) ∧
    (s.regs.spec.lock ≠ .consumer s.cur → ∃ t, exec .specRead s = .next t ∧ Completes s t [] ∧
      t.regs = { s.regs with status := recordBits s.regs.status .lockMisuse })

/-- 48_commands R298: SPEC_RELEASE frees the lock of the port that holds it, and raises LOCK_MISUSE on any other. -/
def Obligations.SpecReleaseFrees : Prop :=
  decode 0x42000000 = .ok .specRelease ∧
  ∀ s : State,
    (s.regs.spec.lock = .consumer s.cur → ∃ t, exec .specRelease s = .next t ∧ Completes s t [] ∧
      t.regs = { s.regs with spec := { s.regs.spec with lock := .free } }) ∧
    (s.regs.spec.lock ≠ .consumer s.cur → ∃ t, exec .specRelease s = .next t ∧ Completes s t [] ∧
      t.regs = { s.regs with status := recordBits s.regs.status .lockMisuse })

/-! ### PROCESS_BLOCK -/

/-- 48_commands R266, R267, 44_demodulators R205, 10_state R54: PROCESS_BLOCK from IDLE takes the BEGIN step. -/
def Obligations.BlockBegins : Prop :=
  decode 0x02000000 = .ok .processBlock ∧
  ∀ s : State, s.regs.seq = .idle →
    ∃ t, exec .processBlock s = .next t ∧ SameHost s t ∧ (∀ k, t.audioOut.read k = s.audioOut.read k) ∧
      t.regs = { s.regs with
        seq := .sample 0
        seqPort := s.cur
        act := s.regs.pend
        demod :=
          if s.regs.pend.mode = s.regs.act.mode then s.regs.demod
          else match s.regs.pend.mode with
            | .am => { s.regs.demod with amDc := 0 }
            | .ams => { s.regs.demod with amDc := 0, pllPhase := 0, pllFreq := 0 }
            | .lsb => s.regs.demod
            | .usb => s.regs.demod
            | .fm => { s.regs.demod with fmLast := 0 }
            | .cw => { s.regs.demod with cwPhase := 0 }
        latched :=
          { binShift := (256 * s.regs.pend.shift).tdiv s.cfg.fsCic
            cwInc := s.regs.pend.sidetone * 2048 / s.cfg.fsDemod
            sqThresh := sqThreshold s.regs.pend.squelch s.regs.pend.gainCal }
        usb := { s.regs.usb with blkMute := s.regs.usb.mute, blkVol := s.regs.usb.vol }
        spec :=
          if s.regs.spec.lock = .free then { s.regs.spec with lock := .producer, blkCapture := true }
          else { s.regs.spec with blkCapture := false }
        cond := { s.regs.cond with
          sqOpen := decide ((sqThreshold s.regs.pend.squelch s.regs.pend.gainCal : Int) < s.regs.pub.sigEst) }
        pub := { s.regs.pub with magSum := 0, magCnt := 0 }
        stager := { s.regs.stager with outIdx := 0 } }

/-- 48_commands R268, 45_conditioner R218, R225, 46_output_stager R236, R238 to R240, 20_memory R71, R72: SAMPLE(j) of the
port's own block. With RAW entries 2j and 2j+1, and room in AUDIO_OUT where a filter call is due, seq moves on; without a
call AUDIO_OUT and the ring stay. A call makes 64 gated samples xs, all 0 while the squelch is closed: sample m, brought to
the volume, ends a run of INTERP_L points from the sample before it, whose PWM counts are the entries from
out_idx + m·INTERP_L on, each at most act.PWM; and the ring takes the 128 bytes of the samples scaled for USB, low byte
first. Without the RAW entries or the room it stops by name (the model's own faults, log 6). -/
def Obligations.BlockSamples : Prop :=
  ∀ (s : State) (j : Nat), s.regs.seq = .sample j → s.regs.seqPort = s.cur →
    let due := s.cfg.cicR ≤ s.regs.cic.cnt + 1 ∧ s.regs.fin.cnt + 1 = 128
    let room := s.regs.stager.outIdx + 64 * s.cfg.interpL ≤ s.cfg.expanded
    (s.cfg.blockSize ≤ 2 * j + 1 → ∃ k, exec .processBlock s = .fault (.rawIndex k)) ∧
    (2 * j + 1 < s.cfg.blockSize → due → ¬ room → exec .processBlock s = .fault (.audioIndex s.cfg.expanded)) ∧
    (2 * j + 1 < s.cfg.blockSize → (due → room) → s.audioOut.wf →
      ∃ t, exec .processBlock s = .next t ∧ SameHost s t ∧
        t.regs.seq = (if j + 1 < s.cfg.blockSize / 2 then .sample (j + 1) else .ending) ∧
        t.regs.seqPort = s.regs.seqPort ∧ t.regs.pend = s.regs.pend ∧ t.regs.act = s.regs.act ∧
        t.regs.latched = s.regs.latched ∧ t.regs.usb = s.regs.usb ∧ t.regs.spec = s.regs.spec ∧
        t.regs.status = s.regs.status ∧ t.regs.cond.sqOpen = s.regs.cond.sqOpen ∧
        t.regs.pub.sigEst = s.regs.pub.sigEst ∧ t.regs.pub.sigDbm = s.regs.pub.sigDbm ∧
        t.regs.pub.sqOpen = s.regs.pub.sqOpen ∧
        t.regs.cic.cnt = (if s.regs.cic.cnt + 1 < s.cfg.cicR then s.regs.cic.cnt + 1 else 0) ∧
        (¬ due → t.audioOut = s.audioOut ∧ t.regs.stager = s.regs.stager ∧ t.regs.ring = s.regs.ring ∧
          t.regs.filt = s.regs.filt ∧ t.regs.demod = s.regs.demod ∧ t.regs.cond = s.regs.cond ∧
          t.regs.pub = s.regs.pub ∧
          t.regs.fin.cnt = (if s.regs.cic.cnt + 1 < s.cfg.cicR then s.regs.fin.cnt else s.regs.fin.cnt + 1)) ∧
        (due → t.regs.stager.outIdx = s.regs.stager.outIdx + 64 * s.cfg.interpL ∧
          t.regs.pub.magCnt = s.regs.pub.magCnt + 64 ∧ t.regs.fin.cnt = 0 ∧
          (∀ a, a < s.regs.stager.outIdx ∨ s.regs.stager.outIdx + 64 * s.cfg.interpL ≤ a →
            t.audioOut.read a = s.audioOut.read a) ∧
          (∀ a, s.regs.stager.outIdx ≤ a → a < s.regs.stager.outIdx + 64 * s.cfg.interpL →
            (t.audioOut.read a).toNat ≤ s.regs.act.pwm) ∧
          let xs := s.callSamples j
          let v (m : Nat) : Int :=
            if m = 0 then s.regs.stager.interpPrev else xs.getD (m - 1) 0 * s.cfg.volume s.regs.act.volume / 256
          xs.length = 64 ∧ (s.regs.cond.sqOpen = false → ∀ x ∈ xs, x = 0) ∧
          (∀ m k, m < 64 → k < s.cfg.interpL →
            t.audioOut.read (s.regs.stager.outIdx + m * s.cfg.interpL + k) =
              BitVec.ofInt 24 (max 0 (min (s.regs.act.pwm : Int)
                ((v m + (v (m + 1) - v m) * k / s.cfg.interpL + 32768) * s.regs.act.pwm / 65536)))) ∧
          t.regs.stager.interpPrev = v 64 ∧
          t.regs.ring = (xs.flatMap (usbBytes s.regs.usb)).foldl (rbPush s.cfg.rbCap) s.regs.ring))

/-- 48_commands R269, 45_conditioner R220, R221, 47_spectrum R258: the END step publishes, accumulates the captured
spectrum in display order and releases the lock, and completes the command. -/
def Obligations.BlockEnds : Prop :=
  ∀ s : State, s.regs.seq = .ending → s.regs.seqPort = s.cur → 1 ≤ s.regs.pub.magCnt →
    ∃ (t : State) (acc : Vector Int 256), exec .processBlock s = .next t ∧ Completes s t [] ∧
      (∀ j (h : j < 256), acc[j] = s.regs.spec.acc[j] +
        (cordicMag (s.regs.filt.cap[(j + 128) % 256]'(Nat.mod_lt _ (by decide))).re
            (s.regs.filt.cap[(j + 128) % 256]'(Nat.mod_lt _ (by decide))).im * 65536 - s.regs.spec.acc[j]) /
          2 ^ s.cfg.specAlphaShift) ∧
      t.regs = { s.regs with
        pub := { s.regs.pub with
          sigEst := s.regs.pub.magSum / s.regs.pub.magCnt
          sigDbm := signalDbm (s.regs.pub.magSum / s.regs.pub.magCnt).toNat s.regs.act.gainCal
          sqOpen := s.regs.cond.sqOpen }
        spec := if s.regs.spec.blkCapture then ⟨acc, .free, false⟩ else s.regs.spec
        seq := .idle }

/-- 48_commands R266, 60_exceptions R320: a PROCESS_BLOCK of another port holds while a block is in progress (a hold is a
step that changes nothing: the model's rendering, log 3). -/
def Obligations.SecondBlockHolds : Prop :=
  ∀ s : State, s.regs.seq ≠ .idle → s.regs.seqPort ≠ s.cur → exec .processBlock s = .next s

/-- 48_commands R266, R271, 46_output_stager R239, 20_memory R72, R79: a whole block. From IDLE, P + 2 steps of the port
that issued PROCESS_BLOCK run BEGIN, every SAMPLE and END; the command is then complete, exactly S samples and EXP
entries were made, and every entry is at most the active PWM maximum (the schedule and the ports' lists are the model's
own, logs 3 and 4). -/
def Obligations.BlockRunsToEnd : Prop :=
  ∀ (s : State) (p : Port) (ws : List Word) (more : List Agent),
    s.cfg.Admissible → s.regs.seq = .idle → s.regs.cic.cnt = 0 → s.regs.fin.cnt = 0 → s.audioOut.wf →
    (s.ports.get p).cmds = 0x02000000 :: ws →
    s.sched = List.replicate (s.cfg.pairs + 2) (.port p) ++ more →
    ∃ t, runSteps (s.cfg.pairs + 2) s = .next t ∧ t.regs.seq = .idle ∧ t.cfg = s.cfg ∧ t.raw = s.raw ∧
      t.acq = s.acq ∧ t.turn = s.turn ∧ t.sched = more ∧ t.cur = p ∧
      t.ports = s.ports.set p ⟨ws, (s.ports.get p).replies ++ [[]]⟩ ∧
      t.regs.pend = s.regs.pend ∧ t.regs.act = s.regs.pend ∧ t.regs.status = s.regs.status ∧
      t.regs.cic.cnt = 0 ∧ t.regs.fin.cnt = 0 ∧
      t.regs.pub.magCnt = s.cfg.samples ∧ t.regs.stager.outIdx = s.cfg.expanded ∧
      (∀ a, a < s.cfg.expanded → (t.audioOut.read a).toNat ≤ s.regs.pend.pwm) ∧
      (∀ a, s.cfg.expanded ≤ a → t.audioOut.read a = s.audioOut.read a)

/-! ### Invariants of every step -/

/-- The storages keep their canonical form and list no index that does not exist (20_memory R71, R72, R74; the canonical
form and the pending writes are the model's own, logs 2 and 5). -/
def Obligations.StoragesStayCanonical : Prop :=
  ∀ s t : State, s.MemoriesCanonical → s.IndicesExist → step s = .next t → t.MemoriesCanonical ∧ t.IndicesExist

/-- 10_state R40: both copies of every control register stay legal. -/
def Obligations.ControlsStayLegal : Prop :=
  ∀ s t : State, s.ControlsLegal → step s = .next t → t.ControlsLegal

/-- 48_commands R268, R271, 10_state R36: the sequencer stays in step with the counters of the CIC, the filter input, the
magnitudes and the AUDIO_OUT index, and fb_cnt is 0 at every block boundary. -/
def Obligations.SequencerStaysInStep : Prop :=
  ∀ s t : State, s.regs.SeqOk s.cfg → step s = .next t → t.regs.SeqOk t.cfg

/-- 47_spectrum R256, R260, 60_exceptions R310, R312: the producer holds the lock exactly while its block captures, and
FIRST_ERR names a recorded error. -/
def Obligations.LockAndStatusStayConsistent : Prop :=
  ∀ s t : State, s.regs.seq ≠ .begun → s.regs.LockOk → statusOk s.regs.status → step s = .next t →
    t.regs.seq ≠ .begun ∧ t.regs.LockOk ∧ statusOk t.regs.status

/-- 10_state R33 to R39, R55 to R59: every datapath register, the spectrum accumulator and the estimate stay in the range
their rule gives them. The range of mag_sum, of which R59 gives none, is what the estimate's rests on. -/
def Obligations.DatapathStaysInRange : Prop :=
  ∀ s t : State, s.InRange → s.ControlsLegal → step s = .next t → t.InRange

/-- The state after reset satisfies every invariant stated of every step. -/
def Obligations.ResetSatisfiesInvariants : Prop :=
  State.reset.cfg.Admissible ∧ State.reset.MemoriesCanonical ∧ State.reset.IndicesExist ∧ State.reset.ControlsLegal ∧
    State.reset.regs.SeqOk State.reset.cfg ∧ State.reset.regs.seq ≠ .begun ∧ State.reset.regs.LockOk ∧
    statusOk State.reset.regs.status ∧ State.reset.InRange ∧ State.reset.regs.Silent

/-- 60_exceptions R314, R315: a machine of an admissible instance whose sequencer is in step never stops: the model's two
faults and its refusal do not happen (they are the model's own, logs 6 and 7). -/
def Obligations.MachineNeverStops : Prop :=
  ∀ s : State, s.cfg.Admissible → s.regs.SeqOk s.cfg → (∀ c ∈ s.acq, c.1 < s.cfg.blockSize) → ∃ t, step s = .next t

/-! ### Whole-machine rules -/

/-- 20_memory R71, R72, R87, 10_state R30: the parameters never change; RAW changes only between blocks, by the
acquisition source; AUDIO_OUT changes only in a SAMPLE step of PROCESS_BLOCK. -/
def Obligations.WhoWritesTheBuffers : Prop :=
  ∀ s t : State, step s = .next t →
    t.cfg = s.cfg ∧
    (t.raw = s.raw ∨ (s.regs.seq = .idle ∧ s.nextAgent = .acquisition)) ∧
    (t.audioOut = s.audioOut ∨ ∃ p j, s.Runs p .processBlock ∧ s.regs.seqPort = p ∧ s.regs.seq = .sample j)

/-- 10_state R40, 48_commands R270, 44_demodulators R190: the active registers change only where a block begins, to the
pending ones, or by RESET. -/
def Obligations.ActiveRegistersChangeAtBegin : Prop :=
  ∀ s t : State, s.regs.seq ≠ .begun → step s = .next t →
    t.regs.act = s.regs.act ∨
    (∃ p, s.Runs p .processBlock ∧ s.regs.seq = .idle ∧ t.regs.act = s.regs.pend) ∨
    (∃ p, s.Runs p .reset ∧ t.regs = Regs.reset)

/-- 48_commands R273, 40_cic R118, 10_state R31: no command but PROCESS_BLOCK and RESET touches a datapath register. -/
def Obligations.DatapathChangesOnlyByBlocks : Prop :=
  ∀ s t : State, step s = .next t →
    (∃ p, s.Runs p .processBlock) ∨ (∃ p, s.Runs p .reset) ∨
    (t.regs.seq = s.regs.seq ∧ t.regs.seqPort = s.regs.seqPort ∧ t.regs.cic = s.regs.cic ∧ t.regs.dc = s.regs.dc ∧
      t.regs.iq = s.regs.iq ∧ t.regs.fin = s.regs.fin ∧ t.regs.filt = s.regs.filt ∧ t.regs.demod = s.regs.demod ∧
      t.regs.cond = s.regs.cond ∧ t.regs.act = s.regs.act ∧ t.regs.latched = s.regs.latched ∧
      t.regs.stager = s.regs.stager ∧ t.regs.pub = s.regs.pub ∧ t.regs.spec.acc = s.regs.spec.acc ∧
      t.regs.usb.blkMute = s.regs.usb.blkMute ∧ t.regs.usb.blkVol = s.regs.usb.blkVol)

/-- 47_spectrum R260, 70_reset_and_hazards R331: the capture lock's only transitions, and spec_acc changes only where the
producer holds the lock (RESET apart). -/
def Obligations.LockTransitions : Prop :=
  ∀ s t : State, s.regs.seq ≠ .begun → s.regs.LockOk → step s = .next t →
    (t.regs.spec.lock = s.regs.spec.lock ∨
      (s.regs.spec.lock = .free ∧ t.regs.spec.lock = .producer ∧ s.regs.seq = .idle ∧ ∃ p, s.Runs p .processBlock) ∨
      (s.regs.spec.lock = .producer ∧ t.regs.spec.lock = .free ∧ s.regs.seq = .ending ∧ ∃ p, s.Runs p .processBlock) ∨
      (∃ p, s.regs.spec.lock = .free ∧ t.regs.spec.lock = .consumer p ∧ s.Runs p .specAcquire) ∨
      (∃ p, s.regs.spec.lock = .consumer p ∧ t.regs.spec.lock = .free ∧ s.Runs p .specRelease) ∨
      (t.regs.spec.lock = .free ∧ ∃ p, s.Runs p .reset)) ∧
    (t.regs.spec.acc = s.regs.spec.acc ∨ s.regs.spec.lock = .producer ∨ ∃ p, s.Runs p .reset)

/-- 10_state R60, 60_exceptions R312, R315: bits 0 to 7 of STATUS are cleared only by CLR_STATUS and RESET, and no step of
a block changes them. -/
def Obligations.StatusIsSticky : Prop :=
  ∀ s t : State, step s = .next t →
    (∀ k, k < 8 → s.regs.status.getLsbD k = true → t.regs.status.getLsbD k = false →
      ∃ p, s.Runs p .clrStatus ∨ s.Runs p .reset) ∧
    ((∃ p, s.Runs p .processBlock) → t.regs.status = s.regs.status)

/-- 10_state R59, 48_commands R290, 70_reset_and_hazards R338: the published values change only at END, or by RESET. -/
def Obligations.PublishedValuesChangeAtEnd : Prop :=
  ∀ s t : State, step s = .next t →
    (t.regs.pub.sigEst = s.regs.pub.sigEst ∧ t.regs.pub.sigDbm = s.regs.pub.sigDbm ∧
      t.regs.pub.sqOpen = s.regs.pub.sqOpen) ∨
    (∃ p, s.Runs p .processBlock ∧ s.regs.seqPort = p ∧ s.regs.seq = .ending) ∨ ∃ p, s.Runs p .reset

/-- 47_spectrum R261, 70_reset_and_hazards R345: the capture lock, the accumulator and the capture buffer do not affect
anything else a step of a block does. -/
def Obligations.CaptureDoesNotAffectAudio : Prop :=
  ∀ (s t : State) (sp : Spectrum) (cap : Vector IQ 256), exec .processBlock s = .next t →
    ∃ (sp' : Spectrum) (cap' : Vector IQ 256),
      exec .processBlock (s.withCapture sp cap) = .next (t.withCapture sp' cap')

/-- 45_conditioner R223: a receiver that has seen only zero samples stays silent, in every mode and under every command,
as long as RAW holds zeros; every AUDIO_OUT entry it writes is the midscale code. -/
def Obligations.SilenceIsKept : Prop :=
  ∀ s t : State, s.regs.Silent → s.audioOut.wf → (∀ k, s.raw.read k = 0) → step s = .next t →
    t.regs.Silent ∧
    ∀ a, t.audioOut.read a = s.audioOut.read a ∨ t.audioOut.read a = BitVec.ofNat 24 (32768 * s.regs.act.pwm / 65536)

/-! ### Datapath -/

/-- 40_cic R115, R116: after any input, a run of at least 4·CIC_R - 3 calls with input V that ends in a ready call gives
sat16((V·CIC_R^4) >> CIC_SHIFT) on each channel, where V·CIC_R^4 fits int32: what admissibility gives (R115). -/
def Obligations.CicDcGain : Prop :=
  ∀ (cfg : Config) (xs : List IQ) (v : IQ) (n : Nat) (o : IQ),
    1 ≤ cfg.cicR → 4 * cfg.cicR - 3 ≤ n →
    Int32Range (v.re * cfg.cicR ^ 4) → Int32Range (v.im * cfg.cicR ^ 4) →
    (cicRun cfg Cic.reset (xs ++ List.replicate n v)).2 = some o →
    o = ⟨sat16 (v.re * cfg.cicR ^ 4 / 2 ^ cfg.cicShift), sat16 (v.im * cfg.cicR ^ 4 / 2 ^ cfg.cicShift)⟩

/-- 40_cic R117: from reset, the ready calls are exactly every CIC_R-th. -/
def Obligations.CicReadyEveryR : Prop :=
  ∀ (cfg : Config) (xs : List IQ), 1 ≤ cfg.cicR → xs ≠ [] →
    ((cicRun cfg Cic.reset xs).2.isSome = true ↔ xs.length % cfg.cicR = 0)

/-- 00_scope R14: a constant input held long enough gives that value as the estimate, exactly, from any accumulator and
with any shift; the equilibrium is [x·2^s, x·2^s + 2^s - 1]. -/
def Obligations.TrackerSettles : Prop :=
  ∀ (x acc : Int) (s : Nat), ∃ n₀, ∀ n, n₀ ≤ n →
    let a := (fun b => (iirTrack b x s).1)^[n] acc
    (iirTrack a x s).2 = x ∧ x * 2 ^ s ≤ a ∧ a ≤ x * 2 ^ s + 2 ^ s - 1

/-- 44_demodulators R206: for a constant input pair, AM's output reaches 0 after finitely many samples and stays 0. -/
def Obligations.AmSettles : Prop :=
  ∀ (d : Demod) (x : IQ), ∃ n₀, ∀ n, n₀ ≤ n → (demodAm ((fun e => (demodAm e x).1)^[n] d) x).2 = 0

/-- 41_frontend_iq R130, R133: IQ_UPDATE's filters, and the coefficients or the fallback. -/
def Obligations.IqUpdateCoefficients : Prop :=
  ∀ u : IqCorr,
    let g1 := u.f1 + u.acc1 - u.f1 / 32
    let g2 := u.f2 + u.acc2 - u.f2 / 32
    let g3 := u.f3 + u.acc3 - u.f3 / 32
    let e1 := g1 / 32
    let e2 := g2 / 32
    let e3 := g3 / 32
    let u' := iqUpdate u
    (u'.f1 = g1 ∧ u'.f2 = g2 ∧ u'.f3 = g3 ∧ u'.acc1 = 0 ∧ u'.acc2 = 0 ∧ u'.acc3 = 0 ∧ u'.n = 0) ∧
    (e2 < 1 ∨ e3 * e3 < e1 * e1 → u'.c1 = 0 ∧ u'.c2 = 32768 ∧ u'.fallback = true) ∧
    (1 ≤ e2 → e1 * e1 ≤ e3 * e3 →
      u'.fallback = false ∧ u'.c1 = max (-2147483648) (min 2147483647 ((e1 * 32768).tdiv e2)) ∧
      ∃ r : Nat, (r : Int) * r ≤ (e3 * e3 - e1 * e1) * 1073741824 / (e2 * e2) ∧
        (e3 * e3 - e1 * e1) * 1073741824 / (e2 * e2) < ((r : Int) + 1) * (r + 1) ∧ u'.c2 = min 2147483647 (r : Int))

/-- 42_channel_filter R156, R159: the masked spectrum is the shifted one inside the band on the enabled sides, and exactly
(0, 0) everywhere else. -/
def Obligations.MaskKeepsOnlyTheBand : Prop :=
  ∀ (m : Mode) (b : Band) (x : List IQ) (k : Nat), b.stop ≤ 63 → k < 128 →
    (maskAndPeak m b x).y.getD k IQ.zero =
      if m ≠ .lsb ∧ b.start ≤ k ∧ k ≤ b.stop then x.getD k IQ.zero
      else if m ≠ .usb ∧ b.start ≤ 128 - k ∧ 128 - k ≤ b.stop then x.getD (128 + k) IQ.zero
      else IQ.zero

/-- 42_channel_filter R157: peak_pow is the largest bin power of the masked spectrum, peak_bin a bin that has it (0 where
there is none), and second_pow the largest of the other bins. -/
def Obligations.PeakIsLargest : Prop :=
  ∀ (m : Mode) (b : Band) (x : List IQ), b.stop ≤ 63 →
    let sc := maskAndPeak m b x
    (∀ k, k < 128 → binPower (sc.y.getD k IQ.zero) ≤ sc.peakPow) ∧
    (sc.peakPow = 0 → sc.peakBin = 0) ∧
    binPower (sc.y.getD sc.peakBin IQ.zero) = sc.peakPow ∧ sc.peakBin < 128 ∧
    (∀ k, k < 128 → k ≠ sc.peakBin → binPower (sc.y.getD k IQ.zero) ≤ sc.secondPow) ∧
    (sc.secondPow = 0 ∨ ∃ k, k < 128 ∧ k ≠ sc.peakBin ∧ binPower (sc.y.getD k IQ.zero) = sc.secondPow)

/-- 42_channel_filter R160, R161: the confirm counter, and the three bins the notch zeroes; with the notch off nothing of
it changes. -/
def Obligations.NotchActs : Prop :=
  ∀ (act : Controls) (b : Band) (f : Machine.Filter) (x : List IQ), b.stop ≤ 63 →
    let sc := maskAndPeak act.mode b x
    let r := maskedSpectrum act b f x
    (act.notch = false → r.1.confirm = f.confirm ∧ r.1.lastPeakBin = f.lastPeakBin ∧ r.2 = sc.y) ∧
    (act.notch = true →
      r.1.confirm = (if sc.peakBin = f.lastPeakBin then min 255 (f.confirm + 1) else f.confirm - 1) ∧
      r.1.lastPeakBin = sc.peakBin ∧
      ∀ k, k < 128 → r.2.getD k IQ.zero =
        if 127 < r.1.confirm ∧ 3 < sc.peakBin ∧ sc.peakBin < 124 ∧ sc.peakBin ≤ k + 1 ∧ k ≤ sc.peakBin + 1 then IQ.zero
        else sc.y.getD k IQ.zero)

/-- 45_conditioner R216, R217: the squelch threshold is the largest t with t^20 ≤ 10^d (0 for d < 0), and an estimate n
exceeds it exactly when 20·log10(n) - g exceeds the squelch level. -/
def Obligations.SquelchThresholdExact : Prop :=
  ∀ (k : Nat) (g : Int), k ≤ 12 →
    (squelchDbm k + g < 0 → sqThreshold k g = 0) ∧
    (0 ≤ squelchDbm k + g →
      sqThreshold k g ^ 20 ≤ 10 ^ (squelchDbm k + g).toNat ∧
        10 ^ (squelchDbm k + g).toNat < (sqThreshold k g + 1) ^ 20) ∧
    ∀ n : Nat, 1 ≤ n → (sqThreshold k g < n ↔ (squelchDbm k : ℝ) < 20 * Real.logb 10 n - g)

/-- 45_conditioner R221, 00_scope R18: sig_dbm is minus infinity for 0, else the binary32 nearest 20·log10(n) - g, for
every estimate 10_state R59 allows and every gain calibration R52 allows. -/
def Obligations.SignalDbmNearest : Prop :=
  (∀ g : Int, signalDbm 0 g = 0xFF800000) ∧
  ∀ (n : Nat) (g : Int), 1 ≤ n → n ≤ 46341 → -255 ≤ g → g ≤ 255 →
    NearestF32 (signalDbm n g) (20 * Real.logb 10 n - g)

/-- 46_output_stager R236, R237: the interpolated run is what an error-accumulator line stepper gives, and every point
lies between the two samples. -/
def Obligations.InterpolationIsBresenham : Prop :=
  ∀ (cfg : Config) (prev v : Int), 1 ≤ cfg.interpL →
    interpolationRun cfg prev v =
      bresenham cfg.interpL ((v - prev) / cfg.interpL) ((v - prev) % cfg.interpL) cfg.interpL prev 0 ∧
    (interpolationRun cfg prev v).head? = some prev ∧
    ∀ y ∈ interpolationRun cfg prev v, min prev v ≤ y ∧ y ≤ max prev v

/-- 46_output_stager R243, R246: after any pushes the ring holds the most recent bytes, oldest first, and never more than
its capacity. -/
def Obligations.RingKeepsTheMostRecent : Prop :=
  ∀ (cap : Nat) (r : Machine.Ring) (bs : List Byte), 1 ≤ cap → r.Ok cap → r.data.wf →
    let r' := bs.foldl (rbPush cap) r
    r'.count = min cap (r.count + bs.length) ∧ r'.Ok cap ∧
      r'.contents cap = (r.contents cap ++ bs).drop (r.count + bs.length - r'.count)

/-- 43_cordic_sine R178, R179: the vector stays below 2^17 in every round for components up to 46340, the magnitude is
never negative and the phase lies in [-1024, 1023]; for int16 components the magnitude is at most 46341, which
(-32768, -32768) and (32767, 32767) reach. -/
def Obligations.CordicStaysBounded : Prop :=
  (∀ i q : Int, -46340 ≤ i → i ≤ 46340 → -46340 ≤ q → q ≤ 46340 →
    (∀ n, n ≤ 6 →
      let v := (cordicTable.take n).foldl cordicRound (cordicPre i q)
      0 ≤ v.i ∧ v.i < 131072 ∧ -131072 < v.q ∧ v.q < 131072) ∧
    0 ≤ cordicMag i q ∧ -1024 ≤ cordicPhase i q ∧ cordicPhase i q ≤ 1023) ∧
  (∀ i q : Int, -32768 ≤ i → i ≤ 32767 → -32768 ≤ q → q ≤ 32767 → cordicMag i q ≤ 46341) ∧
  cordicMag (-32768) (-32768) = 46341 ∧ cordicMag 32767 32767 = 46341

/-- 43_cordic_sine R186, 42_channel_filter R148: the sine table's symmetries and checks, and the window's. -/
def Obligations.TablesCheck : Prop :=
  (∀ k : Nat, k ≤ 512 → sinT (1024 - k) = sinT k) ∧ (∀ k : Nat, k < 2048 → sinT (2048 - k) = -sinT k) ∧
  sinT 0 = 0 ∧ sinT 256 = 23170 ∧ sinT 512 = 32767 ∧ sinT 1024 = 0 ∧ sinT 1536 = -32767 ∧
  ((List.range 513).map fun k : Nat => sinT k).sum = 10696746 ∧
  ((List.range 2048).map fun k : Nat => |sinT k|).sum = 42721450 ∧
  ((List.range 2048).map fun k : Nat => (k : Int) * sinT k).sum = -21873382400 ∧
  window 0 = 0 ∧ window 1 = 5 ∧ window 2 = 19 ∧ window 3 = 44 ∧ window 64 = 16383 ∧ window 128 = 32767 ∧
  (∀ n, 1 ≤ n → n ≤ 255 → window (256 - n) = window n) ∧
  (∀ n, n < 128 → window n + window (n + 128) = 32766 ∨ window n + window (n + 128) = 32767)

/-- 45_conditioner R214: attack moves the hold value toward the magnitude without passing it and reloads the hang; in the
hang the hold value is frozen; decay lowers it and never below 0; the gain is the setpoint over the hold value, floored at
1; the output is the product, its excess beyond the setpoint halved, brought to int16. -/
def Obligations.AgcPhases : Prop :=
  ∀ (cfg : Config) (p : AgcPreset) (c : Cond) (x : Int), 0 ≤ c.agcHold →
    let m := |x| * 2 ^ cfg.agcFrac
    let c' := (agc cfg p c x).1
    (c.agcHold < m → c.agcHold ≤ c'.agcHold ∧ c'.agcHold ≤ m ∧ c'.agcHold = c.agcHold + (m - c.agcHold) / 2 ^ p.attack ∧
      c'.agcHang = p.hang) ∧
    (m ≤ c.agcHold → 0 < c.agcHang → c'.agcHold = c.agcHold ∧ c'.agcHang = c.agcHang - 1) ∧
    (m ≤ c.agcHold → c.agcHang = 0 → 0 ≤ c'.agcHold ∧ c'.agcHold = c.agcHold - c.agcHold / 2 ^ p.decay ∧
      c'.agcHang = 0) ∧
    c'.deX = c.deX ∧ c'.deY = c.deY ∧ c'.sqOpen = c.sqOpen ∧
    (let gain : Int := max 1 ((cfg.agcSetpoint : Int) / max (c'.agcHold / 2 ^ cfg.agcFrac) cfg.agcEps)
     let y := x * gain
     agcGain cfg c'.agcHold = gain ∧ 1 ≤ gain ∧
     (|y| ≤ cfg.agcSetpoint → (agc cfg p c x).2 = max (-32768) (min 32767 y)) ∧
     ((cfg.agcSetpoint : Int) < y →
       (agc cfg p c x).2 = max (-32768) (min 32767 (cfg.agcSetpoint + (y - cfg.agcSetpoint) / 2))) ∧
     (y < -(cfg.agcSetpoint : Int) →
       (agc cfg p c x).2 = max (-32768) (min 32767 (-cfg.agcSetpoint - (-cfg.agcSetpoint - y) / 2)))) ∧
    -32768 ≤ (agc cfg p c x).2 ∧ (agc cfg p c x).2 ≤ 32767

end
end

