-- ==== Sys2Proof/Laws/Arith.lean ====
section
/-! SUPPORT. What the arithmetic primitives of 00_scope do: ranges, shifts as divisions, the single-pole tracker, the
digit-by-digit root, and fixed-length arrays. -/

namespace Sys2Proof.Machine

/-! ### wrap32, sat16, clamp, wrap_angle -/

theorem wrap32_range (v : Int) : Int32Range (wrap32 v) := by
  simp only [wrap32, Int32Range]
  omega

theorem wrap32_congr (v : Int) : wrap32 v % 4294967296 = v % 4294967296 := by
  simp only [wrap32]
  omega

theorem wrap32_of_range {v : Int} (h : Int32Range v) : wrap32 v = v := by
  simp only [wrap32, Int32Range] at *
  omega

theorem wrap32_eq_of_congr {a b : Int} (h : a % 4294967296 = b % 4294967296) : wrap32 a = wrap32 b := by
  simp only [wrap32]
  omega

theorem clamp_range (v : Int) {lo hi : Int} (h : lo ≤ hi) : lo ≤ clamp v lo hi ∧ clamp v lo hi ≤ hi := by
  simp only [clamp]
  omega

theorem clamp_of_range {v lo hi : Int} (h1 : lo ≤ v) (h2 : v ≤ hi) : clamp v lo hi = v := by
  simp only [clamp]
  omega

theorem sat16_int16 (v : Int) : Int16 (sat16 v) := clamp_range v (by decide)

theorem sat16_of_int16 {v : Int} (h : Int16 v) : sat16 v = v := clamp_of_range h.1 h.2

@[simp] theorem sat16_zero : sat16 0 = 0 := rfl

theorem wrapAngle_range (a : Int) : -1024 ≤ wrapAngle a ∧ wrapAngle a ≤ 1023 := by
  simp only [wrapAngle]
  omega

theorem wrapAngle_congr (a : Int) : (wrapAngle a - a) % 2048 = 0 := by
  simp only [wrapAngle]
  omega

theorem absI_nonneg (v : Int) : 0 ≤ absI v := by simp [absI]

theorem absI_eq (v : Int) : absI v = if 0 ≤ v then v else -v := by
  simp only [absI]
  split <;> omega

/-! ### Shifts -/

theorem shl_eq (v : Int) (s : Nat) : shl v s = v * (2 : Int) ^ s := by simp [shl]

theorem asr_eq (v : Int) (s : Nat) : asr v s = v / (2 : Int) ^ s := by simp [asr]

theorem pow_pos_int (s : Nat) : (0 : Int) < 2 ^ s := Int.pow_pos (by decide)

@[simp] theorem asr_zero_left (s : Nat) : asr 0 s = 0 := by simp [asr]

@[simp] theorem shl_zero_left (s : Nat) : shl 0 s = 0 := by simp [shl]

/-- A right shift brackets the number: (v >> s)·2^s ≤ v < ((v >> s) + 1)·2^s. -/
theorem asr_bracket (v : Int) (s : Nat) : asr v s * 2 ^ s ≤ v ∧ v < (asr v s + 1) * 2 ^ s := by
  rw [asr_eq]
  have h := pow_pos_int s
  have h1 := Int.emod_add_mul_ediv v ((2 : Int) ^ s)
  have h2 := Int.emod_nonneg v (Int.ne_of_gt h)
  have h3 := Int.emod_lt_of_pos v h
  constructor <;> nlinarith

theorem asr_mono {a b : Int} (s : Nat) (h : a ≤ b) : asr a s ≤ asr b s := by
  rw [asr_eq, asr_eq]
  exact Int.ediv_le_ediv (pow_pos_int s) h

theorem asr_nonneg {v : Int} (s : Nat) (h : 0 ≤ v) : 0 ≤ asr v s := by
  rw [asr_eq]
  exact Int.ediv_nonneg h (Int.le_of_lt (pow_pos_int s))

/-- A right shift does not leave a range that holds the number, 0 and -1. -/
theorem asr_range {v lo hi : Int} (s : Nat) (h1 : lo ≤ v) (h2 : v ≤ hi) (hlo : lo ≤ -1) (hhi : 0 ≤ hi) :
    lo ≤ asr v s ∧ asr v s ≤ hi := by
  have hb := asr_bracket v s
  have hp := pow_pos_int s
  constructor
  · by_contra hc
    nlinarith
  · by_contra hc
    nlinarith

theorem asr_self_le {v : Int} (s : Nat) (h : 0 ≤ v) : asr v s ≤ v := by
  have hb := asr_bracket v s
  have hp := pow_pos_int s
  by_contra hc
  nlinarith

theorem asr_shl (v : Int) (s : Nat) : asr (shl v s) s = v := by
  rw [asr_eq, shl_eq]
  exact Int.mul_ediv_cancel _ (Int.ne_of_gt (pow_pos_int s))

/-! ### The single-pole tracker (00_scope R14) -/

theorem iirTrack_fst (acc x : Int) (s : Nat) : (iirTrack acc x s).1 = acc + x - asr acc s := rfl

theorem iirTrack_snd (acc x : Int) (s : Nat) : (iirTrack acc x s).2 = asr (iirTrack acc x s).1 s := rfl

/-- A tracker fed values in [0, hi - 1] keeps its accumulator in [0, hi·2^s]. -/
theorem iirTrack_range {acc x hi : Int} {s : Nat} (ha : 0 ≤ acc ∧ acc ≤ hi * 2 ^ s) (hx : 0 ≤ x ∧ x < hi) :
    0 ≤ (iirTrack acc x s).1 ∧ (iirTrack acc x s).1 ≤ hi * 2 ^ s := by
  rw [iirTrack_fst]
  have h1 := asr_self_le s ha.1
  refine ⟨by omega, ?_⟩
  have hb := asr_bracket acc s
  have hp := pow_pos_int s
  -- acc - asr acc s is largest at the top of the range
  have key : acc - asr acc s ≤ hi * 2 ^ s - hi := by
    have h2 : asr acc s ≤ hi := by
      by_contra hc
      nlinarith
    rcases eq_or_lt_of_le h2 with he | hl
    · rw [he]
      omega
    · nlinarith [mul_le_mul_of_nonneg_right (show asr acc s + 1 ≤ hi by omega) (Int.le_of_lt hp)]
  omega

/-! ### Roots by digits (00_scope R13, 45_conditioner R216) -/

/-- The search keeps t^p ≤ n < (t + 2^b)^p true, one bit at a time. -/
theorem rootDigits_spec (p n b t : Nat) (h1 : t ^ p ≤ n) (h2 : n < (t + 2 ^ b) ^ p) :
    rootDigits p n b t ^ p ≤ n ∧ n < (rootDigits p n b t + 1) ^ p := by
  induction b generalizing t with
  | zero => exact ⟨h1, by simpa [rootDigits] using h2⟩
  | succ b ih =>
    simp only [rootDigits]
    split
    · rename_i h
      exact ih _ h (by rw [Nat.pow_succ] at h2; rwa [show t + 2 ^ b + 2 ^ b = t + 2 ^ b * 2 by omega])
    · rename_i h
      exact ih _ h1 (Nat.lt_of_not_le h)

theorem lt_isqrt_bound (n : Nat) : n < (0 + 2 ^ (Nat.log2 n / 2 + 1)) ^ 2 := by
  rw [Nat.zero_add, ← Nat.pow_mul]
  rcases Nat.eq_zero_or_pos n with rfl | h
  · exact Nat.two_pow_pos _
  · calc n < 2 ^ (Nat.log2 n + 1) := Nat.lt_log2_self
      _ ≤ 2 ^ ((Nat.log2 n / 2 + 1) * 2) := Nat.pow_le_pow_right (by decide) (by omega)

/-- The squelch threshold's search starts from enough bits. -/
theorem lt_twentieth_bound (d : Nat) : 10 ^ d < (0 + 2 ^ (d / 5 + 1)) ^ 20 := by
  rw [Nat.zero_add, ← Nat.pow_mul]
  calc 10 ^ d ≤ 16 ^ d := Nat.pow_le_pow_left (by decide) d
    _ = 2 ^ (4 * d) := by rw [Nat.pow_mul]
    _ < 2 ^ ((d / 5 + 1) * 20) := Nat.pow_lt_pow_right (by decide) (by omega)

/-! ### Fixed-length arrays -/

theorem toVec_get {α : Type} {n : Nat} {d : α} {l : List α} (k : Nat) (h : k < n) :
    (toVec n d l)[k] = l.getD k d := by simp [toVec]

theorem toVec_toList {α : Type} (n : Nat) (d : α) (l : List α) (h : l.length = n) : (toVec n d l).toList = l := by
  apply List.ext_getElem
  · simp [h]
  · intro k h1 h2
    simp [toVec, List.getD_eq_getElem?_getD, List.getElem?_eq_getElem h2]

/-- An array built from int16 pairs holds int16 pairs. -/
theorem toVec_allInt16 {n : Nat} {l : List IQ} (h : AllInt16 l) : AllInt16 (toVec n IQ.zero l).toList := by
  intro x hx
  obtain ⟨k, hk, rfl⟩ := List.mem_iff_getElem.1 hx
  simp only [Vector.length_toList] at hk
  rw [Vector.getElem_toList, toVec_get k hk, List.getD_eq_getElem?_getD]
  by_cases h2 : k < l.length
  · simpa [h2] using h _ (List.getElem_mem h2)
  · simp [h2, IQ.zero, Int16]

theorem replicate_allInt16 (n : Nat) : AllInt16 (Vector.replicate n IQ.zero).toList := by
  intro x hx
  have : x = IQ.zero := by simpa using (List.eq_of_mem_replicate (by simpa using hx))
  subst this
  simp [IQ.zero, Int16]

end Sys2Proof.Machine
end

