-- ==== Sys2Proof/Laws/FilterRanges.lean ====
section
/-! SUPPORT. The sine table's bounds, lengths and int16 ranges of the transforms (42_channel_filter R148 to R152), the
mask's scan (R156, R157), and the ranges 10_state R37 gives the channel filter. -/

namespace Sys2Proof.Machine

/-! ### Sine table -/

theorem sineQuarter_range : ∀ v ∈ sineQuarter, 0 ≤ v ∧ v ≤ 32767 := by decide +kernel

theorem sineQuarter_length : sineQuarter.length = 513 := by decide +kernel

theorem sineQuarter_getD_range (k : Nat) : 0 ≤ sineQuarter.getD k 0 ∧ sineQuarter.getD k 0 ≤ 32767 := by
  rw [List.getD_eq_getElem?_getD]
  by_cases h : k < sineQuarter.length
  · simpa [h] using sineQuarter_range _ (List.getElem_mem h)
  · rw [List.getElem?_eq_none (by omega)]
    decide

theorem sinEntry_range (k : Nat) : -32767 ≤ sinEntry k ∧ sinEntry k ≤ 32767 := by
  have h1 := sineQuarter_getD_range k
  have h2 := sineQuarter_getD_range (1024 - k)
  have h3 := sineQuarter_getD_range (k - 1024)
  have h4 := sineQuarter_getD_range (2048 - k)
  simp only [sinEntry]
  split
  · omega
  · split
    · omega
    · split <;> omega

theorem sinT_range (a : Int) : -32767 ≤ sinT a ∧ sinT a ≤ 32767 := sinEntry_range _

theorem cosT_range (a : Int) : -32767 ≤ cosT a ∧ cosT a ≤ 32767 := sinEntry_range _

theorem window_range (n : Nat) : 0 ≤ window n ∧ window n ≤ 32767 := by
  have h := cosT_range (8 * n)
  simp only [window, asr_eq, pow_one]
  omega

/-! ### Lists of pairs -/

theorem nil_int16 : AllInt16 [] := fun _ h => nomatch h

/-! ### Window -/

theorem applyWindow_length (n : Nat) (l : List IQ) : (applyWindow n l).length = l.length := by
  induction l generalizing n with
  | nil => rfl
  | cons x xs ih => simp [applyWindow, ih]

/-- A sample times a window value, shifted back, is an int16 (42_channel_filter R148). -/
theorem window_product_int16 {x k : Int} (hx : Int16 x) (hk : 0 ≤ k ∧ k ≤ 32767) : Int16 (asr (x * k) 15) := by
  have h1 : -32768 * 32768 ≤ x * k := by nlinarith [hx.1, hx.2, hk.1, hk.2]
  have h2 : x * k ≤ 32767 * 32767 := by nlinarith [hx.1, hx.2, hk.1, hk.2]
  simp only [Int16, asr_eq]
  omega

theorem applyWindow_int16 (n : Nat) {l : List IQ} (h : AllInt16 l) : AllInt16 (applyWindow n l) := by
  induction l generalizing n with
  | nil => exact nil_int16
  | cons x xs ih =>
    intro y hy
    rcases List.mem_cons.1 hy with rfl | hy
    · have hx := h x (by simp)
      exact ⟨window_product_int16 hx.1 (window_range n), window_product_int16 hx.2 (window_range n)⟩
    · exact ih (n + 1) (fun z hz => h z (by simp [hz])) y hy

/-! ### Transforms -/

/-- Every component a butterfly writes is saturated. -/
theorem butterfly_int16 (fwd : Bool) (idx : Nat) (a b : IQ) :
    IQ.Int16 (butterfly fwd idx a b).1 ∧ IQ.Int16 (butterfly fwd idx a b).2 := by
  cases fwd <;> exact ⟨⟨sat16_int16 _, sat16_int16 _⟩, sat16_int16 _, sat16_int16 _⟩

theorem butterflies_int16 (fwd : Bool) (st j : Nat) (as bs : List IQ) :
    AllInt16 (butterflies fwd st j as bs).1 ∧ AllInt16 (butterflies fwd st j as bs).2 := by
  induction as generalizing j bs with
  | nil => exact ⟨nil_int16, nil_int16⟩
  | cons a as ih =>
    cases bs with
    | nil => exact ⟨nil_int16, nil_int16⟩
    | cons b bs =>
      have h := butterfly_int16 fwd (j * st) a b
      have hr := ih (j + 1) bs
      refine ⟨fun y hy => ?_, fun y hy => ?_⟩
      · rcases List.mem_cons.1 hy with rfl | hy
        · exact h.1
        · exact hr.1 y hy
      · rcases List.mem_cons.1 hy with rfl | hy
        · exact h.2
        · exact hr.2 y hy

theorem butterflies_length (fwd : Bool) (st j : Nat) (as bs : List IQ) :
    (butterflies fwd st j as bs).1.length = min as.length bs.length ∧
      (butterflies fwd st j as bs).2.length = min as.length bs.length := by
  induction as generalizing j bs with
  | nil => simp [butterflies]
  | cons a as ih =>
    cases bs with
    | nil => simp [butterflies]
    | cons b bs => simp [butterflies, ih, Nat.add_min_add_right]

theorem fftStage_int16 (fwd : Bool) (half n : Nat) (l : List IQ) : AllInt16 (fftStage fwd half n l) := by
  induction n generalizing l with
  | zero => exact nil_int16
  | succ n ih =>
    intro y hy
    simp only [fftStage, List.mem_append] at hy
    have h := butterflies_int16 fwd (1024 / half) 0 (l.take half) ((l.drop half).take half)
    rcases hy with (hy | hy) | hy
    · exact h.1 y hy
    · exact h.2 y hy
    · exact ih _ y hy

theorem fftStage_length (fwd : Bool) (half n : Nat) (l : List IQ) (h : l.length = 2 * half * n) :
    (fftStage fwd half n l).length = 2 * half * n := by
  induction n generalizing l with
  | zero => simp [fftStage]
  | succ n ih =>
    have hb := butterflies_length fwd (1024 / half) 0 (l.take half) ((l.drop half).take half)
    rw [Nat.mul_add, Nat.mul_one] at h ⊢
    have hd : (l.drop (2 * half)).length = 2 * half * n := by simp [h]
    simp only [fftStage, List.length_append, hb.1, hb.2, ih _ hd, List.length_take, List.length_drop]
    omega

theorem fftCore_int16 (fwd : Bool) (bits : Nat) (x : List IQ) (h : 1 ≤ bits) : AllInt16 (fftCore fwd bits x) := by
  obtain ⟨b, rfl⟩ := Nat.exists_eq_add_of_le' h
  simp only [fftCore, List.range_succ, List.foldl_append, List.foldl_cons, List.foldl_nil]
  exact fftStage_int16 _ _ _ _

theorem fftStages_length (fwd : Bool) (bits : Nat) (ts : List Nat) (hts : ∀ t ∈ ts, t < bits) (l : List IQ)
    (h : l.length = 2 ^ bits) :
    (ts.foldl (fun l t => fftStage fwd (2 ^ t) (2 ^ (bits - 1 - t)) l) l).length = 2 ^ bits := by
  induction ts generalizing l with
  | nil => simpa using h
  | cons t ts ih =>
    have ht : t < bits := hts t (by simp)
    have e : 2 * 2 ^ t * 2 ^ (bits - 1 - t) = 2 ^ bits := by
      rw [Nat.mul_assoc, ← Nat.pow_add, ← Nat.pow_succ']
      congr 1
      omega
    refine ih (fun t' ht' => hts t' (by simp [ht'])) _ ?_
    rw [fftStage_length _ _ _ _ (h.trans e.symm), e]

theorem fftCore_length (fwd : Bool) (bits : Nat) (x : List IQ) : (fftCore fwd bits x).length = 2 ^ bits :=
  fftStages_length fwd bits _ (fun _ h => List.mem_range.1 h) _ (by simp)

theorem fftForward_int16 (x : List IQ) : AllInt16 (fftForward x) := fftCore_int16 _ _ _ (by decide)
theorem fftInverse_int16 (x : List IQ) : AllInt16 (fftInverse x) := fftCore_int16 _ _ _ (by decide)
theorem fftForward_length (x : List IQ) : (fftForward x).length = 256 := fftCore_length _ _ _
theorem fftInverse_length (x : List IQ) : (fftInverse x).length = 128 := fftCore_length _ _ _

theorem zero_int16 : IQ.Int16 IQ.zero := ⟨⟨by decide, by decide⟩, by decide, by decide⟩

theorem getD_int16 {l : List IQ} (h : AllInt16 l) (k : Nat) : IQ.Int16 (l.getD k IQ.zero) := by
  rw [List.getD_eq_getElem?_getD]
  by_cases hk : k < l.length
  · simpa [hk] using h _ (List.getElem_mem hk)
  · rw [List.getElem?_eq_none (by omega)]
    exact zero_int16

theorem rotate_int16 (b : Int) {x : List IQ} (h : AllInt16 x) : AllInt16 (rotate b x) := by
  intro y hy
  obtain ⟨k, _, rfl⟩ := List.mem_map.1 hy
  exact getD_int16 h _

theorem rotate_length (b : Int) (x : List IQ) : (rotate b x).length = 256 := by simp [rotate]

theorem shiftedSpectrum_int16 (b : Int) (block : List IQ) : AllInt16 (shiftedSpectrum b block) := by
  simp only [shiftedSpectrum]
  split
  · exact rotate_int16 _ (fftForward_int16 _)
  · exact fftForward_int16 _

theorem shiftedSpectrum_length (b : Int) (block : List IQ) : (shiftedSpectrum b block).length = 256 := by
  simp only [shiftedSpectrum]
  split
  · exact rotate_length _ _
  · exact fftForward_length _

/-! ### Mask and peak -/

/-- What the mask's scan keeps: 128 int16 entries, a peak bin below 128, powers in [0, 2^31]. -/
structure Scan.InRange (sc : Scan) : Prop where
  y : AllInt16 sc.y
  len : sc.y.length = 128
  peakBin : sc.peakBin ≤ 127
  peakPow : 0 ≤ sc.peakPow ∧ sc.peakPow ≤ 2147483648
  secondPow : 0 ≤ sc.secondPow ∧ sc.secondPow ≤ 2147483648

theorem set_int16 {l : List IQ} (h : AllInt16 l) (k : Nat) {v : IQ} (hv : IQ.Int16 v) : AllInt16 (l.set k v) := by
  intro y hy
  rcases List.mem_or_eq_of_mem_set hy with hy | rfl
  · exact h y hy
  · exact hv

theorem binPower_range {v : IQ} (h : IQ.Int16 v) : 0 ≤ binPower v ∧ binPower v ≤ 2147483648 := by
  obtain ⟨⟨h1, h2⟩, h3, h4⟩ := h
  simp only [binPower]
  constructor <;> nlinarith

theorem Scan.start_inRange : Scan.start.InRange where
  y := fun x hx => by
    rw [List.eq_of_mem_replicate hx]
    exact zero_int16
  len := List.length_replicate
  peakBin := by decide
  peakPow := by decide
  secondPow := by decide

theorem Scan.take_inRange {sc : Scan} (h : sc.InRange) {idx : Nat} (hi : idx ≤ 127) {v : IQ} (hv : IQ.Int16 v) :
    (sc.take idx v).InRange := by
  have hp := binPower_range hv
  have hy := set_int16 h.y idx hv
  have hl : (sc.y.set idx v).length = 128 := by simp [h.len]
  simp only [Scan.take]
  split
  · exact ⟨hy, hl, hi, hp, h.peakPow⟩
  · split
    · exact ⟨hy, hl, h.peakBin, h.peakPow, hp⟩
    · exact ⟨hy, hl, h.peakBin, h.peakPow, h.secondPow⟩

theorem maskBin_inRange (m : Mode) {x : List IQ} (hx : AllInt16 x) {sc : Scan} (h : sc.InRange) {k : Nat} (hk : k ≤ 63) :
    (maskBin m x sc k).InRange := by
  have h1 : (if Mode.usbFlag m = true then sc.take k (x.getD k IQ.zero) else sc).InRange := by
    split
    · exact Scan.take_inRange h (by omega) (getD_int16 hx _)
    · exact h
  simp only [maskBin]
  split
  · exact Scan.take_inRange h1 (by omega) (getD_int16 hx _)
  · exact h1

theorem foldl_maskBin_inRange (m : Mode) {x : List IQ} (hx : AllInt16 x) (ks : List Nat) (hks : ∀ k ∈ ks, k ≤ 63)
    {sc : Scan} (h : sc.InRange) : (ks.foldl (maskBin m x) sc).InRange := by
  induction ks generalizing sc with
  | nil => exact h
  | cons k ks ih => exact ih (fun k' h' => hks k' (by simp [h'])) (maskBin_inRange m hx h (hks k (by simp)))

theorem maskAndPeak_inRange (m : Mode) {b : Band} (hb : b.stop ≤ 63) {x : List IQ} (hx : AllInt16 x) :
    (maskAndPeak m b x).InRange := by
  refine foldl_maskBin_inRange m hx _ (fun k hk => ?_) Scan.start_inRange
  have := List.mem_range'_1.1 hk
  omega

/-! ### Notch, overlap-add, CHANFILT -/

theorem notchZero_int16 (f : Filter) {y : List IQ} (h : AllInt16 y) : AllInt16 (notchZero f y) := by
  simp only [notchZero]
  split
  · exact set_int16 (set_int16 (set_int16 h _ zero_int16) _ zero_int16) _ zero_int16
  · exact h

theorem overlapEmit_int16 (ola y : List IQ) : AllInt16 (overlapEmit ola y) := by
  intro v hv
  obtain ⟨k, hk, rfl⟩ := List.mem_iff_getElem.1 hv
  simp only [overlapEmit, List.getElem_zipWith]
  exact ⟨sat16_int16 _, sat16_int16 _⟩

/-- MODE_BW's entries of an admissible instance, and the default outside the table, end at bin 63 at most. -/
theorem Config.band_stop {cfg : Config} (h : cfg.TablesOk) (m : Mode) (bw : Nat) : (cfg.band m bw).stop ≤ 63 := by
  simp only [Config.band]
  rw [List.getD_eq_getElem?_getD, List.getD_eq_getElem?_getD]
  by_cases h1 : m.number < cfg.modeBw.length
  · have hrow := (h.2.1 _ (List.getElem_mem h1)).2
    simp only [List.getElem?_eq_getElem h1, Option.getD_some]
    by_cases h2 : bw < (cfg.modeBw[m.number]).length
    · simpa [h2] using (hrow _ (List.getElem_mem h2)).2
    · rw [List.getElem?_eq_none (Nat.le_of_not_lt h2)]
      exact Nat.zero_le _
  · rw [List.getElem?_eq_none (Nat.le_of_not_lt h1)]
    exact Nat.zero_le _

theorem chanFilt_output_int16 (cfg : Config) (act : Controls) (bs : Int) (cap : Bool) (f : Filter) (n : Vector IQ 128) :
    AllInt16 (chanFilt cfg act bs cap f n).2 := by
  simp only [chanFilt]
  exact overlapEmit_int16 _ _

theorem chanFilt_output_length (cfg : Config) (act : Controls) (bs : Int) (cap : Bool) (f : Filter) (n : Vector IQ 128) :
    (chanFilt cfg act bs cap f n).2.length = 64 := by
  simp only [chanFilt, overlapEmit, List.length_zipWith, List.length_take, fftInverse_length, Vector.length_toList]
  decide

theorem drop_int16 {l : List IQ} (h : AllInt16 l) (k : Nat) : AllInt16 (l.drop k) :=
  fun x hx => h x (List.mem_of_mem_drop hx)

theorem chanFilt_inRange {cfg : Config} (hc : cfg.TablesOk) (act : Controls) (bs : Int) (cap : Bool) {f : Filter}
    (h : f.InRange) {n : Vector IQ 128} (hn : AllInt16 n.toList) : (chanFilt cfg act bs cap f n).1.InRange := by
  have hx : AllInt16 (shiftedSpectrum bs (f.last.toList ++ n.toList)) := shiftedSpectrum_int16 _ _
  have hsc := maskAndPeak_inRange act.mode (Config.band_stop hc act.mode act.bw) hx
  have hcap : AllInt16 (if cap then toVec 256 IQ.zero (shiftedSpectrum bs (f.last.toList ++ n.toList)) else f.cap).toList := by
    split
    · exact toVec_allInt16 hx
    · exact h.cap
  simp only [chanFilt, maskedSpectrum]
  split
  · refine ⟨hn, toVec_allInt16 (drop_int16 (fftInverse_int16 _) _), hcap, hsc.peakBin, hsc.peakPow, hsc.secondPow,
      hsc.peakBin, ?_⟩
    simp only [notchConfirm]
    have := h.confirm
    split
    · exact Nat.min_le_left _ _
    · omega
  · exact ⟨hn, toVec_allInt16 (drop_int16 (fftInverse_int16 _) _), hcap, hsc.peakBin, hsc.peakPow, hsc.secondPow,
      h.lastPeakBin, h.confirm⟩

end Sys2Proof.Machine
end

