-- ==== Sys2Proof/Laws/AudioRanges.lean ====
section
/-! SUPPORT. The demodulators, the conditioner and the stager's arithmetic keep the ranges 10_state gives them (R38, R39,
R54 to R57) and give int16 samples (44_demodulators R204, 45_conditioner R214, R225, 46_output_stager R236). -/

namespace Sys2Proof.Machine

/-! ### CORDIC -/

theorem cordicPhase_range (i q : Int) : -1024 ≤ cordicPhase i q ∧ cordicPhase i q ≤ 1023 := wrapAngle_range _

theorem cordicRound_nonneg {v : CordicVec} (h : 0 ≤ v.i) (k : Nat × Int) : 0 ≤ (cordicRound v k).i := by
  simp only [cordicRound]
  split
  · rename_i hq
    have := asr_nonneg k.1 hq
    simp only
    omega
  · rename_i hq
    have := asr_range (hi := 0) k.1 (le_refl v.q) (by omega) (by omega) (by omega)
    simp only
    omega

theorem cordicPre_nonneg (i q : Int) : 0 ≤ (cordicPre i q).i := by
  simp only [cordicPre]
  split
  · split <;> simp only <;> omega
  · simp only
    omega

theorem foldl_cordicRound_nonneg (ks : List (Nat × Int)) {v : CordicVec} (h : 0 ≤ v.i) :
    0 ≤ (ks.foldl cordicRound v).i := by
  induction ks generalizing v with
  | nil => exact h
  | cons k ks ih => exact ih (cordicRound_nonneg h k)

/-- The magnitude is never negative (43_cordic_sine R179). -/
theorem cordicMag_nonneg (i q : Int) : 0 ≤ cordicMag i q := by
  have h : 0 ≤ (cordicRun i q).i := foldl_cordicRound_nonneg _ (cordicPre_nonneg i q)
  exact asr_nonneg _ (Int.mul_nonneg h (by decide))

theorem cordicMag_zero : cordicMag 0 0 = 0 := by decide

/-! ### Demodulators -/

/-- The demodulators' ranges (10_state R38). -/
structure Demod.InRange (cfg : Config) (d : Demod) : Prop where
  pllPhase : 0 ≤ d.pllPhase ∧ d.pllPhase < shl 2048 cfg.pllFrac
  pllFreq : -(cfg.pllFmax : Int) ≤ d.pllFreq ∧ d.pllFreq ≤ cfg.pllFmax
  fmLast : -1024 ≤ d.fmLast ∧ d.fmLast ≤ 1023
  cwPhase : 0 ≤ d.cwPhase ∧ d.cwPhase ≤ 2047

theorem shl_pos {v : Int} (s : Nat) (h : 0 < v) : 0 < shl v s := by
  rw [shl_eq]
  exact Int.mul_pos h (pow_pos_int s)

theorem pllUpdate_inRange {cfg : Config} {d : Demod} (h : d.InRange cfg) (e : Int) : (pllUpdate cfg d e).InRange cfg where
  pllPhase := ⟨Int.emod_nonneg _ (Int.ne_of_gt (shl_pos _ (by decide))), Int.emod_lt_of_pos _ (shl_pos _ (by decide))⟩
  pllFreq := clamp_range _ (by omega)
  fmLast := h.fmLast
  cwPhase := h.cwPhase

theorem amTrack_inRange {cfg : Config} {d : Demod} (h : d.InRange cfg) (v : Int) :
    (amTrack d v).1.InRange cfg ∧ Int16 (amTrack d v).2 :=
  ⟨⟨h.pllPhase, h.pllFreq, h.fmLast, h.cwPhase⟩, sat16_int16 _⟩

/-- Every demodulator gives an int16 sample and keeps its state in range (44_demodulators R204). -/
theorem demodulate_inRange {cfg : Config} (m : Mode) {cwInc : Nat} {d : Demod} (h : d.InRange cfg) {x : IQ}
    (hx : IQ.Int16 x) : (demodulate cfg m cwInc d x).1.InRange cfg ∧ Int16 (demodulate cfg m cwInc d x).2 := by
  cases m
  · exact amTrack_inRange h _
  · exact amTrack_inRange (pllUpdate_inRange h _) _
  · exact ⟨h, hx.1⟩
  · exact ⟨h, hx.1⟩
  · have hw := wrapAngle_range (cordicPhase x.re x.im - d.fmLast)
    exact ⟨⟨h.pllPhase, h.pllFreq, cordicPhase_range _ _, h.cwPhase⟩,
      Int.le_trans (by decide) hw.1, Int.le_trans hw.2 (by decide)⟩
  · refine ⟨⟨h.pllPhase, h.pllFreq, h.fmLast, ?_⟩, sat16_int16 _⟩
    show 0 ≤ (d.cwPhase + cwInc) % 2048 ∧ (d.cwPhase + cwInc) % 2048 ≤ 2047
    omega

theorem modeChangeZero_inRange {cfg : Config} (m : Mode) {d : Demod} (h : d.InRange cfg) :
    (modeChangeZero m d).InRange cfg := by
  have hp : (0 : Int) < shl 2048 cfg.pllFrac := shl_pos _ (by decide)
  obtain ⟨h1, h2, h3, h4⟩ := h
  cases m
  · exact ⟨h1, h2, h3, h4⟩
  · exact ⟨⟨le_refl 0, hp⟩, ⟨by simp [modeChangeZero], by simp [modeChangeZero]⟩, h3, h4⟩
  · exact ⟨h1, h2, h3, h4⟩
  · exact ⟨h1, h2, h3, h4⟩
  · exact ⟨h1, h2, ⟨by simp [modeChangeZero], by simp [modeChangeZero]⟩, h4⟩
  · exact ⟨h1, h2, h3, ⟨by simp [modeChangeZero], by simp [modeChangeZero]⟩⟩

/-! ### Conditioner -/

/-- The conditioner's ranges (10_state R39). -/
structure Cond.InRange (cfg : Config) (c : Cond) : Prop where
  deX : Int16 c.deX
  deY : Int16 c.deY
  agcHold : 0 ≤ c.agcHold ∧ c.agcHold ≤ shl 32768 cfg.agcFrac
  agcHang : c.agcHang ≤ cfg.maxHang

theorem deemphasis_inRange {cfg : Config} (p : Nat) {c : Cond} (h : c.InRange cfg) {x : Int} (hx : Int16 x) :
    (deemphasis cfg p c x).1.InRange cfg ∧ Int16 (deemphasis cfg p c x).2 := by
  simp only [deemphasis]
  split
  · exact ⟨h, hx⟩
  · exact ⟨⟨hx, sat16_int16 _, h.agcHold, h.agcHang⟩, sat16_int16 _⟩

theorem le_foldl_max (l : List Nat) (a : Nat) : a ≤ l.foldl max a ∧ ∀ x ∈ l, x ≤ l.foldl max a := by
  induction l generalizing a with
  | nil => simp
  | cons b l ih =>
    have h := ih (max a b)
    refine ⟨Nat.le_trans (Nat.le_max_left a b) h.1, fun x hx => ?_⟩
    rcases List.mem_cons.1 hx with rfl | hx
    · exact Nat.le_trans (Nat.le_max_right a x) h.1
    · exact h.2 x hx

/-- A preset's hang is at most the largest one (10_state R39). -/
theorem Config.agcRow_hang (cfg : Config) (m : Mode) (speed : Nat) : (cfg.agcRow m speed).hang ≤ cfg.maxHang := by
  simp only [Config.agcRow]
  rw [List.getD_eq_getElem?_getD, List.getD_eq_getElem?_getD]
  by_cases h1 : m.number < cfg.agcPreset.length
  · simp only [List.getElem?_eq_getElem h1, Option.getD_some]
    by_cases h2 : speed < (cfg.agcPreset[m.number]).length
    · simp only [List.getElem?_eq_getElem h2, Option.getD_some]
      refine (le_foldl_max _ 0).2 _ (List.mem_map_of_mem (List.mem_flatten.2 ⟨_, List.getElem_mem h1, List.getElem_mem h2⟩))
    · rw [List.getElem?_eq_none (Nat.le_of_not_lt h2)]
      exact Nat.zero_le _
  · rw [List.getElem?_eq_none (Nat.le_of_not_lt h1)]
    exact Nat.zero_le _

theorem shl_mono {a b : Int} (s : Nat) (h : a ≤ b) : shl a s ≤ shl b s := by
  rw [shl_eq, shl_eq]
  exact Int.mul_le_mul_of_nonneg_right h (Int.le_of_lt (pow_pos_int s))

/-- Attack moves toward the magnitude without passing it, decay never goes below 0 (45_conditioner R214). -/
theorem agcUpdate_inRange {cfg : Config} {p : AgcPreset} (hp : p.hang ≤ cfg.maxHang) {c : Cond} (h : c.InRange cfg)
    {x : Int} (hx : Int16 x) : (agcUpdate cfg p c x).InRange cfg := by
  have ha := absI_eq x
  have hm : shl (absI x) cfg.agcFrac ≤ shl 32768 cfg.agcFrac := shl_mono _ (by
    rw [ha]
    obtain ⟨h1, h2⟩ := hx
    split <;> omega)
  obtain ⟨h1, h2, ⟨h3, h4⟩, h5⟩ := h
  simp only [agcUpdate]
  split
  · rename_i hlt
    have g1 := asr_nonneg p.attack (show 0 ≤ shl (absI x) cfg.agcFrac - c.agcHold by omega)
    have g2 := asr_self_le p.attack (show 0 ≤ shl (absI x) cfg.agcFrac - c.agcHold by omega)
    exact ⟨h1, h2, ⟨by simp only; omega, by simp only; omega⟩, hp⟩
  · split
    · exact ⟨h1, h2, ⟨h3, h4⟩, by simp only; omega⟩
    · have g1 := asr_nonneg p.decay h3
      have g2 := asr_self_le p.decay h3
      exact ⟨h1, h2, ⟨by simp only; omega, by simp only; omega⟩, h5⟩

theorem agc_inRange {cfg : Config} {p : AgcPreset} (hp : p.hang ≤ cfg.maxHang) {c : Cond} (h : c.InRange cfg)
    {x : Int} (hx : Int16 x) : (agc cfg p c x).1.InRange cfg ∧ Int16 (agc cfg p c x).2 :=
  ⟨agcUpdate_inRange hp h hx, sat16_int16 _⟩

theorem sqGate_int16 (c : Cond) {x : Int} (hx : Int16 x) : Int16 (sqGate c x) := by
  simp only [sqGate]
  split
  · exact hx
  · exact ⟨by decide, by decide⟩

/-- Scaling by n/256 with n ≤ 256 keeps an int16. -/
theorem scale256_int16 {x : Int} (hx : Int16 x) {n : Nat} (hn : n ≤ 256) : Int16 (asr (x * n) 8) := by
  obtain ⟨h1, h2⟩ := hx
  have hn' : (n : Int) ≤ 256 := by omega
  have a1 : -32768 * 256 ≤ x * n := by nlinarith
  have a2 : x * n ≤ 32767 * 256 := by nlinarith
  simp only [Int16, asr_eq]
  omega

theorem Config.volume_le {cfg : Config} (h : cfg.TablesOk) (i : Nat) : cfg.volume i ≤ 256 := by
  simp only [Config.volume]
  rw [List.getD_eq_getElem?_getD]
  by_cases hi : i < cfg.volTable.length
  · simpa [hi] using h.2.2.2.1 _ (List.getElem_mem hi)
  · rw [List.getElem?_eq_none (Nat.le_of_not_lt hi)]
    exact Nat.zero_le _

theorem volumeScale_int16 {cfg : Config} (h : cfg.TablesOk) (i : Nat) {x : Int} (hx : Int16 x) :
    Int16 (volumeScale cfg i x) := scale256_int16 hx (Config.volume_le h i)

/-! ### Stager -/

/-- Every point of a run lies between its ends (46_output_stager R236). -/
theorem interpolationRun_between (cfg : Config) (prev v : Int) :
    ∀ y ∈ interpolationRun cfg prev v, min prev v ≤ y ∧ y ≤ max prev v := by
  intro y hy
  obtain ⟨k, hk, rfl⟩ := List.mem_map.1 hy
  have hk' : k < cfg.interpL := List.mem_range.1 hk
  have hL : (0 : Int) < cfg.interpL := by omega
  have hkL : (k : Int) < cfg.interpL := by omega
  have b1 := Int.emod_add_mul_ediv ((v - prev) * k) cfg.interpL
  have b2 := Int.emod_nonneg ((v - prev) * k) (Int.ne_of_gt hL)
  have b3 := Int.emod_lt_of_pos ((v - prev) * k) hL
  generalize (v - prev) * (k : Int) / cfg.interpL = q at *
  generalize (v - prev) * (k : Int) % cfg.interpL = r at *
  have hk0 : (0 : Int) ≤ k := by omega
  rcases Int.le_total prev v with h | h
  · have c1 : 0 ≤ q := by
      by_contra hc
      nlinarith [mul_nonneg (show 0 ≤ v - prev by omega) hk0]
    have c2 : q ≤ v - prev := by
      by_contra hc
      nlinarith [mul_le_mul_of_nonneg_left (Int.le_of_lt hkL) (show 0 ≤ v - prev by omega)]
    omega
  · have c1 : q ≤ 0 := by
      by_contra hc
      nlinarith [mul_nonneg (show 0 ≤ prev - v by omega) hk0]
    have c2 : v - prev ≤ q := by
      by_contra hc
      nlinarith [mul_le_mul_of_nonneg_left (Int.le_of_lt hkL) (show 0 ≤ prev - v by omega)]
    omega

theorem interpolationRun_int16 (cfg : Config) {prev v : Int} (hp : Int16 prev) (hv : Int16 v) :
    ∀ y ∈ interpolationRun cfg prev v, Int16 y := by
  intro y hy
  have h := interpolationRun_between cfg prev v y hy
  simp only [Int16] at *
  omega

theorem interpolationRun_length (cfg : Config) (prev v : Int) : (interpolationRun cfg prev v).length = cfg.interpL := by
  simp [interpolationRun]

/-! ### What magnitudes are averaged and blended into -/

/-- A blend of two values of [0, B·2^16] stays there (47_spectrum R258). -/
theorem specBlend_range (shift : Nat) {acc mag B : Int} (ha : 0 ≤ acc ∧ acc ≤ B * 65536) (hm : 0 ≤ mag ∧ mag ≤ B) :
    0 ≤ specBlend shift acc mag ∧ specBlend shift acc mag ≤ B * 65536 := by
  have e : shl mag 16 = mag * 65536 := shl_eq mag 16
  have hp := pow_pos_int shift
  have hb := asr_bracket (shl mag 16 - acc) shift
  simp only [specBlend]
  rw [e] at *
  generalize asr (mag * 65536 - acc) shift = q at *
  generalize (2 : Int) ^ shift = w at *
  constructor <;> by_contra hc <;> rcases Int.le_total 0 q with h | h <;> nlinarith

/-- The accumulator's range, from that of the magnitudes of the captured bins (10_state R58, 47_spectrum R258). -/
theorem specAccumulate_inRange {B : Int} (hm : ∀ x, IQ.Int16 x → cordicMag x.re x.im ≤ B) (shift : Nat)
    {cap : Vector IQ 256} (hc : AllInt16 cap.toList) {u : Spectrum}
    (h : ∀ x ∈ u.acc.toList, 0 ≤ x ∧ x ≤ B * 65536) :
    ∀ x ∈ (specAccumulate shift cap u).acc.toList, 0 ≤ x ∧ x ≤ B * 65536 := by
  intro x hx
  obtain ⟨j, hj, rfl⟩ := List.mem_iff_getElem.1 hx
  simp only [specAccumulate, Vector.getElem_toList, Vector.getElem_ofFn]
  exact specBlend_range _ (h _ (by simp)) ⟨cordicMag_nonneg _ _, hm _ (hc _ (by simpa using Vector.getElem_mem _))⟩

/-- The average of n values of [0, B] lies there (45_conditioner R220). -/
theorem average_range {sum B : Int} {n : Nat} (hB : 0 ≤ B) (h : 0 ≤ sum ∧ sum ≤ B * n) :
    0 ≤ sum / n ∧ sum / n ≤ B := by
  refine ⟨Int.ediv_nonneg h.1 (Int.natCast_nonneg n), ?_⟩
  rcases Nat.eq_zero_or_pos n with rfl | hn
  · simpa using hB
  · exact Int.ediv_le_of_le_mul (by omega) h.2

/-! ### Ring -/

theorem rbPush_ok {cap : Nat} (hc : 0 < cap) {r : Ring} (h : r.Ok cap) (b : Byte) : (rbPush cap r b).Ok cap := by
  obtain ⟨h1, h2⟩ := h
  simp only [rbPush]
  split
  · exact ⟨Nat.mod_lt _ hc, by simp only; omega⟩
  · exact ⟨h1, by simp only; omega⟩

theorem rbPop_ok {cap : Nat} (hc : 0 < cap) {r : Ring} (h : r.Ok cap) (n : Nat) : (rbPop cap r n).1.Ok cap :=
  ⟨Nat.mod_lt _ hc, Nat.le_trans (Nat.sub_le _ _) h.2⟩

theorem usbTap_ok {cap : Nat} (hc : 0 < cap) {r : Ring} (h : r.Ok cap) (u : Usb) (x : Int) : (usbTap cap u r x).Ok cap :=
  rbPush_ok hc (rbPush_ok hc h _) _

end Sys2Proof.Machine
end

