-- ==== Sys2Proof/Laws/InputRanges.lean ====
section
/-! SUPPORT. The input units keep the ranges 10_state gives them: CIC decimator (R33), DC removal (R34), IQ corrector
(R35), filter input (R36). -/

namespace Sys2Proof.Machine

/-! ### CIC -/

theorem cicIntegrate_inRange {c : CicChannel} (h : c.InRange) (x : Int) : (cicIntegrate c x).InRange :=
  ⟨wrap32_range _, wrap32_range _, wrap32_range _, wrap32_range _, h.delay0, h.delay1, h.delay2, h.delay3⟩

theorem cicComb_inRange {c : CicChannel} (h : c.InRange) : (cicComb c).1.InRange :=
  ⟨h.integ0, h.integ1, h.integ2, h.integ3, h.integ3, wrap32_range _, wrap32_range _, wrap32_range _⟩

/-- A call that is not ready, and one that is (40_cic R112). -/
theorem cicDecimate_cases (cfg : Config) (u : Cic) (x : IQ) :
    (u.cnt + 1 < cfg.cicR ∧
      cicDecimate cfg u x = (⟨cicIntegrate u.chI x.re, cicIntegrate u.chQ x.im, u.cnt + 1⟩, none)) ∨
    (cfg.cicR ≤ u.cnt + 1 ∧
      cicDecimate cfg u x = (⟨(cicComb (cicIntegrate u.chI x.re)).1, (cicComb (cicIntegrate u.chQ x.im)).1, 0⟩,
        some ⟨cicScale cfg (cicComb (cicIntegrate u.chI x.re)).2, cicScale cfg (cicComb (cicIntegrate u.chQ x.im)).2⟩)) := by
  by_cases h : u.cnt + 1 < cfg.cicR
  · exact .inl ⟨h, by simp only [cicDecimate, if_pos h]⟩
  · exact .inr ⟨by omega, by simp only [cicDecimate, if_neg h]⟩

theorem cicDecimate_inRange (cfg : Config) {u : Cic} (hI : u.chI.InRange) (hQ : u.chQ.InRange) (hR : 1 ≤ cfg.cicR)
    (x : IQ) :
    (cicDecimate cfg u x).1.chI.InRange ∧ (cicDecimate cfg u x).1.chQ.InRange ∧
      (cicDecimate cfg u x).1.cnt < cfg.cicR := by
  rcases cicDecimate_cases cfg u x with ⟨h, he⟩ | ⟨h, he⟩ <;> rw [he]
  · exact ⟨cicIntegrate_inRange hI _, cicIntegrate_inRange hQ _, h⟩
  · exact ⟨cicComb_inRange (cicIntegrate_inRange hI _), cicComb_inRange (cicIntegrate_inRange hQ _), hR⟩

theorem cicDecimate_output (cfg : Config) (u : Cic) (x y : IQ) (h : (cicDecimate cfg u x).2 = some y) : IQ.Int16 y := by
  rcases cicDecimate_cases cfg u x with ⟨_, he⟩ | ⟨_, he⟩ <;> rw [he] at h
  · cases h
  · cases h
    exact ⟨sat16_int16 _, sat16_int16 _⟩

/-! ### DC removal -/

theorem adcSample_range (cfg : Config) (w : BitVec 16) : 0 ≤ adcSample cfg w ∧ adcSample cfg w < 2 ^ cfg.adcW := by
  have h : w.toNat % 2 ^ cfg.adcW < 2 ^ cfg.adcW := Nat.mod_lt _ (Nat.two_pow_pos _)
  have h' : ((w.toNat % 2 ^ cfg.adcW : Nat) : Int) < ((2 ^ cfg.adcW : Nat) : Int) := Int.ofNat_lt.2 h
  simp only [adcSample]
  push_cast at h' ⊢
  exact ⟨Int.emod_nonneg _ (Int.ne_of_gt (pow_pos_int _)), h'⟩

theorem deinterleave_range (cfg : Config) (swap : Bool) (w0 w1 : BitVec 16) :
    (0 ≤ (deinterleave cfg swap w0 w1).re ∧ (deinterleave cfg swap w0 w1).re < 2 ^ cfg.adcW) ∧
    (0 ≤ (deinterleave cfg swap w0 w1).im ∧ (deinterleave cfg swap w0 w1).im < 2 ^ cfg.adcW) := by
  cases swap
  · exact ⟨adcSample_range cfg w0, adcSample_range cfg w1⟩
  · exact ⟨adcSample_range cfg w1, adcSample_range cfg w0⟩

theorem dcRemove_range (cfg : Config) {d : DcRemoval} {x : IQ}
    (hI : 0 ≤ d.accI ∧ d.accI ≤ ((2 ^ (cfg.adcW + cfg.dcShift) : Nat) : Int))
    (hQ : 0 ≤ d.accQ ∧ d.accQ ≤ ((2 ^ (cfg.adcW + cfg.dcShift) : Nat) : Int))
    (hx : (0 ≤ x.re ∧ x.re < 2 ^ cfg.adcW) ∧ (0 ≤ x.im ∧ x.im < 2 ^ cfg.adcW)) :
    (0 ≤ (dcRemove cfg d x).1.accI ∧ (dcRemove cfg d x).1.accI ≤ ((2 ^ (cfg.adcW + cfg.dcShift) : Nat) : Int)) ∧
    (0 ≤ (dcRemove cfg d x).1.accQ ∧ (dcRemove cfg d x).1.accQ ≤ ((2 ^ (cfg.adcW + cfg.dcShift) : Nat) : Int)) ∧
    IQ.Int16 (dcRemove cfg d x).2 := by
  have e : ((2 ^ (cfg.adcW + cfg.dcShift) : Nat) : Int) = 2 ^ cfg.adcW * 2 ^ cfg.dcShift := by
    push_cast
    exact pow_add _ _ _
  rw [e] at hI hQ ⊢
  exact ⟨iirTrack_range hI hx.1, iirTrack_range hQ hx.2, sat16_int16 _, sat16_int16 _⟩

/-! ### IQ corrector -/

/-- The corrector's ranges (10_state R35). -/
structure IqCorr.InRange (u : IqCorr) : Prop where
  n : u.n < iqWin
  acc1 : absI u.acc1 ≤ (u.n : Int) * 32768
  acc2 : absI u.acc2 ≤ (u.n : Int) * 32768
  acc3 : absI u.acc3 ≤ (u.n : Int) * 32768
  f1 : absI u.f1 < 1073741824
  f2 : absI u.f2 < 1073741824
  f3 : absI u.f3 < 1073741824
  c1 : Int32Range u.c1
  c2 : Int32Range u.c2

/-- The window's low-pass filter keeps its accumulator below 2^30 in magnitude. -/
theorem iqTrack_range {f x : Int} (hf : absI f < 1073741824) (hx : absI x ≤ 16777216) :
    absI (iirTrack f x iqIirShift).1 < 1073741824 := by
  rw [iirTrack_fst, asr_eq, show (2 : Int) ^ iqIirShift = 32 from rfl]
  simp only [absI] at *
  omega

theorem iqUpdate_inRange {u : IqCorr} (h1 : absI u.acc1 ≤ 16777216) (h2 : absI u.acc2 ≤ 16777216)
    (h3 : absI u.acc3 ≤ 16777216) (f1 : absI u.f1 < 1073741824) (f2 : absI u.f2 < 1073741824)
    (f3 : absI u.f3 < 1073741824) : (iqUpdate u).InRange := by
  have g1 := iqTrack_range f1 h1
  have g2 := iqTrack_range f2 h2
  have g3 := iqTrack_range f3 h3
  simp only [iqUpdate]
  split
  · exact ⟨by simp, by simp [absI], by simp [absI], by simp [absI], g1, g2, g3, by simp [Int32Range],
      by simp [Int32Range]⟩
  · exact ⟨by simp, by simp [absI], by simp [absI], by simp [absI], g1, g2, g3,
      clamp_range _ (by decide), clamp_range _ (by decide)⟩

theorem iqEstimate_inRange {u : IqCorr} (h : u.InRange) {x : IQ} (hx : IQ.Int16 x) : (iqEstimate u x).InRange := by
  obtain ⟨hn, a1, a2, a3, f1, f2, f3, c1, c2⟩ := h
  obtain ⟨⟨r1, r2⟩, i1, i2⟩ := hx
  have b1 : absI (u.acc1 - sgn0 x.re * x.im) ≤ ((u.n + 1 : Nat) : Int) * 32768 := by
    simp only [absI, sgn0] at *
    split <;> omega
  have b2 : absI (u.acc2 + absI x.re) ≤ ((u.n + 1 : Nat) : Int) * 32768 := by
    simp only [absI] at *
    omega
  have b3 : absI (u.acc3 + absI x.im) ≤ ((u.n + 1 : Nat) : Int) * 32768 := by
    simp only [absI] at *
    omega
  simp only [iqEstimate]
  split
  · rename_i he
    have e : ((u.n + 1 : Nat) : Int) = 512 := by
      have : u.n + 1 = 512 := he
      omega
    rw [e] at b1 b2 b3
    exact iqUpdate_inRange b1 b2 b3 f1 f2 f3
  · rename_i he
    have : u.n + 1 < iqWin := by
      have : ¬ u.n + 1 = iqWin := he
      omega
    exact ⟨this, b1, b2, b3, f1, f2, f3, c1, c2⟩

theorem iqApply_int16 (u : IqCorr) (x : IQ) : IQ.Int16 (iqApply u x) := ⟨sat16_int16 _, sat16_int16 _⟩

theorem iqCorrect_inRange (b : Bool) {u : IqCorr} (h : u.InRange) {x : IQ} (hx : IQ.Int16 x) :
    (iqCorrect b u x).1.InRange ∧ IQ.Int16 (iqCorrect b u x).2 := by
  cases b
  · exact ⟨h, hx⟩
  · exact ⟨iqEstimate_inRange h hx, iqApply_int16 _ _⟩

/-! ### The front end and the CIC of one SAMPLE step -/

theorem Regs.InputInRange.iq {cfg : Config} {r : Regs} (h : r.InputInRange cfg) : r.iq.InRange :=
  ⟨h.iqN, h.iqAcc1, h.iqAcc2, h.iqAcc3, h.iqF1, h.iqF2, h.iqF3, h.iqC1, h.iqC2⟩

/-- SAMPLE's front end and CIC write dc, iq and cic, and nothing else. -/
theorem sampleInput_regs (cfg : Config) (r : Regs) (w0 w1 : BitVec 16) :
    (sampleInput cfg r w0 w1).1 =
      { r with
        dc := (sampleInput cfg r w0 w1).1.dc
        iq := (sampleInput cfg r w0 w1).1.iq
        cic := (sampleInput cfg r w0 w1).1.cic } := rfl

theorem sampleInput_inRange {cfg : Config} {r : Regs} (h : r.InputInRange cfg) (hR : 1 ≤ cfg.cicR) (w0 w1 : BitVec 16) :
    (sampleInput cfg r w0 w1).1.InputInRange cfg ∧ ∀ x, (sampleInput cfg r w0 w1).2 = some x → IQ.Int16 x := by
  have hd := dcRemove_range cfg h.dcI h.dcQ (deinterleave_range cfg r.act.swap w0 w1)
  have hq := iqCorrect_inRange r.act.iqCorr h.iq hd.2.2
  have hc := cicDecimate_inRange cfg h.chI h.chQ hR (frontend cfg r.act r.dc r.iq w0 w1).2.2
  exact ⟨⟨hc.1, hc.2.1, hc.2.2, hd.1, hd.2.1, hq.1.n, hq.1.acc1, hq.1.acc2, hq.1.acc3, hq.1.f1, hq.1.f2, hq.1.f3,
    hq.1.c1, hq.1.c2, h.finBuf, h.finCnt⟩, fun x hx => cicDecimate_output cfg _ _ x hx⟩

/-- A ready output enters the buffer: the buffer keeps its range and only fin changes. -/
theorem fillInput_inRange {cfg : Config} {r : Regs} (h : r.InputInRange cfg) {x : IQ} (hx : IQ.Int16 x) :
    (fillInput r x).1.InputInRange cfg := by
  have hb : AllInt16 (r.fin.buf.setIfInBounds r.fin.cnt x).toList := by
    intro y hy
    obtain ⟨k, hk, rfl⟩ := List.mem_iff_getElem.1 hy
    simp only [Vector.length_toList] at hk
    rw [Vector.getElem_toList, Vector.getElem_setIfInBounds hk]
    split
    · exact hx
    · exact h.finBuf _ (by rw [← Vector.getElem_toList (by simpa using hk)]; exact List.getElem_mem _)
  simp only [fillInput]
  split
  · exact { h with finBuf := hb, finCnt := by simp }
  · rename_i hc
    exact { h with finBuf := hb, finCnt := by have := h.finCnt; have : ¬ r.fin.cnt + 1 = fftH := hc; simp only at *; omega }

theorem fillInput_regs (r : Regs) (x : IQ) : (fillInput r x).1 = { r with fin := (fillInput r x).1.fin } := by
  simp only [fillInput]
  split <;> rfl

end Sys2Proof.Machine
end

