-- ==== Sys2Proof/Laws/State.lean ====
section
/-! SUPPORT. One lemma per field per named update of the state, and the laws of the four ports: later proofs cite these
and never unfold an update. -/

namespace Sys2Proof.Machine

/-! ### Ports -/
@[simp] theorem Ports.get_set_same (ps : Ports) (p : Port) (x : PortState) : (ps.set p x).get p = x := by
  cases p <;> rfl

theorem Ports.get_set_other (ps : Ports) {p q : Port} (x : PortState) (h : q ≠ p) : (ps.set p x).get q = ps.get q := by
  cases p <;> cases q <;> first | rfl | exact absurd rfl h
@[simp] theorem Ports.set_get_same (ps : Ports) (p : Port) : ps.set p (ps.get p) = ps := by
  cases p <;> rfl
@[simp] theorem PortState.finish_cmds (x : PortState) (ws : List Word) : (x.finish ws).cmds = x.cmds.tail := rfl
@[simp] theorem PortState.finish_replies (x : PortState) (ws : List Word) :
    (x.finish ws).replies = x.replies ++ [ws] := rfl

/-! ### finishPort and respond -/
@[simp] theorem State.finishPort_cfg (s : State) (p : Port) (ws : List Word) : (s.finishPort p ws).cfg = s.cfg := rfl
@[simp] theorem State.finishPort_regs (s : State) (p : Port) (ws : List Word) : (s.finishPort p ws).regs = s.regs := rfl
@[simp] theorem State.finishPort_raw (s : State) (p : Port) (ws : List Word) : (s.finishPort p ws).raw = s.raw := rfl
@[simp] theorem State.finishPort_audioOut (s : State) (p : Port) (ws : List Word) : (s.finishPort p ws).audioOut = s.audioOut := rfl
@[simp] theorem State.finishPort_ports (s : State) (p : Port) (ws : List Word) : (s.finishPort p ws).ports = s.ports.set p ((s.ports.get p).finish ws) := rfl
@[simp] theorem State.finishPort_cur (s : State) (p : Port) (ws : List Word) : (s.finishPort p ws).cur = s.cur := rfl
@[simp] theorem State.finishPort_sched (s : State) (p : Port) (ws : List Word) : (s.finishPort p ws).sched = s.sched := rfl
@[simp] theorem State.finishPort_turn (s : State) (p : Port) (ws : List Word) : (s.finishPort p ws).turn = s.turn := rfl
@[simp] theorem State.finishPort_acq (s : State) (p : Port) (ws : List Word) : (s.finishPort p ws).acq = s.acq := rfl
@[simp] theorem State.respond_cfg (s : State) (ws : List Word) : (s.respond ws).cfg = s.cfg := rfl
@[simp] theorem State.respond_regs (s : State) (ws : List Word) : (s.respond ws).regs = s.regs := rfl
@[simp] theorem State.respond_raw (s : State) (ws : List Word) : (s.respond ws).raw = s.raw := rfl
@[simp] theorem State.respond_audioOut (s : State) (ws : List Word) : (s.respond ws).audioOut = s.audioOut := rfl
@[simp] theorem State.respond_ports (s : State) (ws : List Word) : (s.respond ws).ports = s.ports.set s.cur ((s.ports.get s.cur).finish ws) := rfl
@[simp] theorem State.respond_cur (s : State) (ws : List Word) : (s.respond ws).cur = s.cur := rfl
@[simp] theorem State.respond_sched (s : State) (ws : List Word) : (s.respond ws).sched = s.sched := rfl
@[simp] theorem State.respond_turn (s : State) (ws : List Word) : (s.respond ws).turn = s.turn := rfl
@[simp] theorem State.respond_acq (s : State) (ws : List Word) : (s.respond ws).acq = s.acq := rfl

/-! ### recordErr, recordIf, raiseErr -/
@[simp] theorem State.recordErr_cfg (s : State) (e : Err) : (s.recordErr e).cfg = s.cfg := rfl
@[simp] theorem State.recordErr_regs (s : State) (e : Err) : (s.recordErr e).regs = { s.regs with status := recordBits s.regs.status e } := rfl
@[simp] theorem State.recordErr_raw (s : State) (e : Err) : (s.recordErr e).raw = s.raw := rfl
@[simp] theorem State.recordErr_audioOut (s : State) (e : Err) : (s.recordErr e).audioOut = s.audioOut := rfl
@[simp] theorem State.recordErr_ports (s : State) (e : Err) : (s.recordErr e).ports = s.ports := rfl
@[simp] theorem State.recordErr_cur (s : State) (e : Err) : (s.recordErr e).cur = s.cur := rfl
@[simp] theorem State.recordErr_sched (s : State) (e : Err) : (s.recordErr e).sched = s.sched := rfl
@[simp] theorem State.recordErr_turn (s : State) (e : Err) : (s.recordErr e).turn = s.turn := rfl
@[simp] theorem State.recordErr_acq (s : State) (e : Err) : (s.recordErr e).acq = s.acq := rfl
@[simp] theorem State.recordIf_cfg (s : State) (b : Bool) (e : Err) : (s.recordIf b e).cfg = s.cfg := by
  cases b <;> rfl

theorem State.recordIf_regs (s : State) (b : Bool) (e : Err) :
    (s.recordIf b e).regs = { s.regs with status := if b then recordBits s.regs.status e else s.regs.status } := by
  cases b <;> rfl
@[simp] theorem State.recordIf_raw (s : State) (b : Bool) (e : Err) : (s.recordIf b e).raw = s.raw := by
  cases b <;> rfl
@[simp] theorem State.recordIf_audioOut (s : State) (b : Bool) (e : Err) : (s.recordIf b e).audioOut = s.audioOut := by
  cases b <;> rfl
@[simp] theorem State.recordIf_ports (s : State) (b : Bool) (e : Err) : (s.recordIf b e).ports = s.ports := by
  cases b <;> rfl
@[simp] theorem State.recordIf_cur (s : State) (b : Bool) (e : Err) : (s.recordIf b e).cur = s.cur := by
  cases b <;> rfl
@[simp] theorem State.recordIf_sched (s : State) (b : Bool) (e : Err) : (s.recordIf b e).sched = s.sched := by
  cases b <;> rfl
@[simp] theorem State.recordIf_turn (s : State) (b : Bool) (e : Err) : (s.recordIf b e).turn = s.turn := by
  cases b <;> rfl
@[simp] theorem State.recordIf_acq (s : State) (b : Bool) (e : Err) : (s.recordIf b e).acq = s.acq := by
  cases b <;> rfl
@[simp] theorem State.raiseErr_cfg (s : State) (e : Err) : (s.raiseErr e).cfg = s.cfg := rfl
@[simp] theorem State.raiseErr_regs (s : State) (e : Err) : (s.raiseErr e).regs = { s.regs with status := recordBits s.regs.status e } := rfl
@[simp] theorem State.raiseErr_raw (s : State) (e : Err) : (s.raiseErr e).raw = s.raw := rfl
@[simp] theorem State.raiseErr_audioOut (s : State) (e : Err) : (s.raiseErr e).audioOut = s.audioOut := rfl
@[simp] theorem State.raiseErr_ports (s : State) (e : Err) : (s.raiseErr e).ports = s.ports.set s.cur ((s.ports.get s.cur).finish []) := rfl
@[simp] theorem State.raiseErr_cur (s : State) (e : Err) : (s.raiseErr e).cur = s.cur := rfl
@[simp] theorem State.raiseErr_sched (s : State) (e : Err) : (s.raiseErr e).sched = s.sched := rfl
@[simp] theorem State.raiseErr_turn (s : State) (e : Err) : (s.raiseErr e).turn = s.turn := rfl
@[simp] theorem State.raiseErr_acq (s : State) (e : Err) : (s.raiseErr e).acq = s.acq := rfl

/-! ### setPend -/
@[simp] theorem State.setPend_cfg (s : State) (x : Controls) (b : Bool) :
    (s.setPend x b).cfg = s.cfg := by
  cases b <;> rfl

theorem State.setPend_regs (s : State) (x : Controls) (b : Bool) :
    (s.setPend x b).regs =
      { s.regs with pend := x, status := if b then recordBits s.regs.status .clamped else s.regs.status } := by
  cases b <;> rfl
@[simp] theorem State.setPend_raw (s : State) (x : Controls) (b : Bool) :
    (s.setPend x b).raw = s.raw := by
  cases b <;> rfl
@[simp] theorem State.setPend_audioOut (s : State) (x : Controls) (b : Bool) :
    (s.setPend x b).audioOut = s.audioOut := by
  cases b <;> rfl
@[simp] theorem State.setPend_ports (s : State) (x : Controls) (b : Bool) :
    (s.setPend x b).ports = s.ports.set s.cur ((s.ports.get s.cur).finish []) := by
  cases b <;> rfl
@[simp] theorem State.setPend_cur (s : State) (x : Controls) (b : Bool) :
    (s.setPend x b).cur = s.cur := by
  cases b <;> rfl
@[simp] theorem State.setPend_sched (s : State) (x : Controls) (b : Bool) :
    (s.setPend x b).sched = s.sched := by
  cases b <;> rfl
@[simp] theorem State.setPend_turn (s : State) (x : Controls) (b : Bool) :
    (s.setPend x b).turn = s.turn := by
  cases b <;> rfl
@[simp] theorem State.setPend_acq (s : State) (x : Controls) (b : Bool) :
    (s.setPend x b).acq = s.acq := by
  cases b <;> rfl

/-! ### setLock, issue, pushAudio -/
@[simp] theorem State.setLock_cfg (s : State) (l : Lock) : (s.setLock l).cfg = s.cfg := rfl
@[simp] theorem State.setLock_regs (s : State) (l : Lock) : (s.setLock l).regs = { s.regs with spec := { s.regs.spec with lock := l } } := rfl
@[simp] theorem State.setLock_raw (s : State) (l : Lock) : (s.setLock l).raw = s.raw := rfl
@[simp] theorem State.setLock_audioOut (s : State) (l : Lock) : (s.setLock l).audioOut = s.audioOut := rfl
@[simp] theorem State.setLock_ports (s : State) (l : Lock) : (s.setLock l).ports = s.ports := rfl
@[simp] theorem State.setLock_cur (s : State) (l : Lock) : (s.setLock l).cur = s.cur := rfl
@[simp] theorem State.setLock_sched (s : State) (l : Lock) : (s.setLock l).sched = s.sched := rfl
@[simp] theorem State.setLock_turn (s : State) (l : Lock) : (s.setLock l).turn = s.turn := rfl
@[simp] theorem State.setLock_acq (s : State) (l : Lock) : (s.setLock l).acq = s.acq := rfl
@[simp] theorem State.issue_cfg (s : State) (p : Port) (w : Word) : (s.issue p w).cfg = s.cfg := rfl
@[simp] theorem State.issue_regs (s : State) (p : Port) (w : Word) : (s.issue p w).regs = s.regs := rfl
@[simp] theorem State.issue_raw (s : State) (p : Port) (w : Word) : (s.issue p w).raw = s.raw := rfl
@[simp] theorem State.issue_audioOut (s : State) (p : Port) (w : Word) : (s.issue p w).audioOut = s.audioOut := rfl
@[simp] theorem State.issue_ports (s : State) (p : Port) (w : Word) : (s.issue p w).ports = s.ports.set p { s.ports.get p with cmds := w :: (s.ports.get p).cmds } := rfl
@[simp] theorem State.issue_cur (s : State) (p : Port) (w : Word) : (s.issue p w).cur = s.cur := rfl
@[simp] theorem State.issue_sched (s : State) (p : Port) (w : Word) : (s.issue p w).sched = s.sched := rfl
@[simp] theorem State.issue_turn (s : State) (p : Port) (w : Word) : (s.issue p w).turn = s.turn := rfl
@[simp] theorem State.issue_acq (s : State) (p : Port) (w : Word) : (s.issue p w).acq = s.acq := rfl
@[simp] theorem State.pushAudio_cfg (s : State) (c : Int) : (s.pushAudio c).cfg = s.cfg := rfl
@[simp] theorem State.pushAudio_regs (s : State) (c : Int) : (s.pushAudio c).regs =
      { s.regs with stager := { s.regs.stager with outIdx := s.regs.stager.outIdx + 1 } } := rfl
@[simp] theorem State.pushAudio_raw (s : State) (c : Int) : (s.pushAudio c).raw = s.raw := rfl
@[simp] theorem State.pushAudio_audioOut (s : State) (c : Int) : (s.pushAudio c).audioOut =
      s.audioOut.write s.regs.stager.outIdx (BitVec.ofInt 24 c) := rfl
@[simp] theorem State.pushAudio_ports (s : State) (c : Int) : (s.pushAudio c).ports = s.ports := rfl
@[simp] theorem State.pushAudio_cur (s : State) (c : Int) : (s.pushAudio c).cur = s.cur := rfl
@[simp] theorem State.pushAudio_sched (s : State) (c : Int) : (s.pushAudio c).sched = s.sched := rfl
@[simp] theorem State.pushAudio_turn (s : State) (c : Int) : (s.pushAudio c).turn = s.turn := rfl
@[simp] theorem State.pushAudio_acq (s : State) (c : Int) : (s.pushAudio c).acq = s.acq := rfl

/-! ### tick -/
@[simp] theorem State.tick_cfg (s : State) : s.tick.cfg = s.cfg := by
  unfold State.tick; split <;> rfl
@[simp] theorem State.tick_regs (s : State) : s.tick.regs = s.regs := by
  unfold State.tick; split <;> rfl
@[simp] theorem State.tick_raw (s : State) : s.tick.raw = s.raw := by
  unfold State.tick; split <;> rfl
@[simp] theorem State.tick_audioOut (s : State) : s.tick.audioOut = s.audioOut := by
  unfold State.tick; split <;> rfl
@[simp] theorem State.tick_ports (s : State) : s.tick.ports = s.ports := by
  unfold State.tick; split <;> rfl
@[simp] theorem State.tick_cur (s : State) : s.tick.cur = s.cur := by
  unfold State.tick; split <;> rfl
@[simp] theorem State.tick_acq (s : State) : s.tick.acq = s.acq := by
  unfold State.tick; split <;> rfl

/-- The schedule loses its head, if it has one. -/
theorem State.tick_sched (s : State) : s.tick.sched = s.sched.tail := by
  unfold State.tick; split <;> simp_all

/-! ### abortBlock -/
@[simp] theorem State.abortBlock_cfg (s : State) : s.abortBlock.cfg = s.cfg := by
  unfold State.abortBlock; split <;> rfl
@[simp] theorem State.abortBlock_regs (s : State) : s.abortBlock.regs = s.regs := by
  unfold State.abortBlock; split <;> rfl
@[simp] theorem State.abortBlock_raw (s : State) : s.abortBlock.raw = s.raw := by
  unfold State.abortBlock; split <;> rfl
@[simp] theorem State.abortBlock_audioOut (s : State) : s.abortBlock.audioOut = s.audioOut := by
  unfold State.abortBlock; split <;> rfl

theorem State.abortBlock_ports (s : State) :
    s.abortBlock.ports =
      if s.regs.seq ≠ .idle ∧ s.regs.seqPort ≠ s.cur then
        s.ports.set s.regs.seqPort ((s.ports.get s.regs.seqPort).finish [])
      else s.ports := by
  unfold State.abortBlock; split <;> rfl
@[simp] theorem State.abortBlock_cur (s : State) : s.abortBlock.cur = s.cur := by
  unfold State.abortBlock; split <;> rfl
@[simp] theorem State.abortBlock_sched (s : State) : s.abortBlock.sched = s.sched := by
  unfold State.abortBlock; split <;> rfl
@[simp] theorem State.abortBlock_turn (s : State) : s.abortBlock.turn = s.turn := by
  unfold State.abortBlock; split <;> rfl
@[simp] theorem State.abortBlock_acq (s : State) : s.abortBlock.acq = s.acq := by
  unfold State.abortBlock; split <;> rfl

/-! ### The block steps -/
@[simp] theorem beginStep_cfg (s : State) : (beginStep s).cfg = s.cfg := rfl
@[simp] theorem beginStep_regs (s : State) : (beginStep s).regs = beginRegs s.cfg s.regs := rfl
@[simp] theorem beginStep_raw (s : State) : (beginStep s).raw = s.raw := rfl
@[simp] theorem beginStep_audioOut (s : State) : (beginStep s).audioOut = s.audioOut := rfl
@[simp] theorem beginStep_ports (s : State) : (beginStep s).ports = s.ports := rfl
@[simp] theorem beginStep_cur (s : State) : (beginStep s).cur = s.cur := rfl
@[simp] theorem beginStep_sched (s : State) : (beginStep s).sched = s.sched := rfl
@[simp] theorem beginStep_turn (s : State) : (beginStep s).turn = s.turn := rfl
@[simp] theorem beginStep_acq (s : State) : (beginStep s).acq = s.acq := rfl
@[simp] theorem endStep_cfg (s : State) : (endStep s).cfg = s.cfg := rfl
@[simp] theorem endStep_regs (s : State) : (endStep s).regs = endRegs s.cfg s.regs := rfl
@[simp] theorem endStep_raw (s : State) : (endStep s).raw = s.raw := rfl
@[simp] theorem endStep_audioOut (s : State) : (endStep s).audioOut = s.audioOut := rfl
@[simp] theorem endStep_ports (s : State) : (endStep s).ports = s.ports := rfl
@[simp] theorem endStep_cur (s : State) : (endStep s).cur = s.cur := rfl
@[simp] theorem endStep_sched (s : State) : (endStep s).sched = s.sched := rfl
@[simp] theorem endStep_turn (s : State) : (endStep s).turn = s.turn := rfl
@[simp] theorem endStep_acq (s : State) : (endStep s).acq = s.acq := rfl

end Sys2Proof.Machine
end

