-- ==== Sys2Proof/Laws/Memory.lean ====
section
/-! SUPPORT. The laws of indexed storage (20_memory R71, R72, R74): a read after a write to the same index gives the
value written, a write leaves every other index alone and keeps the canonical form; the memories after reset have it. -/

namespace Sys2Proof.Machine

variable {w : Nat}

@[simp] theorem Memory.read_nil (a : Nat) : Memory.read ([] : Memory w) a = Memory.unlisted w := rfl

/-- An index below every listed one reads as unlisted. -/
theorem Memory.read_below {m : Memory w} {a : Nat} (h : ∀ c ∈ m, a < c.1) : Memory.read m a = Memory.unlisted w := by
  induction m with
  | nil => rfl
  | cons c m ih =>
    obtain ⟨b, v⟩ := c
    have hb : a < b := h (b, v) (by simp)
    simp only [Memory.read, if_neg (by omega : ¬ a = b)]
    exact ih fun c hc => h c (by simp [hc])

/-- A read after a write to the same index gives the value written. -/
theorem Memory.read_write_same (m : Memory w) (hm : Memory.wf m) (a : Nat) (v : BitVec w) :
    Memory.read (Memory.write m a v) a = v := by
  induction m with
  | nil => by_cases hv : v = Memory.unlisted w <;> simp [Memory.write, Memory.read, hv]
  | cons c m ih =>
    obtain ⟨b, x⟩ := c
    obtain ⟨hp, hn⟩ := hm
    rw [List.pairwise_cons] at hp
    have hm' : Memory.wf m := ⟨hp.2, fun c hc => hn c (by simp [hc])⟩
    simp only [Memory.write]
    split
    · split
      · rename_i hlt hv
        rw [hv]
        refine Memory.read_below fun c hc => ?_
        rcases List.mem_cons.1 hc with rfl | hc
        · exact hlt
        · exact Nat.lt_trans hlt (hp.1 c hc)
      · simp [Memory.read]
    · split
      · rename_i hab
        split
        · rename_i hv
          rw [hv]
          exact Memory.read_below fun c hc => hab ▸ hp.1 c hc
        · simp [Memory.read]
      · rename_i hab
        simp only [Memory.read, if_neg hab]
        exact ih hm'

/-- A write leaves every other index alone. -/
theorem Memory.read_write_other (m : Memory w) {a k : Nat} (v : BitVec w) (h : k ≠ a) :
    Memory.read (Memory.write m a v) k = Memory.read m k := by
  induction m with
  | nil => by_cases hv : v = Memory.unlisted w <;> simp [Memory.write, Memory.read, hv, h]
  | cons c m ih =>
    obtain ⟨b, x⟩ := c
    simp only [Memory.write]
    split
    · split <;> simp [Memory.read, h]
    · split
      · rename_i hab
        subst hab
        split <;> simp [Memory.read, h]
      · simp only [Memory.read, ih]

/-- A read after a write, both cases. -/
theorem Memory.read_write (m : Memory w) (hm : Memory.wf m) (a k : Nat) (v : BitVec w) :
    Memory.read (Memory.write m a v) k = if k = a then v else Memory.read m k := by
  split
  · rename_i h
    rw [h, Memory.read_write_same m hm]
  · rename_i h
    exact Memory.read_write_other m v h

/-- What a write can list: the entry written, and what was listed before. -/
theorem Memory.mem_write {m : Memory w} {a : Nat} {v : BitVec w} {c : Nat × BitVec w} (h : c ∈ Memory.write m a v) :
    c = (a, v) ∧ v ≠ Memory.unlisted w ∨ c ∈ m := by
  induction m with
  | nil =>
    simp only [Memory.write] at h
    split at h
    · cases h
    · rename_i hv
      exact .inl ⟨List.mem_singleton.1 h, hv⟩
  | cons b m ih =>
    obtain ⟨b, x⟩ := b
    simp only [Memory.write] at h
    split at h
    · split at h
      · exact .inr h
      · rename_i hv
        rcases List.mem_cons.1 h with h | h
        · exact .inl ⟨h, hv⟩
        · exact .inr h
    · split at h
      · split at h
        · exact .inr (List.mem_cons_of_mem _ h)
        · rename_i hv
          rcases List.mem_cons.1 h with h | h
          · exact .inl ⟨h, hv⟩
          · exact .inr (List.mem_cons_of_mem _ h)
      · rcases List.mem_cons.1 h with h | h
        · exact .inr (h ▸ List.mem_cons_self)
        · exact (ih h).imp_right (List.mem_cons_of_mem _)

/-- A write keeps the canonical form. -/
theorem Memory.wf_write (m : Memory w) (hm : Memory.wf m) (a : Nat) (v : BitVec w) : Memory.wf (Memory.write m a v) := by
  refine ⟨?_, fun c hc => ?_⟩
  · induction m with
    | nil => by_cases hv : v = Memory.unlisted w <;> simp [Memory.write, hv]
    | cons c m ih =>
      obtain ⟨b, x⟩ := c
      obtain ⟨hp, hn⟩ := hm
      have hp' := List.pairwise_cons.1 hp
      have hm' : Memory.wf m := ⟨hp'.2, fun c hc => hn c (by simp [hc])⟩
      simp only [Memory.write]
      split
      · split
        · exact hp
        · rename_i hlt _
          refine List.pairwise_cons.2 ⟨fun c hc => ?_, hp⟩
          rcases List.mem_cons.1 hc with rfl | hc
          · exact hlt
          · exact Nat.lt_trans hlt (hp'.1 c hc)
      · split
        · rename_i hab
          split
          · exact hp'.2
          · exact List.pairwise_cons.2 ⟨fun c hc => hab ▸ hp'.1 c hc, hp'.2⟩
        · rename_i hlt hne
          refine List.pairwise_cons.2 ⟨fun c hc => ?_, ih hm'⟩
          rcases Memory.mem_write hc with ⟨rfl, _⟩ | hc
          · show b < a
            omega
          · exact hp'.1 c hc
  · rcases Memory.mem_write hc with ⟨rfl, hv⟩ | hc
    · exact hv
    · exact hm.2 c hc

/-- A write keeps every listed index below a bound that the written index keeps too. -/
theorem Memory.listed_write {m : Memory w} {a n : Nat} {v : BitVec w} (ha : a < n) (hm : ∀ c ∈ m, c.1 < n) :
    ∀ c ∈ Memory.write m a v, c.1 < n := by
  intro c hc
  rcases Memory.mem_write hc with ⟨rfl, _⟩ | hc
  · exact ha
  · exact hm c hc

/-- Equal reads make equal canonical memories: the canonical form is one form. -/
theorem Memory.ext_read {m m' : Memory w} (hm : Memory.wf m) (hm' : Memory.wf m')
    (h : ∀ a, Memory.read m a = Memory.read m' a) : m = m' := by
  induction m generalizing m' with
  | nil =>
    cases m' with
    | nil => rfl
    | cons c m' => exact absurd (by simpa [Memory.read] using (h c.1).symm) (hm'.2 c (by simp))
  | cons c m ih =>
    cases m' with
    | nil => exact absurd (by simpa [Memory.read] using h c.1) (hm.2 c (by simp))
    | cons c' m' =>
      obtain ⟨b, x⟩ := c
      obtain ⟨b', x'⟩ := c'
      have hp := List.pairwise_cons.1 hm.1
      have hp' := List.pairwise_cons.1 hm'.1
      have hx : x ≠ Memory.unlisted w := hm.2 (b, x) (by simp)
      have hx' : x' ≠ Memory.unlisted w := hm'.2 (b', x') (by simp)
      have hbb : b = b' := by
        rcases Nat.lt_trichotomy b b' with hlt | heq | hlt
        · have h1 := h b
          rw [Memory.read_below (m := (b', x') :: m') (a := b)] at h1
          · exact absurd (by simpa [Memory.read] using h1) hx
          · intro c hc
            rcases List.mem_cons.1 hc with rfl | hc
            · exact hlt
            · exact Nat.lt_trans hlt (hp'.1 c hc)
        · exact heq
        · have h1 := h b'
          rw [Memory.read_below (m := (b, x) :: m) (a := b')] at h1
          · exact absurd (by simpa [Memory.read] using h1.symm) hx'
          · intro c hc
            rcases List.mem_cons.1 hc with rfl | hc
            · exact hlt
            · exact Nat.lt_trans hlt (hp.1 c hc)
      subst hbb
      have hxx : x = x' := by simpa [Memory.read] using h b
      subst hxx
      congr 1
      refine ih ⟨hp.2, fun c hc => hm.2 c (by simp [hc])⟩ ⟨hp'.2, fun c hc => hm'.2 c (by simp [hc])⟩ fun a => ?_
      by_cases hab : a = b
      · subst hab
        rw [Memory.read_below hp.1, Memory.read_below hp'.1]
      · simpa [Memory.read, hab] using h a

/-- The memories after reset are canonical. -/
theorem State.resetWith_canonical (c : Config) : (State.resetWith c).MemoriesCanonical := by
  refine ⟨⟨?_, ?_⟩, ⟨?_, ?_⟩, ⟨?_, ?_⟩⟩ <;> simp [State.resetWith, Regs.reset]

theorem State.reset_canonical : State.reset.MemoriesCanonical := State.resetWith_canonical _

end Sys2Proof.Machine
end

