-- ==== Sys2Proof/Laws/Block.lean ====
section
/-! SUPPORT. What each step of PROCESS_BLOCK can do (48_commands R266 to R269), said once: which parts of the state a
SAMPLE step writes, how many AUDIO_OUT entries, and how its counters move. -/

namespace Sys2Proof.Machine

/-! ### AUDIO_OUT -/

/-- The entries of a run written from index k on. -/
def pushRun (m : Memory 24) (k : Nat) : List Int → Memory 24
  | [] => m
  | p :: ps => pushRun (m.write k (BitVec.ofInt 24 p)) (k + 1) ps

theorem pushRun_wf {m : Memory 24} (h : m.wf) (k : Nat) (ps : List Int) : (pushRun m k ps).wf := by
  induction ps generalizing m k with
  | nil => exact h
  | cons p ps ih => exact ih (Memory.wf_write m h _ _) _

theorem pushRun_listed {m : Memory 24} {k n : Nat} {ps : List Int} (hk : k + ps.length ≤ n)
    (h : ∀ c ∈ m, c.1 < n) : ∀ c ∈ pushRun m k ps, c.1 < n := by
  induction ps generalizing m k with
  | nil => exact h
  | cons p ps ih =>
    simp only [List.length_cons] at hk
    exact ih (by omega) (Memory.listed_write (by omega) h)

/-- A run leaves every entry outside it alone. -/
theorem pushRun_read_outside {m : Memory 24} {k a : Nat} {ps : List Int} (h : a < k ∨ k + ps.length ≤ a) :
    (pushRun m k ps).read a = m.read a := by
  induction ps generalizing m k with
  | nil => rfl
  | cons p ps ih =>
    simp only [List.length_cons] at h
    rw [pushRun, ih (by omega), Memory.read_write_other _ _ (by omega)]

/-- A run leaves its points in its entries. -/
theorem pushRun_read_inside {m : Memory 24} (hm : m.wf) {k n : Nat} {ps : List Int} (h : n < ps.length) :
    (pushRun m k ps).read (k + n) = BitVec.ofInt 24 (ps.getD n 0) := by
  induction ps generalizing m k n with
  | nil => simp at h
  | cons p ps ih =>
    cases n with
    | zero =>
      rw [pushRun, pushRun_read_outside (.inl (by omega)), Nat.add_zero, Memory.read_write_same m hm]
      rfl
    | succ n =>
      have := ih (Memory.wf_write m hm k (BitVec.ofInt 24 p)) (k := k + 1) (n := n) (by simpa using h)
      rw [pushRun, show k + (n + 1) = k + 1 + n by omega, this]
      rfl

theorem pushRun_append (m : Memory 24) (k : Nat) (ps qs : List Int) :
    pushRun m k (ps ++ qs) = pushRun (pushRun m k ps) (k + ps.length) qs := by
  induction ps generalizing m k with
  | nil => rfl
  | cons p ps ih =>
    rw [List.cons_append, pushRun, pushRun, ih, List.length_cons]
    congr 1
    omega

/-- A chain of pushes is one run. -/
theorem foldl_pushAudio (s : State) (ys : List Int) :
    ys.foldl (fun t y => t.pushAudio (pwmCount t.regs.act.pwm y)) s =
      { s with
        audioOut := pushRun s.audioOut s.regs.stager.outIdx (ys.map (pwmCount s.regs.act.pwm))
        regs := { s.regs with stager := { s.regs.stager with outIdx := s.regs.stager.outIdx + ys.length } } } := by
  induction ys generalizing s with
  | nil => rfl
  | cons y ys ih =>
    rw [List.foldl_cons, ih]
    simp only [State.pushAudio, List.map_cons, pushRun, List.length_cons, State.mk.injEq, Regs.mk.injEq, Stager.mk.injEq,
      true_and, and_true]
    omega

/-- The counts one conditioned sample sends to AUDIO_OUT (46_output_stager R236, R238). -/
def runCounts (cfg : Config) (pwm : Nat) (prev v : Int) : List Int := (interpolationRun cfg prev v).map (pwmCount pwm)

theorem runCounts_length (cfg : Config) (pwm : Nat) (prev v : Int) : (runCounts cfg pwm prev v).length = cfg.interpL := by
  simp [runCounts, interpolationRun_length]

/-- INTERPOLATE writes one run to AUDIO_OUT and the stager's two registers, and nothing else. -/
theorem interpolate_eq (s : State) (v : Int) :
    interpolate s v =
      { s with
        audioOut := pushRun s.audioOut s.regs.stager.outIdx (runCounts s.cfg s.regs.act.pwm s.regs.stager.interpPrev v)
        regs := { s.regs with stager := ⟨v, s.regs.stager.outIdx + s.cfg.interpL⟩ } } := by
  simp only [interpolate, foldl_pushAudio, interpolationRun_length, runCounts]

/-! ### One output pair -/

/-- The registers after one channel-filter output pair. -/
def outputRegs (cfg : Config) (r : Regs) (x : IQ) : Regs :=
  let a := audioSample cfg r x
  { r with
    pub := sigAccum r.pub x
    demod := a.1.demod
    cond := a.1.cond
    ring := usbTap cfg.rbCap r.usb r.ring a.2
    stager := ⟨volumeScale cfg r.act.volume a.2, r.stager.outIdx + cfg.interpL⟩ }

/-- The counts one output pair sends to AUDIO_OUT. -/
def outputCounts (cfg : Config) (r : Regs) (x : IQ) : List Int :=
  runCounts cfg r.act.pwm r.stager.interpPrev (volumeScale cfg r.act.volume (audioSample cfg r x).2)

theorem outputCounts_length (cfg : Config) (r : Regs) (x : IQ) : (outputCounts cfg r x).length = cfg.interpL :=
  runCounts_length _ _ _ _

theorem outputPair_eq (s : State) (x : IQ) :
    outputPair s x =
      { s with
        audioOut := pushRun s.audioOut s.regs.stager.outIdx (outputCounts s.cfg s.regs x)
        regs := outputRegs s.cfg s.regs x } := by
  simp only [outputPair, interpolate_eq, outputCounts, outputRegs, audioSample]

/-- The registers after a list of output pairs. -/
def outputsRegs (cfg : Config) (r : Regs) (xs : List IQ) : Regs := xs.foldl (outputRegs cfg) r

/-- The counts a list of output pairs sends to AUDIO_OUT. -/
def outputsCounts (cfg : Config) : Regs → List IQ → List Int
  | _, [] => []
  | r, x :: xs => outputCounts cfg r x ++ outputsCounts cfg (outputRegs cfg r x) xs

theorem outputsCounts_length (cfg : Config) (r : Regs) (xs : List IQ) :
    (outputsCounts cfg r xs).length = xs.length * cfg.interpL := by
  induction xs generalizing r with
  | nil => simp [outputsCounts]
  | cons x xs ih =>
    rw [outputsCounts, List.length_append, outputCounts_length, ih, List.length_cons, Nat.add_mul, Nat.one_mul,
      Nat.add_comm]

theorem foldl_outputPair (s : State) (xs : List IQ) :
    xs.foldl outputPair s =
      { s with
        audioOut := pushRun s.audioOut s.regs.stager.outIdx (outputsCounts s.cfg s.regs xs)
        regs := outputsRegs s.cfg s.regs xs } := by
  induction xs generalizing s with
  | nil => rfl
  | cons x xs ih =>
    rw [List.foldl_cons, ih, outputPair_eq]
    simp only [outputsCounts, outputsRegs, List.foldl_cons, pushRun_append, outputCounts_length]
    rfl

/-- Outputs write pub, demod, cond, ring and stager, and nothing else. -/
theorem outputsRegs_frame (cfg : Config) (r : Regs) (xs : List IQ) :
    outputsRegs cfg r xs =
      { r with
        pub := (outputsRegs cfg r xs).pub
        demod := (outputsRegs cfg r xs).demod
        cond := (outputsRegs cfg r xs).cond
        ring := (outputsRegs cfg r xs).ring
        stager := (outputsRegs cfg r xs).stager } := by
  induction xs generalizing r with
  | nil => rfl
  | cons x xs ih =>
    simp only [outputsRegs, List.foldl_cons] at ih ⊢
    rw [ih]
    rfl

/-- How the counters move: one more magnitude and INTERP_L more entries for each pair. -/
theorem outputsRegs_counts (cfg : Config) (r : Regs) (xs : List IQ) :
    (outputsRegs cfg r xs).pub.magCnt = r.pub.magCnt + xs.length ∧
      (outputsRegs cfg r xs).stager.outIdx = r.stager.outIdx + xs.length * cfg.interpL := by
  induction xs generalizing r with
  | nil => simp [outputsRegs]
  | cons x xs ih =>
    have h := ih (outputRegs cfg r x)
    simp only [outputsRegs, List.foldl_cons] at h ⊢
    rw [h.1, h.2]
    simp only [outputRegs, sigAccum, List.length_cons, Nat.add_mul]
    omega

/-- The published values are not touched before END (70_reset_and_hazards R338). -/
theorem outputsRegs_published (cfg : Config) (r : Regs) (xs : List IQ) :
    (outputsRegs cfg r xs).pub.sigEst = r.pub.sigEst ∧ (outputsRegs cfg r xs).pub.sigDbm = r.pub.sigDbm ∧
      (outputsRegs cfg r xs).pub.sqOpen = r.pub.sqOpen := by
  induction xs generalizing r with
  | nil => exact ⟨rfl, rfl, rfl⟩
  | cons x xs ih => exact ih (outputRegs cfg r x)

/-- The squelch state is constant within a block (45_conditioner R217). -/
theorem outputRegs_sqOpen (cfg : Config) (r : Regs) (x : IQ) : (outputRegs cfg r x).cond.sqOpen = r.cond.sqOpen := by
  simp only [outputRegs, audioSample, agc, agcUpdate, deemphasis]
  split <;> split <;> (try split) <;> rfl

theorem outputsRegs_sqOpen (cfg : Config) (r : Regs) (xs : List IQ) :
    (outputsRegs cfg r xs).cond.sqOpen = r.cond.sqOpen := by
  induction xs generalizing r with
  | nil => rfl
  | cons x xs ih =>
    rw [outputsRegs, List.foldl_cons]
    exact (ih _).trans (outputRegs_sqOpen cfg r x)

/-! ### The gated samples of a list of outputs -/

theorem gatedSamples_length (cfg : Config) (r : Regs) (xs : List IQ) : (gatedSamples cfg r xs).length = xs.length := by
  induction xs generalizing r with
  | nil => rfl
  | cons x xs ih => rw [gatedSamples, List.length_cons, ih, List.length_cons]

/-- An audio sample depends on the demodulator, the conditioner, the active and the latched registers only. -/
theorem audioSample_congr (cfg : Config) {r u : Regs} (x : IQ) (a : u.demod = r.demod) (b : u.cond = r.cond)
    (c : u.act = r.act) (d : u.latched = r.latched) :
    (audioSample cfg u x).2 = (audioSample cfg r x).2 ∧ (audioSample cfg u x).1.demod = (audioSample cfg r x).1.demod ∧
      (audioSample cfg u x).1.cond = (audioSample cfg r x).1.cond ∧ (audioSample cfg u x).1.act = (audioSample cfg r x).1.act ∧
      (audioSample cfg u x).1.latched = (audioSample cfg r x).1.latched := by
  simp only [audioSample, a, b, c, d, and_self]

theorem gatedSamples_congr (cfg : Config) {r u : Regs} (xs : List IQ) (a : u.demod = r.demod) (b : u.cond = r.cond)
    (c : u.act = r.act) (d : u.latched = r.latched) : gatedSamples cfg u xs = gatedSamples cfg r xs := by
  induction xs generalizing r u with
  | nil => rfl
  | cons x xs ih =>
    obtain ⟨h1, h2, h3, h4, h5⟩ := audioSample_congr cfg x a b c d
    rw [gatedSamples, gatedSamples, h1, ih h2 h3 h4 h5]

/-- The gated samples after the first are those from the registers after the first output pair. -/
theorem gatedSamples_cons (cfg : Config) (r : Regs) (x : IQ) (xs : List IQ) :
    gatedSamples cfg r (x :: xs) = (audioSample cfg r x).2 :: gatedSamples cfg (outputRegs cfg r x) xs := by
  rw [gatedSamples]
  exact congrArg _ (gatedSamples_congr cfg xs rfl rfl rfl rfl)

/-- With the squelch closed every gated sample is 0 (45_conditioner R218). -/
theorem gatedSamples_closed (cfg : Config) {r : Regs} (xs : List IQ) (h : r.cond.sqOpen = false) :
    ∀ y ∈ gatedSamples cfg r xs, y = 0 := by
  induction xs generalizing r with
  | nil => exact fun _ hy => nomatch hy
  | cons x xs ih =>
    have h1 : (audioSample cfg r x).1.cond.sqOpen = false := (outputRegs_sqOpen cfg r x).trans h
    intro y hy
    rcases List.mem_cons.1 hy with rfl | hy
    · exact if_neg (Bool.eq_false_iff.1 h1)
    · exact ih h1 y hy

theorem usbTap_eq (cap : Nat) (u : Usb) (r : Ring) (x : Int) : usbTap cap u r x = (usbBytes u x).foldl (rbPush cap) r := by
  simp only [usbTap, usbBytes, usbSample, asr_eq, List.foldl_cons, List.foldl_nil]
  rfl

/-- The ring after a list of outputs: every gated sample's two bytes pushed, in order (46_output_stager R240). -/
theorem outputsRegs_ring (cfg : Config) (r : Regs) (xs : List IQ) :
    (outputsRegs cfg r xs).ring = ((gatedSamples cfg r xs).flatMap (usbBytes r.usb)).foldl (rbPush cfg.rbCap) r.ring := by
  induction xs generalizing r with
  | nil => rfl
  | cons x xs ih =>
    rw [outputsRegs, List.foldl_cons, gatedSamples_cons, List.flatMap_cons, List.foldl_append, ← usbTap_eq]
    exact ih (outputRegs cfg r x)

/-- The conditioned sample of output m, the previous call's last where m is 0 (45_conditioner R225, 10_state R56). -/
def conditioned (cfg : Config) (volume : Nat) (prev : Int) (xs : List Int) (m : Nat) : Int :=
  if m = 0 then prev else volumeScale cfg volume (xs.getD (m - 1) 0)

/-- The stager after a list of outputs keeps the last conditioned sample (46_output_stager R236). -/
theorem outputsRegs_interpPrev (cfg : Config) (r : Regs) (xs : List IQ) :
    (outputsRegs cfg r xs).stager.interpPrev =
      conditioned cfg r.act.volume r.stager.interpPrev (gatedSamples cfg r xs) xs.length := by
  induction xs generalizing r with
  | nil => rfl
  | cons x xs ih =>
    rw [outputsRegs, List.foldl_cons, gatedSamples_cons]
    refine (ih (outputRegs cfg r x)).trans ?_
    cases xs with
    | nil => rfl
    | cons y ys => simp [conditioned, outputRegs]

/-- Point k of output m's run, as AUDIO_OUT receives it (46_output_stager R236, R238). -/
theorem outputsCounts_getD (cfg : Config) (r : Regs) (xs : List IQ) {m k : Nat} (hm : m < xs.length)
    (hk : k < cfg.interpL) :
    (outputsCounts cfg r xs).getD (m * cfg.interpL + k) 0 =
      pwmCount r.act.pwm
        (conditioned cfg r.act.volume r.stager.interpPrev (gatedSamples cfg r xs) m +
          (conditioned cfg r.act.volume r.stager.interpPrev (gatedSamples cfg r xs) (m + 1) -
            conditioned cfg r.act.volume r.stager.interpPrev (gatedSamples cfg r xs) m) * k / cfg.interpL) := by
  induction xs generalizing r m with
  | nil => cases hm
  | cons x xs ih =>
    rw [outputsCounts, gatedSamples_cons]
    cases m with
    | zero =>
      rw [Nat.zero_mul, Nat.zero_add, List.getD_append _ _ _ _ (by rw [outputCounts_length]; exact hk)]
      simp [outputCounts, runCounts, interpolationRun, conditioned, hk]
    | succ m =>
      rw [List.getD_append_right _ _ _ _ (by rw [outputCounts_length, Nat.add_mul]; omega), outputCounts_length,
        show (m + 1) * cfg.interpL + k - cfg.interpL = m * cfg.interpL + k by rw [Nat.add_mul]; omega,
        ih (outputRegs cfg r x) (by simpa using hm)]
      have e : ∀ n, conditioned cfg (outputRegs cfg r x).act.volume (outputRegs cfg r x).stager.interpPrev
          (gatedSamples cfg (outputRegs cfg r x) xs) n =
          conditioned cfg r.act.volume r.stager.interpPrev
            ((audioSample cfg r x).2 :: gatedSamples cfg (outputRegs cfg r x) xs) (n + 1) := by
        intro n
        cases n <;> simp [conditioned, outputRegs]
      rw [e, e]
      rfl

/-! ### Audio ranges through a list of outputs -/

theorem Regs.AudioInRange.demodRange {cfg : Config} {r : Regs} (h : r.AudioInRange cfg) : r.demod.InRange cfg :=
  ⟨h.pllPhase, h.pllFreq, h.fmLast, h.cwPhase⟩

theorem Regs.AudioInRange.condRange {cfg : Config} {r : Regs} (h : r.AudioInRange cfg) : r.cond.InRange cfg :=
  ⟨h.deX, h.deY, h.agcHold, h.agcHang⟩

theorem audioSample_inRange {cfg : Config} {r : Regs} (h : r.AudioInRange cfg) {x : IQ} (hx : IQ.Int16 x) :
    (audioSample cfg r x).1.demod.InRange cfg ∧ (audioSample cfg r x).1.cond.InRange cfg ∧
      Int16 (audioSample cfg r x).2 := by
  have hd := demodulate_inRange r.act.mode (cwInc := r.latched.cwInc) h.demodRange hx
  have he := deemphasis_inRange r.act.deemph h.condRange hd.2
  have ha := agc_inRange (Config.agcRow_hang cfg r.act.mode r.act.agc) he.1 he.2
  exact ⟨hd.1, ha.1, sqGate_int16 _ ha.2⟩

theorem outputRegs_inRange {cfg : Config} (hc : cfg.TablesOk) (hcap : 0 < cfg.rbCap) {r : Regs}
    (h : r.AudioInRange cfg) {x : IQ} (hx : IQ.Int16 x) (room : r.stager.outIdx + cfg.interpL ≤ cfg.expanded) :
    (outputRegs cfg r x).AudioInRange cfg := by
  have ha := audioSample_inRange h hx
  exact
    { pllPhase := ha.1.pllPhase
      pllFreq := ha.1.pllFreq
      fmLast := ha.1.fmLast
      cwPhase := ha.1.cwPhase
      deX := ha.2.1.deX
      deY := ha.2.1.deY
      agcHold := ha.2.1.agcHold
      agcHang := ha.2.1.agcHang
      cwInc := h.cwInc
      usbVol := h.usbVol
      blkVol := h.blkVol
      interpPrev := volumeScale_int16 hc _ ha.2.2
      outIdx := room
      ring := usbTap_ok hcap h.ring _ _ }

theorem outputsRegs_inRange {cfg : Config} (hc : cfg.TablesOk) (hcap : 0 < cfg.rbCap) {r : Regs}
    (h : r.AudioInRange cfg) {xs : List IQ} (hx : AllInt16 xs)
    (room : r.stager.outIdx + xs.length * cfg.interpL ≤ cfg.expanded) : (outputsRegs cfg r xs).AudioInRange cfg := by
  induction xs generalizing r with
  | nil => exact h
  | cons x xs ih =>
    rw [List.length_cons, Nat.add_mul, Nat.one_mul] at room
    refine ih (outputRegs_inRange hc hcap h (hx x (by simp)) (by omega)) (fun y hy => hx y (by simp [hy])) ?_
    simp only [outputRegs]
    omega

/-- The magnitude sum's range follows from the magnitudes' (10_state R59, 43_cordic_sine R179). -/
theorem outputsRegs_levels (hm : ∀ x, IQ.Int16 x → cordicMag x.re x.im ≤ magMax) (cfg : Config) {r : Regs}
    (h : r.LevelsInRange) {xs : List IQ} (hx : AllInt16 xs) : (outputsRegs cfg r xs).LevelsInRange := by
  induction xs generalizing r with
  | nil => exact h
  | cons x xs ih =>
    refine ih ⟨h.acc, h.sigEst, ?_⟩ fun y hy => hx y (by simp [hy])
    have h1 := hm x (hx x (by simp))
    have h2 := cordicMag_nonneg x.re x.im
    have h3 := h.magSum
    simp only [outputRegs, sigAccum]
    rw [Nat.cast_add, Nat.cast_one, Int.mul_add, Int.mul_one]
    omega

/-! ### The filter call -/

/-- The filter's result in a filter call. -/
@[irreducible] def callFilter (cfg : Config) (r : Regs) : Filter × List IQ :=
  chanFilt cfg r.act r.latched.binShift r.spec.blkCapture r.filt r.fin.buf

/-- The registers after a filter call. -/
@[irreducible] def callRegs (cfg : Config) (r : Regs) : Regs :=
  outputsRegs cfg { r with filt := (callFilter cfg r).1 } (callFilter cfg r).2

/-- The counts a filter call sends to AUDIO_OUT. -/
@[irreducible] def callCounts (cfg : Config) (r : Regs) : List Int :=
  outputsCounts cfg { r with filt := (callFilter cfg r).1 } (callFilter cfg r).2

theorem callFilter_length (cfg : Config) (r : Regs) : (callFilter cfg r).2.length = outE := by
  rw [callFilter]
  exact chanFilt_output_length _ _ _ _ _ _

theorem callCounts_length (cfg : Config) (r : Regs) : (callCounts cfg r).length = outE * cfg.interpL := by
  rw [callCounts, outputsCounts_length, callFilter_length]

/-- The gated samples of a filter call do not depend on the filter's own registers but through its outputs. -/
theorem gatedSamples_filt (cfg : Config) (r : Regs) (f : Filter) (xs : List IQ) :
    gatedSamples cfg { r with filt := f } xs = gatedSamples cfg r xs := gatedSamples_congr cfg xs rfl rfl rfl rfl

theorem callRegs_ring (cfg : Config) (r : Regs) :
    (callRegs cfg r).ring =
      ((gatedSamples cfg r (callFilter cfg r).2).flatMap (usbBytes r.usb)).foldl (rbPush cfg.rbCap) r.ring := by
  rw [callRegs, outputsRegs_ring, gatedSamples_filt]

theorem callRegs_interpPrev (cfg : Config) (r : Regs) :
    (callRegs cfg r).stager.interpPrev =
      conditioned cfg r.act.volume r.stager.interpPrev (gatedSamples cfg r (callFilter cfg r).2) outE := by
  rw [callRegs, outputsRegs_interpPrev, gatedSamples_filt, callFilter_length]

theorem callCounts_getD (cfg : Config) (r : Regs) {m k : Nat} (hm : m < outE) (hk : k < cfg.interpL) :
    (callCounts cfg r).getD (m * cfg.interpL + k) 0 =
      pwmCount r.act.pwm
        (conditioned cfg r.act.volume r.stager.interpPrev (gatedSamples cfg r (callFilter cfg r).2) m +
          (conditioned cfg r.act.volume r.stager.interpPrev (gatedSamples cfg r (callFilter cfg r).2) (m + 1) -
            conditioned cfg r.act.volume r.stager.interpPrev (gatedSamples cfg r (callFilter cfg r).2) m) * k /
            cfg.interpL) := by
  rw [callCounts, outputsCounts_getD _ _ _ (by rw [callFilter_length]; exact hm) hk, gatedSamples_filt]

theorem filterCall_eq (s : State) :
    filterCall s =
      { s with
        audioOut := pushRun s.audioOut s.regs.stager.outIdx (callCounts s.cfg s.regs)
        regs := callRegs s.cfg s.regs } := by
  simp only [filterCall, foldl_outputPair, callCounts, callRegs, callFilter]

theorem callRegs_frame (cfg : Config) (r : Regs) :
    callRegs cfg r =
      { r with
        filt := (callFilter cfg r).1
        pub := (callRegs cfg r).pub
        demod := (callRegs cfg r).demod
        cond := (callRegs cfg r).cond
        ring := (callRegs cfg r).ring
        stager := (callRegs cfg r).stager } := by
  rw [callRegs, outputsRegs_frame]

theorem callRegs_counts (cfg : Config) (r : Regs) :
    (callRegs cfg r).pub.magCnt = r.pub.magCnt + outE ∧
      (callRegs cfg r).stager.outIdx = r.stager.outIdx + outE * cfg.interpL := by
  have h := outputsRegs_counts cfg { r with filt := (callFilter cfg r).1 } (callFilter cfg r).2
  rw [callFilter_length] at h
  simpa only [callRegs] using h

/-! ### The SAMPLE step -/

/-- The registers of a SAMPLE step before any filter call. -/
@[irreducible] def sampleRegs (cfg : Config) (r : Regs) (j : Nat) (w0 w1 : BitVec 16) : Regs :=
  match (sampleInput cfg r w0 w1).2 with
  | none => { (sampleInput cfg r w0 w1).1 with seq := nextSeq cfg j }
  | some x => { (fillInput (sampleInput cfg r w0 w1).1 x).1 with seq := nextSeq cfg j }

/-- The SAMPLE step runs a filter call. -/
@[irreducible] def sampleFull (cfg : Config) (r : Regs) (w0 w1 : BitVec 16) : Bool :=
  match (sampleInput cfg r w0 w1).2 with
  | none => false
  | some x => (fillInput (sampleInput cfg r w0 w1).1 x).2

theorem sampleWords_eq (s : State) (j : Nat) (w0 w1 : BitVec 16) :
    sampleWords s j w0 w1 =
      if sampleFull s.cfg s.regs w0 w1 then
        (if s.regs.stager.outIdx + outE * s.cfg.interpL ≤ s.cfg.expanded then
          .next (filterCall { s with regs := sampleRegs s.cfg s.regs j w0 w1 })
        else .fault (.audioIndex s.cfg.expanded))
      else .next { s with regs := sampleRegs s.cfg s.regs j w0 w1 } := by
  have hf : ∀ x, (fillInput (sampleInput s.cfg s.regs w0 w1).1 x).1.stager = s.regs.stager := by
    intro x
    rw [fillInput_regs]
    rfl
  rcases Option.eq_none_or_eq_some (sampleInput s.cfg s.regs w0 w1).2 with hx | ⟨x, hx⟩
  · simp only [sampleWords, sampleFull, sampleRegs, hx, Bool.false_eq_true, if_false]
  · simp only [sampleWords, sampleFull, sampleRegs, hx, audioFits, hf, decide_eq_true_eq]

theorem sampleRegs_frame (cfg : Config) (r : Regs) (j : Nat) (w0 w1 : BitVec 16) :
    sampleRegs cfg r j w0 w1 =
      { r with
        dc := (sampleRegs cfg r j w0 w1).dc
        iq := (sampleRegs cfg r j w0 w1).iq
        cic := (sampleRegs cfg r j w0 w1).cic
        fin := (sampleRegs cfg r j w0 w1).fin
        seq := nextSeq cfg j } := by
  simp only [sampleRegs]
  cases (sampleInput cfg r w0 w1).2 with
  | none => rfl
  | some x =>
    simp only
    rw [fillInput_regs]
    rfl

theorem sampleRegs_inRange {cfg : Config} {r : Regs} (h : r.InputInRange cfg) (hR : 1 ≤ cfg.cicR) (j : Nat)
    (w0 w1 : BitVec 16) : (sampleRegs cfg r j w0 w1).InputInRange cfg := by
  have hs := sampleInput_inRange h hR w0 w1
  simp only [sampleRegs]
  cases hx : (sampleInput cfg r w0 w1).2 with
  | none => exact { hs.1 with }
  | some x => exact { fillInput_inRange hs.1 (hs.2 x hx) with }

/-- How SAMPLE moves the CIC's and the filter input's counters, and when it runs a filter call. -/
theorem sampleRegs_counts (cfg : Config) (r : Regs) (j : Nat) (w0 w1 : BitVec 16) :
    (r.cic.cnt + 1 < cfg.cicR ∧ (sampleRegs cfg r j w0 w1).cic.cnt = r.cic.cnt + 1 ∧
        (sampleRegs cfg r j w0 w1).fin = r.fin ∧ sampleFull cfg r w0 w1 = false) ∨
      (¬ r.cic.cnt + 1 < cfg.cicR ∧ r.fin.cnt + 1 = fftH ∧ (sampleRegs cfg r j w0 w1).cic.cnt = 0 ∧
        (sampleRegs cfg r j w0 w1).fin.cnt = 0 ∧ sampleFull cfg r w0 w1 = true) ∨
      (¬ r.cic.cnt + 1 < cfg.cicR ∧ r.fin.cnt + 1 ≠ fftH ∧ (sampleRegs cfg r j w0 w1).cic.cnt = 0 ∧
        (sampleRegs cfg r j w0 w1).fin.cnt = r.fin.cnt + 1 ∧ sampleFull cfg r w0 w1 = false) := by
  by_cases h : r.cic.cnt + 1 < cfg.cicR
  · refine .inl ⟨h, ?_⟩
    simp only [sampleRegs, sampleFull, sampleInput, cicDecimate, if_pos h, and_self]
  · by_cases h2 : r.fin.cnt + 1 = fftH
    · refine .inr (.inl ⟨h, h2, ?_⟩)
      simp only [sampleRegs, sampleFull, sampleInput, cicDecimate, if_neg h, fillInput, if_pos h2, and_self]
    · refine .inr (.inr ⟨h, h2, ?_⟩)
      simp only [sampleRegs, sampleFull, sampleInput, cicDecimate, if_neg h, fillInput, if_neg h2, and_self]

/-- The gated samples of a filter call that SAMPLE(j) runs. -/
theorem callSamples_eq {s : State} {j : Nat}
    (h : sampleFull s.cfg s.regs (s.raw.read (2 * j)) (s.raw.read (2 * j + 1)) = true) :
    s.callSamples j = gatedSamples s.cfg (sampleRegs s.cfg s.regs j (s.raw.read (2 * j)) (s.raw.read (2 * j + 1)))
      (callFilter s.cfg (sampleRegs s.cfg s.regs j (s.raw.read (2 * j)) (s.raw.read (2 * j + 1)))).2 := by
  rcases Option.eq_none_or_eq_some (sampleInput s.cfg s.regs (s.raw.read (2 * j)) (s.raw.read (2 * j + 1))).2 with
    hx | ⟨x, hx⟩
  · simp only [sampleFull, hx, Bool.false_eq_true] at h
  · simp only [State.callSamples, sampleRegs, callFilter, hx]
    exact gatedSamples_congr _ _ rfl rfl rfl rfl

/-- The three outcomes of SAMPLE(j) with RAW entries to read: no filter call, a filter call, no room in AUDIO_OUT. -/
theorem sampleStep_cases (s : State) (j : Nat) (h : 2 * j + 1 < s.cfg.blockSize) :
    (sampleFull s.cfg s.regs (s.raw.read (2 * j)) (s.raw.read (2 * j + 1)) = false ∧
      sampleStep s j =
        .next { s with regs := sampleRegs s.cfg s.regs j (s.raw.read (2 * j)) (s.raw.read (2 * j + 1)) }) ∨
    (sampleFull s.cfg s.regs (s.raw.read (2 * j)) (s.raw.read (2 * j + 1)) = true ∧
      s.regs.stager.outIdx + outE * s.cfg.interpL ≤ s.cfg.expanded ∧
      sampleStep s j =
        .next (filterCall
          { s with regs := sampleRegs s.cfg s.regs j (s.raw.read (2 * j)) (s.raw.read (2 * j + 1)) })) ∨
    (sampleFull s.cfg s.regs (s.raw.read (2 * j)) (s.raw.read (2 * j + 1)) = true ∧
      s.cfg.expanded < s.regs.stager.outIdx + outE * s.cfg.interpL ∧
      sampleStep s j = .fault (.audioIndex s.cfg.expanded)) := by
  have h0 : s.readRaw (2 * j) = .ok (s.raw.read (2 * j)) := by
    rw [State.readRaw, if_pos (by omega)]
  have h1 : s.readRaw (2 * j + 1) = .ok (s.raw.read (2 * j + 1)) := by
    rw [State.readRaw, if_pos h]
  simp only [sampleStep, h0, h1, sampleWords_eq]
  by_cases hf : sampleFull s.cfg s.regs (s.raw.read (2 * j)) (s.raw.read (2 * j + 1)) = true
  · by_cases hr : s.regs.stager.outIdx + outE * s.cfg.interpL ≤ s.cfg.expanded
    · exact .inr (.inl ⟨hf, hr, by rw [if_pos hf, if_pos hr]⟩)
    · exact .inr (.inr ⟨hf, by omega, by rw [if_pos hf, if_neg hr]⟩)
  · exact .inl ⟨by simpa using hf, by rw [if_neg hf]⟩

/-- SAMPLE(j) without both RAW entries faults. -/
theorem sampleStep_fault (s : State) (j : Nat) (h : ¬ 2 * j + 1 < s.cfg.blockSize) :
    ∃ k, sampleStep s j = .fault (.rawIndex k) := by
  by_cases h0 : 2 * j < s.cfg.blockSize
  · exact ⟨2 * j + 1, by simp [sampleStep, State.readRaw, h0, h]⟩
  · exact ⟨2 * j, by simp [sampleStep, State.readRaw, h0]⟩

/-- What a SAMPLE step that goes on can have done. -/
theorem sampleStep_inv {s t : State} {j : Nat} (h : sampleStep s j = .next t) :
    2 * j + 1 < s.cfg.blockSize ∧
    ((sampleFull s.cfg s.regs (s.raw.read (2 * j)) (s.raw.read (2 * j + 1)) = false ∧
        t = { s with regs := sampleRegs s.cfg s.regs j (s.raw.read (2 * j)) (s.raw.read (2 * j + 1)) }) ∨
      (sampleFull s.cfg s.regs (s.raw.read (2 * j)) (s.raw.read (2 * j + 1)) = true ∧
        s.regs.stager.outIdx + outE * s.cfg.interpL ≤ s.cfg.expanded ∧
        t = filterCall { s with regs := sampleRegs s.cfg s.regs j (s.raw.read (2 * j)) (s.raw.read (2 * j + 1)) })) := by
  by_cases hj : 2 * j + 1 < s.cfg.blockSize
  · refine ⟨hj, ?_⟩
    rcases sampleStep_cases s j hj with ⟨h1, h2⟩ | ⟨h1, h2, h3⟩ | ⟨_, _, h3⟩
    · rw [h2] at h
      exact .inl ⟨h1, (Host.Outcome.next.inj h).symm⟩
    · rw [h3] at h
      exact .inr ⟨h1, h2, (Host.Outcome.next.inj h).symm⟩
    · rw [h3] at h
      cases h
  · obtain ⟨k, hk⟩ := sampleStep_fault s j hj
    rw [hk] at h
    cases h

/-! ### What a SAMPLE step and a filter call leave alone, field by field -/

@[simp] theorem sampleRegs_seqPort (cfg : Config) (r : Regs) (j : Nat) (w0 w1 : BitVec 16) :
    (sampleRegs cfg r j w0 w1).seqPort = r.seqPort := by rw [sampleRegs_frame]
@[simp] theorem sampleRegs_filt (cfg : Config) (r : Regs) (j : Nat) (w0 w1 : BitVec 16) :
    (sampleRegs cfg r j w0 w1).filt = r.filt := by rw [sampleRegs_frame]
@[simp] theorem sampleRegs_demod (cfg : Config) (r : Regs) (j : Nat) (w0 w1 : BitVec 16) :
    (sampleRegs cfg r j w0 w1).demod = r.demod := by rw [sampleRegs_frame]
@[simp] theorem sampleRegs_cond (cfg : Config) (r : Regs) (j : Nat) (w0 w1 : BitVec 16) :
    (sampleRegs cfg r j w0 w1).cond = r.cond := by rw [sampleRegs_frame]
@[simp] theorem sampleRegs_pend (cfg : Config) (r : Regs) (j : Nat) (w0 w1 : BitVec 16) :
    (sampleRegs cfg r j w0 w1).pend = r.pend := by rw [sampleRegs_frame]
@[simp] theorem sampleRegs_act (cfg : Config) (r : Regs) (j : Nat) (w0 w1 : BitVec 16) :
    (sampleRegs cfg r j w0 w1).act = r.act := by rw [sampleRegs_frame]
@[simp] theorem sampleRegs_latched (cfg : Config) (r : Regs) (j : Nat) (w0 w1 : BitVec 16) :
    (sampleRegs cfg r j w0 w1).latched = r.latched := by rw [sampleRegs_frame]
@[simp] theorem sampleRegs_usb (cfg : Config) (r : Regs) (j : Nat) (w0 w1 : BitVec 16) :
    (sampleRegs cfg r j w0 w1).usb = r.usb := by rw [sampleRegs_frame]
@[simp] theorem sampleRegs_stager (cfg : Config) (r : Regs) (j : Nat) (w0 w1 : BitVec 16) :
    (sampleRegs cfg r j w0 w1).stager = r.stager := by rw [sampleRegs_frame]
@[simp] theorem sampleRegs_ring (cfg : Config) (r : Regs) (j : Nat) (w0 w1 : BitVec 16) :
    (sampleRegs cfg r j w0 w1).ring = r.ring := by rw [sampleRegs_frame]
@[simp] theorem sampleRegs_spec (cfg : Config) (r : Regs) (j : Nat) (w0 w1 : BitVec 16) :
    (sampleRegs cfg r j w0 w1).spec = r.spec := by rw [sampleRegs_frame]
@[simp] theorem sampleRegs_pub (cfg : Config) (r : Regs) (j : Nat) (w0 w1 : BitVec 16) :
    (sampleRegs cfg r j w0 w1).pub = r.pub := by rw [sampleRegs_frame]
@[simp] theorem sampleRegs_status (cfg : Config) (r : Regs) (j : Nat) (w0 w1 : BitVec 16) :
    (sampleRegs cfg r j w0 w1).status = r.status := by rw [sampleRegs_frame]
@[simp] theorem sampleRegs_seq (cfg : Config) (r : Regs) (j : Nat) (w0 w1 : BitVec 16) :
    (sampleRegs cfg r j w0 w1).seq = nextSeq cfg j := by rw [sampleRegs_frame]
@[simp] theorem callRegs_seq (cfg : Config) (r : Regs) : (callRegs cfg r).seq = r.seq := by rw [callRegs_frame]
@[simp] theorem callRegs_seqPort (cfg : Config) (r : Regs) : (callRegs cfg r).seqPort = r.seqPort := by rw [callRegs_frame]
@[simp] theorem callRegs_cic (cfg : Config) (r : Regs) : (callRegs cfg r).cic = r.cic := by rw [callRegs_frame]
@[simp] theorem callRegs_dc (cfg : Config) (r : Regs) : (callRegs cfg r).dc = r.dc := by rw [callRegs_frame]
@[simp] theorem callRegs_iq (cfg : Config) (r : Regs) : (callRegs cfg r).iq = r.iq := by rw [callRegs_frame]
@[simp] theorem callRegs_fin (cfg : Config) (r : Regs) : (callRegs cfg r).fin = r.fin := by rw [callRegs_frame]
@[simp] theorem callRegs_pend (cfg : Config) (r : Regs) : (callRegs cfg r).pend = r.pend := by rw [callRegs_frame]
@[simp] theorem callRegs_act (cfg : Config) (r : Regs) : (callRegs cfg r).act = r.act := by rw [callRegs_frame]
@[simp] theorem callRegs_latched (cfg : Config) (r : Regs) : (callRegs cfg r).latched = r.latched := by rw [callRegs_frame]
@[simp] theorem callRegs_usb (cfg : Config) (r : Regs) : (callRegs cfg r).usb = r.usb := by rw [callRegs_frame]
@[simp] theorem callRegs_spec (cfg : Config) (r : Regs) : (callRegs cfg r).spec = r.spec := by rw [callRegs_frame]
@[simp] theorem callRegs_status (cfg : Config) (r : Regs) : (callRegs cfg r).status = r.status := by rw [callRegs_frame]
@[simp] theorem callRegs_filt (cfg : Config) (r : Regs) : (callRegs cfg r).filt = (callFilter cfg r).1 := by
  rw [callRegs_frame]

@[simp] theorem filterCall_regs (s : State) : (filterCall s).regs = callRegs s.cfg s.regs := by rw [filterCall_eq]
@[simp] theorem filterCall_audioOut (s : State) :
    (filterCall s).audioOut = pushRun s.audioOut s.regs.stager.outIdx (callCounts s.cfg s.regs) := by rw [filterCall_eq]
@[simp] theorem filterCall_cfg (s : State) : (filterCall s).cfg = s.cfg := by rw [filterCall_eq]
@[simp] theorem filterCall_raw (s : State) : (filterCall s).raw = s.raw := by rw [filterCall_eq]
@[simp] theorem filterCall_ports (s : State) : (filterCall s).ports = s.ports := by rw [filterCall_eq]
@[simp] theorem filterCall_cur (s : State) : (filterCall s).cur = s.cur := by rw [filterCall_eq]
@[simp] theorem filterCall_sched (s : State) : (filterCall s).sched = s.sched := by rw [filterCall_eq]
@[simp] theorem filterCall_turn (s : State) : (filterCall s).turn = s.turn := by rw [filterCall_eq]
@[simp] theorem filterCall_acq (s : State) : (filterCall s).acq = s.acq := by rw [filterCall_eq]

/-- What a SAMPLE step leaves alone: everything but AUDIO_OUT and the datapath registers dc, iq, cic, fin, filt, demod,
cond, stager, ring, pub and seq. -/
structure SampleFrame (s t : State) : Prop where
  cfg : t.cfg = s.cfg
  raw : t.raw = s.raw
  ports : t.ports = s.ports
  cur : t.cur = s.cur
  sched : t.sched = s.sched
  turn : t.turn = s.turn
  acq : t.acq = s.acq
  seqPort : t.regs.seqPort = s.regs.seqPort
  pend : t.regs.pend = s.regs.pend
  act : t.regs.act = s.regs.act
  latched : t.regs.latched = s.regs.latched
  usb : t.regs.usb = s.regs.usb
  spec : t.regs.spec = s.regs.spec
  status : t.regs.status = s.regs.status

theorem sampleRegs_sampleFrame (s : State) (j : Nat) (w0 w1 : BitVec 16) :
    SampleFrame s { s with regs := sampleRegs s.cfg s.regs j w0 w1 } := by
  constructor <;> simp only [sampleRegs_seqPort, sampleRegs_pend, sampleRegs_act, sampleRegs_latched, sampleRegs_usb,
    sampleRegs_spec, sampleRegs_status]

theorem filterCall_sampleFrame (s : State) : SampleFrame s (filterCall s) := by
  constructor <;> simp only [filterCall_cfg, filterCall_raw, filterCall_ports, filterCall_cur, filterCall_sched,
    filterCall_turn, filterCall_acq, filterCall_regs, callRegs_seqPort, callRegs_pend, callRegs_act, callRegs_latched,
    callRegs_usb, callRegs_spec, callRegs_status]

theorem SampleFrame.trans {s t u : State} (h : SampleFrame s t) (g : SampleFrame t u) : SampleFrame s u :=
  ⟨g.cfg.trans h.cfg, g.raw.trans h.raw, g.ports.trans h.ports, g.cur.trans h.cur, g.sched.trans h.sched,
    g.turn.trans h.turn, g.acq.trans h.acq, g.seqPort.trans h.seqPort, g.pend.trans h.pend, g.act.trans h.act,
    g.latched.trans h.latched, g.usb.trans h.usb, g.spec.trans h.spec, g.status.trans h.status⟩

theorem sampleStep_frame {s t : State} {j : Nat} (h : sampleStep s j = .next t) : SampleFrame s t := by
  rcases sampleStep_inv h with ⟨-, h1 | h1⟩
  · rw [h1.2]
    exact sampleRegs_sampleFrame _ _ _ _
  · rw [h1.2.2]
    exact (sampleRegs_sampleFrame _ _ _ _).trans (filterCall_sampleFrame _)

theorem sampleStep_seq {s t : State} {j : Nat} (h : sampleStep s j = .next t) : t.regs.seq = nextSeq s.cfg j := by
  rcases sampleStep_inv h with ⟨-, h1 | h1⟩
  · rw [h1.2]
    simp only [sampleRegs_seq]
  · rw [h1.2.2]
    simp only [filterCall_regs, callRegs_seq, sampleRegs_seq]

theorem callRegs_published (cfg : Config) (r : Regs) :
    (callRegs cfg r).pub.sigEst = r.pub.sigEst ∧ (callRegs cfg r).pub.sigDbm = r.pub.sigDbm ∧
      (callRegs cfg r).pub.sqOpen = r.pub.sqOpen := by
  have h := outputsRegs_published cfg { r with filt := (callFilter cfg r).1 } (callFilter cfg r).2
  simpa only [callRegs] using h

/-- Only pub's running sums move in a SAMPLE step; the published values stay (70_reset_and_hazards R338). -/
theorem sampleStep_published {s t : State} {j : Nat} (h : sampleStep s j = .next t) :
    t.regs.pub.sigEst = s.regs.pub.sigEst ∧ t.regs.pub.sigDbm = s.regs.pub.sigDbm ∧
      t.regs.pub.sqOpen = s.regs.pub.sqOpen := by
  rcases sampleStep_inv h with ⟨-, h1 | h1⟩
  · rw [h1.2]
    simp only [sampleRegs_pub, and_self]
  · rw [h1.2.2]
    simp only [filterCall_regs, callRegs_published, sampleRegs_pub, and_self]

/-- A SAMPLE step keeps AUDIO_OUT canonical. -/
theorem sampleStep_audio_wf {s t : State} {j : Nat} (h : sampleStep s j = .next t) (hw : s.audioOut.wf) :
    t.audioOut.wf := by
  rcases sampleStep_inv h with ⟨-, h1 | h1⟩
  · rw [h1.2]
    exact hw
  · rw [h1.2.2, filterCall_audioOut]
    exact pushRun_wf hw _ _

/-- A SAMPLE step lists no AUDIO_OUT entry past EXP. -/
theorem sampleStep_audio_listed {s t : State} {j : Nat} (h : sampleStep s j = .next t)
    (hw : ∀ c ∈ s.audioOut, c.1 < s.cfg.expanded) : ∀ c ∈ t.audioOut, c.1 < s.cfg.expanded := by
  rcases sampleStep_inv h with ⟨-, h1 | h1⟩
  · rw [h1.2]
    exact hw
  · have hr := h1.2.1
    rw [h1.2.2, filterCall_audioOut]
    refine pushRun_listed ?_ hw
    simp only [callCounts_length, sampleRegs_stager]
    exact hr

/-! ### A SAMPLE step, without its datapath -/

/-- A count sent to AUDIO_OUT is at most the PWM maximum (46_output_stager R238). -/
theorem pwmCount_toNat_le (pwm : Nat) (y : Int) : (BitVec.ofInt 24 (pwmCount pwm y)).toNat ≤ pwm := by
  have h : 0 ≤ pwmCount pwm y ∧ pwmCount pwm y ≤ pwm := clamp_range _ (by omega)
  rw [BitVec.toNat_ofInt]
  omega

theorem outputsCounts_le (cfg : Config) (r : Regs) (xs : List IQ) :
    ∀ y ∈ outputsCounts cfg r xs, (BitVec.ofInt 24 y).toNat ≤ r.act.pwm := by
  induction xs generalizing r with
  | nil => simp [outputsCounts]
  | cons x xs ih =>
    intro y hy
    rw [outputsCounts, List.mem_append] at hy
    rcases hy with hy | hy
    · simp only [outputCounts, runCounts, List.mem_map] at hy
      obtain ⟨z, _, rfl⟩ := hy
      exact pwmCount_toNat_le _ _
    · exact ih (outputRegs cfg r x) y hy

theorem callCounts_le (cfg : Config) (r : Regs) : ∀ y ∈ callCounts cfg r, (BitVec.ofInt 24 y).toNat ≤ r.act.pwm := by
  intro y hy
  rw [callCounts] at hy
  exact outputsCounts_le cfg { r with filt := (callFilter cfg r).1 } _ y hy

theorem callRegs_sqOpen (cfg : Config) (r : Regs) : (callRegs cfg r).cond.sqOpen = r.cond.sqOpen := by
  rw [callRegs, outputsRegs_sqOpen]

/-- The next pair makes the CIC ready and fills the filter input (48_commands R268). -/
abbrev Regs.CallDue (cfg : Config) (r : Regs) : Prop := ¬ r.cic.cnt + 1 < cfg.cicR ∧ r.fin.cnt + 1 = fftH

/-- What a SAMPLE step without a filter call leaves alone, beyond SampleFrame, and how its counters move. -/
structure SampleQuiet (s t : State) : Prop where
  stager : t.regs.stager = s.regs.stager
  audioOut : t.audioOut = s.audioOut
  ring : t.regs.ring = s.regs.ring
  filt : t.regs.filt = s.regs.filt
  demod : t.regs.demod = s.regs.demod
  cond : t.regs.cond = s.regs.cond
  pub : t.regs.pub = s.regs.pub
  cicCnt : t.regs.cic.cnt = if s.regs.cic.cnt + 1 < s.cfg.cicR then s.regs.cic.cnt + 1 else 0
  finCnt : t.regs.fin.cnt = if s.regs.cic.cnt + 1 < s.cfg.cicR then s.regs.fin.cnt else s.regs.fin.cnt + 1

/-- What a SAMPLE step with a filter call does to the counters, to AUDIO_OUT and to the ring, beyond SampleFrame. -/
structure SampleCall (s t : State) (j : Nat) : Prop where
  outIdx : t.regs.stager.outIdx = s.regs.stager.outIdx + 64 * s.cfg.interpL
  magCnt : t.regs.pub.magCnt = s.regs.pub.magCnt + 64
  cicCnt : t.regs.cic.cnt = 0
  finCnt : t.regs.fin.cnt = 0
  sqOpen : t.regs.cond.sqOpen = s.regs.cond.sqOpen
  gated : (s.callSamples j).length = 64
  closed : s.regs.cond.sqOpen = false → ∀ y ∈ s.callSamples j, y = 0
  ring : t.regs.ring = ((s.callSamples j).flatMap (usbBytes s.regs.usb)).foldl (rbPush s.cfg.rbCap) s.regs.ring
  interpPrev : t.regs.stager.interpPrev =
    conditioned s.cfg s.regs.act.volume s.regs.stager.interpPrev (s.callSamples j) 64
  run : ∃ ps : List Int, ps.length = 64 * s.cfg.interpL ∧ (∀ y ∈ ps, (BitVec.ofInt 24 y).toNat ≤ s.regs.act.pwm) ∧
    (∀ m k, m < 64 → k < s.cfg.interpL →
      ps.getD (m * s.cfg.interpL + k) 0 =
        pwmCount s.regs.act.pwm
          (conditioned s.cfg s.regs.act.volume s.regs.stager.interpPrev (s.callSamples j) m +
            (conditioned s.cfg s.regs.act.volume s.regs.stager.interpPrev (s.callSamples j) (m + 1) -
              conditioned s.cfg s.regs.act.volume s.regs.stager.interpPrev (s.callSamples j) m) * k / s.cfg.interpL)) ∧
    t.audioOut = pushRun s.audioOut s.regs.stager.outIdx ps

/-- The SAMPLE step with RAW entries to read: no call is due, a call is due and its outputs fit, or they do not. -/
theorem sampleStep_effect (s : State) (j : Nat) (h : 2 * j + 1 < s.cfg.blockSize) :
    (¬ s.regs.CallDue s.cfg ∧ ∃ t, sampleStep s j = .next t ∧ SampleFrame s t ∧ SampleQuiet s t) ∨
      (s.regs.CallDue s.cfg ∧ s.regs.stager.outIdx + 64 * s.cfg.interpL ≤ s.cfg.expanded ∧
        ∃ t, sampleStep s j = .next t ∧ SampleFrame s t ∧ SampleCall s t j) ∨
      (s.regs.CallDue s.cfg ∧ s.cfg.expanded < s.regs.stager.outIdx + 64 * s.cfg.interpL ∧
        sampleStep s j = .fault (.audioIndex s.cfg.expanded)) := by
  have hc := sampleRegs_counts s.cfg s.regs j (s.raw.read (2 * j)) (s.raw.read (2 * j + 1))
  rcases sampleStep_cases s j h with ⟨h1, h2⟩ | ⟨h1, h2, h3⟩ | ⟨h1, h2, h3⟩
  · refine .inl ⟨?_, _, h2, sampleStep_frame h2, ?_⟩
    · rintro ⟨a, b⟩
      rcases hc with ⟨c, -⟩ | ⟨-, -, -, -, c⟩ | ⟨-, c, -⟩
      · exact a c
      · rw [c] at h1
        cases h1
      · exact c b
    · constructor <;> simp only [sampleRegs_stager, sampleRegs_ring, sampleRegs_filt, sampleRegs_demod,
        sampleRegs_cond, sampleRegs_pub]
      · rcases hc with ⟨c, d, -⟩ | ⟨c, -, d, -⟩ | ⟨c, -, d, -⟩
        · rw [d, if_pos c]
        · rw [d, if_neg c]
        · rw [d, if_neg c]
      · rcases hc with ⟨c, -, d, -⟩ | ⟨-, -, -, -, d⟩ | ⟨c, -, -, d, -⟩
        · rw [d, if_pos c]
        · rw [d] at h1
          cases h1
        · rw [d, if_neg c]
  · have hd : s.regs.CallDue s.cfg ∧ (sampleRegs s.cfg s.regs j (s.raw.read (2 * j)) (s.raw.read (2 * j + 1))).cic.cnt = 0 ∧
        (sampleRegs s.cfg s.regs j (s.raw.read (2 * j)) (s.raw.read (2 * j + 1))).fin.cnt = 0 := by
      rcases hc with ⟨-, -, -, d⟩ | ⟨a, b, c, d, -⟩ | ⟨-, -, -, -, d⟩
      · rw [d] at h1
        cases h1
      · exact ⟨⟨a, b⟩, c, d⟩
      · rw [d] at h1
        cases h1
    refine .inr (.inl ⟨hd.1, h2, _, h3, sampleStep_frame h3, ?_⟩)
    have hg := callSamples_eq h1
    generalize hr : sampleRegs s.cfg s.regs j (s.raw.read (2 * j)) (s.raw.read (2 * j + 1)) = r at hd hg ⊢
    have hring : r.ring = s.regs.ring := by rw [← hr, sampleRegs_ring]
    have husb : r.usb = s.regs.usb := by rw [← hr, sampleRegs_usb]
    have hact : r.act = s.regs.act := by rw [← hr, sampleRegs_act]
    have hst : r.stager = s.regs.stager := by rw [← hr, sampleRegs_stager]
    have hpub : r.pub = s.regs.pub := by rw [← hr, sampleRegs_pub]
    have hcond : r.cond = s.regs.cond := by rw [← hr, sampleRegs_cond]
    have hn := callRegs_counts s.cfg r
    rw [hst, hpub] at hn
    constructor
    · rw [filterCall_regs]
      exact hn.2
    · rw [filterCall_regs]
      exact hn.1
    · rw [filterCall_regs, callRegs_cic]
      exact hd.2.1
    · rw [filterCall_regs, callRegs_fin]
      exact hd.2.2
    · rw [filterCall_regs, callRegs_sqOpen]
      exact congrArg _ hcond
    · rw [hg, gatedSamples_length, callFilter_length]
    · intro hc
      rw [hg]
      exact gatedSamples_closed _ _ (by rw [hcond]; exact hc)
    · rw [filterCall_regs, callRegs_ring, hg, husb, hring]
    · rw [filterCall_regs, callRegs_interpPrev, hg, hact, hst]
    · rw [filterCall_audioOut, hg]
      refine ⟨callCounts s.cfg r, callCounts_length s.cfg r, ?_, ?_, ?_⟩
      · rw [← hact]
        exact callCounts_le s.cfg r
      · intro m k hm hk
        rw [callCounts_getD s.cfg r hm hk, hact, hst]
      · exact congrArg (fun st : Stager => pushRun s.audioOut st.outIdx (callCounts s.cfg r)) hst
  · refine .inr (.inr ⟨?_, h2, h3⟩)
    rcases hc with ⟨-, -, -, d⟩ | ⟨a, b, -⟩ | ⟨-, -, -, -, d⟩
    · rw [d] at h1
      cases h1
    · exact ⟨a, b⟩
    · rw [d] at h1
      cases h1

/-! ### Ranges through a SAMPLE step -/

theorem Regs.AudioInRange.congr {cfg : Config} {r u : Regs} (h : r.AudioInRange cfg) (a : u.demod = r.demod)
    (b : u.cond = r.cond) (c : u.latched = r.latched) (d : u.usb = r.usb) (e : u.stager = r.stager)
    (f : u.ring = r.ring) : u.AudioInRange cfg := by
  constructor <;> simp only [a, b, c, d, e, f]
  exacts [h.pllPhase, h.pllFreq, h.fmLast, h.cwPhase, h.deX, h.deY, h.agcHold, h.agcHang, h.cwInc, h.usbVol, h.blkVol,
    h.interpPrev, h.outIdx, h.ring]

theorem Regs.InputInRange.congr {cfg : Config} {r u : Regs} (h : r.InputInRange cfg) (a : u.cic = r.cic)
    (b : u.dc = r.dc) (c : u.iq = r.iq) (d : u.fin = r.fin) : u.InputInRange cfg := by
  constructor <;> simp only [a, b, c, d]
  exacts [h.chI, h.chQ, h.cicCnt, h.dcI, h.dcQ, h.iqN, h.iqAcc1, h.iqAcc2, h.iqAcc3, h.iqF1, h.iqF2, h.iqF3, h.iqC1,
    h.iqC2, h.finBuf, h.finCnt]

theorem callFilter_int16 (cfg : Config) (r : Regs) : AllInt16 (callFilter cfg r).2 := by
  rw [callFilter]
  exact chanFilt_output_int16 _ _ _ _ _ _

theorem callFilter_inRange {cfg : Config} (hc : cfg.TablesOk) {r : Regs} (h : r.filt.InRange)
    (hb : AllInt16 r.fin.buf.toList) : (callFilter cfg r).1.InRange := by
  rw [callFilter]
  exact chanFilt_inRange hc _ _ _ h hb

theorem callRegs_audioInRange {cfg : Config} (hc : cfg.TablesOk) (hcap : 0 < cfg.rbCap) {r : Regs}
    (h : r.AudioInRange cfg) (room : r.stager.outIdx + outE * cfg.interpL ≤ cfg.expanded) :
    (callRegs cfg r).AudioInRange cfg := by
  rw [callRegs]
  refine outputsRegs_inRange hc hcap
    (Regs.AudioInRange.congr (u := { r with filt := (callFilter cfg r).1 }) h rfl rfl rfl rfl rfl rfl)
    (callFilter_int16 _ _) ?_
  rw [callFilter_length]
  exact room

theorem callRegs_levels (hm : ∀ x, IQ.Int16 x → cordicMag x.re x.im ≤ magMax) (cfg : Config) {r : Regs}
    (h : r.LevelsInRange) : (callRegs cfg r).LevelsInRange := by
  rw [callRegs]
  exact outputsRegs_levels hm cfg (r := { r with filt := (callFilter cfg r).1 }) ⟨h.acc, h.sigEst, h.magSum⟩
    (callFilter_int16 cfg r)

/-- A SAMPLE step keeps every datapath register in its range, where the CORDIC magnitude has its own (43_cordic_sine
R179). -/
theorem sampleStep_inRange (hm : ∀ x, IQ.Int16 x → cordicMag x.re x.im ≤ magMax) {s t : State} {j : Nat}
    (ha : s.cfg.Admissible) (h : s.InRange) (go : sampleStep s j = .next t) : t.InRange := by
  have hi := sampleRegs_inRange h.input ha.1.1 j (s.raw.read (2 * j)) (s.raw.read (2 * j + 1))
  have hau : (sampleRegs s.cfg s.regs j (s.raw.read (2 * j)) (s.raw.read (2 * j + 1))).AudioInRange s.cfg :=
    Regs.AudioInRange.congr h.audio (by simp only [sampleRegs_demod]) (by simp only [sampleRegs_cond])
      (by simp only [sampleRegs_latched]) (by simp only [sampleRegs_usb]) (by simp only [sampleRegs_stager])
      (by simp only [sampleRegs_ring])
  have hfi : (sampleRegs s.cfg s.regs j (s.raw.read (2 * j)) (s.raw.read (2 * j + 1))).filt.InRange := by
    simp only [sampleRegs_filt]
    exact h.filter
  have hle : (sampleRegs s.cfg s.regs j (s.raw.read (2 * j)) (s.raw.read (2 * j + 1))).LevelsInRange := by
    constructor <;> simp only [sampleRegs_spec, sampleRegs_pub]
    exacts [h.levels.acc, h.levels.sigEst, h.levels.magSum]
  have hst : (sampleRegs s.cfg s.regs j (s.raw.read (2 * j)) (s.raw.read (2 * j + 1))).stager = s.regs.stager := by
    simp only [sampleRegs_stager]
  obtain ⟨-, h1⟩ := sampleStep_inv go
  clear go
  generalize sampleRegs s.cfg s.regs j (s.raw.read (2 * j)) (s.raw.read (2 * j + 1)) = r at hi hau hfi hle hst h1
  rcases h1 with h1 | h1
  · rw [h1.2]
    exact ⟨hi, hfi, hau, hle⟩
  · have room := h1.2.1
    rw [← hst] at room
    rw [h1.2.2]
    refine ⟨?_, ?_, ?_, ?_⟩
    · rw [filterCall_regs, filterCall_cfg]
      exact Regs.InputInRange.congr hi (callRegs_cic _ _) (callRegs_dc _ _) (callRegs_iq _ _) (callRegs_fin _ _)
    · rw [filterCall_regs, callRegs_filt]
      exact callFilter_inRange ha.2.2 hfi hi.finBuf
    · rw [filterCall_regs, filterCall_cfg]
      exact callRegs_audioInRange ha.2.2 (by have := ha.2.1; omega) hau room
    · rw [filterCall_regs]
      exact callRegs_levels hm _ hle

end Sys2Proof.Machine
end

