-- ==== Sys2Proof/Laws/PerInstr.lean ====
section
/-! SUPPORT. A statement about every instruction as syntax, one lemma per constructor: its word has the bits of its row
of the opcode map (30_encoding R95: match and mask). -/

namespace Sys2Proof.Laws.OpcodeMap

/-- Match and mask of an instruction's row (30_encoding R95; the same numbers as spec/opcode_table.json). -/
def row : Instr → Word × Word
  | .reset => (0x01000000, 0xFFFFFFFF)
  | .processBlock => (0x02000000, 0xFFFFFFFF)
  | .getStatus => (0x03000000, 0xFFFFFFFF)
  | .clrStatus => (0x04000000, 0xFFFFFFFF)
  | .setMode _ _ => (0x10000000, 0xFFFFFF00)
  | .setShift _ => (0x11000000, 0xFF000000)
  | .setSwapIq _ => (0x12000000, 0xFFFFFFFE)
  | .setIqCorr _ => (0x13000000, 0xFFFFFFFE)
  | .setDeemph _ => (0x14000000, 0xFFFFFF00)
  | .setAgcSpeed _ => (0x15000000, 0xFFFFFF00)
  | .setAutonotch _ => (0x16000000, 0xFFFFFFFE)
  | .setSidetone _ => (0x17000000, 0xFF000000)
  | .setVolume _ => (0x18000000, 0xFFFFFF00)
  | .setSquelch _ => (0x19000000, 0xFFFFFF00)
  | .setGainCal _ => (0x1A000000, 0xFF000000)
  | .setPwmScale _ => (0x1B000000, 0xFF000000)
  | .getSignalDbm => (0x20000000, 0xFFFFFFFF)
  | .getSquelch => (0x21000000, 0xFFFFFFFF)
  | .getUsbFill => (0x22000000, 0xFFFFFFFF)
  | .usbSetMute _ => (0x30000000, 0xFFFFFFFE)
  | .usbSetVolume _ => (0x31000000, 0xFF000000)
  | .usbPop _ => (0x32000000, 0xFF000000)
  | .specAcquire => (0x40000000, 0xFFFFFFFF)
  | .specRead => (0x41000000, 0xFFFFFFFF)
  | .specRelease => (0x42000000, 0xFFFFFFFF)

/-- The instruction's word has its row's bits. -/
def Statement (i : Instr) : Prop := encode i &&& (row i).2 = (row i).1

/-- A byte masked with all ones is unchanged. -/
theorem and_ones (op : BitVec 8) : op &&& 255#8 = op := BitVec.and_allOnes

theorem word_masked (op : BitVec 8) (o : BitVec 24) : commandWord op o &&& 0xFF000000#32 = op ++ (0 : BitVec 24) := by
  have h : 0xFF000000#32 = BitVec.allOnes 8 ++ (0 : BitVec 24) := rfl
  rw [h, commandWord, BitVec.and_append]
  simp [and_ones]

theorem word_masked_u8 (op : BitVec 8) (u : BitVec 8) :
    commandWord op (operandU8 u) &&& 0xFFFFFF00#32 = op ++ (0 : BitVec 24) := by
  have h : 0xFFFFFF00#32 = BitVec.allOnes 8 ++ (BitVec.allOnes 16 ++ (0 : BitVec 8)) := rfl
  have h0 : (0 : BitVec 24) = (0 : BitVec 16) ++ (0 : BitVec 8) := rfl
  rw [h, commandWord, operandU8, BitVec.and_append, BitVec.and_append, h0]
  simp [and_ones]

theorem word_masked_m (op : BitVec 8) (mode bw : BitVec 4) :
    commandWord op (operandM mode bw) &&& 0xFFFFFF00#32 = op ++ (0 : BitVec 24) := word_masked_u8 op (bw ++ mode)

theorem word_masked_b (op : BitVec 8) (b : Bool) :
    commandWord op (operandB b) &&& 0xFFFFFFFE#32 = op ++ (0 : BitVec 24) := by
  have h : 0xFFFFFFFE#32 = BitVec.allOnes 8 ++ (BitVec.allOnes 23 ++ (0 : BitVec 1)) := rfl
  have h0 : (0 : BitVec 24) = (0 : BitVec 23) ++ (0 : BitVec 1) := rfl
  rw [h, commandWord, operandB, BitVec.and_append, BitVec.and_append, h0]
  simp [and_ones]

theorem reset : Statement .reset := rfl
theorem processBlock : Statement .processBlock := rfl
theorem getStatus : Statement .getStatus := rfl
theorem clrStatus : Statement .clrStatus := rfl
theorem setMode (mode bw : BitVec 4) : Statement (.setMode mode bw) := word_masked_m _ _ _
theorem setShift (s : BitVec 24) : Statement (.setShift s) := word_masked _ _
theorem setSwapIq (b : Bool) : Statement (.setSwapIq b) := word_masked_b _ _
theorem setIqCorr (b : Bool) : Statement (.setIqCorr b) := word_masked_b _ _
theorem setDeemph (u : BitVec 8) : Statement (.setDeemph u) := word_masked_u8 _ _
theorem setAgcSpeed (u : BitVec 8) : Statement (.setAgcSpeed u) := word_masked_u8 _ _
theorem setAutonotch (b : Bool) : Statement (.setAutonotch b) := word_masked_b _ _
theorem setSidetone (u : BitVec 24) : Statement (.setSidetone u) := word_masked _ _
theorem setVolume (u : BitVec 8) : Statement (.setVolume u) := word_masked_u8 _ _
theorem setSquelch (u : BitVec 8) : Statement (.setSquelch u) := word_masked_u8 _ _
theorem setGainCal (s : BitVec 24) : Statement (.setGainCal s) := word_masked _ _
theorem setPwmScale (u : BitVec 24) : Statement (.setPwmScale u) := word_masked _ _
theorem getSignalDbm : Statement .getSignalDbm := rfl
theorem getSquelch : Statement .getSquelch := rfl
theorem getUsbFill : Statement .getUsbFill := rfl
theorem usbSetMute (b : Bool) : Statement (.usbSetMute b) := word_masked_b _ _
theorem usbSetVolume (u : BitVec 24) : Statement (.usbSetVolume u) := word_masked _ _
theorem usbPop (u : BitVec 24) : Statement (.usbPop u) := word_masked _ _
theorem specAcquire : Statement .specAcquire := rfl
theorem specRead : Statement .specRead := rfl
theorem specRelease : Statement .specRelease := rfl

end Sys2Proof.Laws.OpcodeMap
end

