-- ==== Sys2Proof/Laws/Step.lean ====
section
/-! SUPPORT. What a command, and what a step of the machine, can do, said once; and the principle by which an invariant
of every step is proved from its parts. -/

namespace Sys2Proof.Machine

/-! ### Clamping -/

theorem clampNat_fst (u hi : Nat) : (clampNat u hi).1 = min u hi := by
  simp only [clampNat]
  split <;> omega

theorem clampNat_snd (u hi : Nat) : (clampNat u hi).2 = decide (hi < u) := by
  simp only [clampNat]
  split <;> simp_all

theorem clampInt_fst (v lo hi : Int) : (clampInt v lo hi).1 = min hi (max lo v) := rfl

theorem clampInt_snd (v lo hi : Int) (h : lo ≤ hi) : (clampInt v lo hi).2 = decide (v < lo ∨ hi < v) := by
  simp only [clampInt, decide_eq_decide, ne_eq]
  omega

/-- The mode a field names. -/
theorem modeOf_cases (m : BitVec 4) :
    (5 < m.toNat ∧ modeOf m = none) ∨ (∃ md, m.toNat = Mode.number md ∧ modeOf m = some md) := by
  have h := m.isLt
  simp only [modeOf]
  interval_cases m.toNat
  · exact .inr ⟨.am, rfl, rfl⟩
  · exact .inr ⟨.ams, rfl, rfl⟩
  · exact .inr ⟨.lsb, rfl, rfl⟩
  · exact .inr ⟨.usb, rfl, rfl⟩
  · exact .inr ⟨.fm, rfl, rfl⟩
  · exact .inr ⟨.cw, rfl, rfl⟩
  all_goals exact .inl ⟨by decide, rfl⟩

/-! ### What a command can do -/

/-- The next states of a command, by kind. -/
inductive CommandEffect (s : State) : Instr → State → Prop
  /-- A getter, or SPEC_READ by the holder: response words, and nothing else. -/
  | answer (i : Instr) (ws : List Word) (other : i ≠ .processBlock) : CommandEffect s i (s.respond ws)
  /-- CLR_STATUS. -/
  | clear : CommandEffect s .clrStatus ({ s with regs := { s.regs with status := 0 } }.respond [])
  /-- A command abandoned by raise. -/
  | raise (i : Instr) (e : Err) (other : i ≠ .processBlock) : CommandEffect s i (s.raiseErr e)
  /-- A setter that completes: the new pending registers are legal if the old ones were. -/
  | setter (i : Instr) (x : Controls) (b : Bool) (other : i ≠ .processBlock)
      (legal : 1 ≤ s.cfg.numBw → s.regs.pend.Legal s.cfg → x.Legal s.cfg) : CommandEffect s i (s.setPend x b)
  /-- USB_SET_MUTE. -/
  | mute (b : Bool) :
      CommandEffect s (.usbSetMute b)
        ({ s with regs := { s.regs with usb := { s.regs.usb with mute := b } } }.respond [])
  /-- USB_SET_VOLUME. -/
  | usbVolume (u : BitVec 24) (n : Nat) (b : Bool) (le : n ≤ 256) :
      CommandEffect s (.usbSetVolume u)
        (({ s with regs := { s.regs with usb := { s.regs.usb with vol := n } } }.recordIf b .clamped).respond [])
  /-- USB_POP. -/
  | pop (u : BitVec 24) (ws : List Word) :
      CommandEffect s (.usbPop u)
        ({ s with regs := { s.regs with ring := (rbPop s.cfg.rbCap s.regs.ring u.toNat).1 } }.respond ws)
  /-- SPEC_ACQUIRE takes the free lock. -/
  | acquire (free : s.regs.spec.lock = .free) :
      CommandEffect s .specAcquire ((s.setLock (.consumer s.cur)).respond [])
  /-- SPEC_RELEASE by the holder. -/
  | release (held : s.regs.spec.lock = .consumer s.cur) :
      CommandEffect s .specRelease ((s.setLock .free).respond [])
  /-- RESET. -/
  | reset : CommandEffect s .reset ({ s.abortBlock with regs := Regs.reset }.respond [])
  /-- SPEC_ACQUIRE or PROCESS_BLOCK holds. -/
  | hold (i : Instr) : CommandEffect s i s
  /-- PROCESS_BLOCK starts a block. -/
  | start (idle : s.regs.seq = .idle) :
      CommandEffect s .processBlock (beginStep { s with regs := { s.regs with seq := .begun, seqPort := s.cur } })
  /-- The BEGIN step of a block whose seq is at BEGIN. -/
  | begin (own : s.regs.seqPort = s.cur) (begun : s.regs.seq = .begun) : CommandEffect s .processBlock (beginStep s)
  /-- A SAMPLE step. -/
  | sample (j : Nat) (t : State) (own : s.regs.seqPort = s.cur) (at_j : s.regs.seq = .sample j)
      (go : sampleStep s j = .next t) : CommandEffect s .processBlock t
  /-- The END step. -/
  | finish (own : s.regs.seqPort = s.cur) (ending : s.regs.seq = .ending) :
      CommandEffect s .processBlock ((endStep s).respond [])

theorem execSetMode_effect {mode bw : BitVec 4} {s t : State} (h : execSetMode mode bw s = .next t) :
    CommandEffect s (.setMode mode bw) t := by
  simp only [execSetMode] at h
  rcases modeOf_cases mode with ⟨_, hm⟩ | ⟨md, _, hm⟩
  · rw [hm] at h
    cases h
    exact .raise _ _ nofun
  · rw [hm] at h
    cases h
    refine .setter _ _ _ nofun fun hn hl => ?_
    refine { hl with bw := ?_ }
    simp only [clampNat_fst]
    omega

theorem exec_effect {i : Instr} {s t : State} (h : exec i s = .next t) : CommandEffect s i t := by
  cases i with
  | reset => cases h; exact .reset
  | processBlock =>
    simp only [exec, execProcessBlock] at h
    split at h
    · cases h; exact .start ‹_›
    · split at h
      · cases h; exact .begin ‹_› ‹_›
      · cases h; exact .hold _
    · split at h
      · exact .sample _ _ ‹_› ‹_› h
      · cases h; exact .hold _
    · split at h
      · cases h; exact .finish ‹_› ‹_›
      · cases h; exact .hold _
  | getStatus => cases h; exact .answer _ _ nofun
  | clrStatus => cases h; exact .clear
  | setMode mode bw => exact execSetMode_effect h
  | setShift v =>
    cases h
    refine .setter _ _ _ nofun fun _ hl => ?_
    refine { hl with shiftLo := ?_, shiftHi := ?_ } <;> simp only [clampInt_fst] <;> omega
  | setSwapIq b => cases h; exact .setter _ _ _ nofun fun _ hl => { hl with }
  | setIqCorr b => cases h; exact .setter _ _ _ nofun fun _ hl => { hl with }
  | setDeemph u =>
    cases h
    exact .setter _ _ _ nofun fun _ hl => { hl with deemph := by simp only [clampNat_fst]; omega }
  | setAgcSpeed u =>
    cases h
    exact .setter _ _ _ nofun fun _ hl => { hl with agc := by simp only [clampNat_fst]; omega }
  | setAutonotch b => cases h; exact .setter _ _ _ nofun fun _ hl => { hl with }
  | setSidetone u =>
    cases h
    exact .setter _ _ _ nofun fun _ hl => { hl with sidetone := by simp only [clampNat_fst]; omega }
  | setVolume u =>
    cases h
    exact .setter _ _ _ nofun fun _ hl => { hl with volume := by simp only [clampNat_fst]; omega }
  | setSquelch u =>
    cases h
    exact .setter _ _ _ nofun fun _ hl => { hl with squelch := by simp only [clampNat_fst]; omega }
  | setGainCal v =>
    cases h
    refine .setter _ _ _ nofun fun _ hl => ?_
    refine { hl with gainLo := ?_, gainHi := ?_ } <;> simp only [clampInt_fst] <;> omega
  | setPwmScale u =>
    cases h
    exact .setter _ _ _ nofun fun _ hl => { hl with pwm := u.isLt }
  | getSignalDbm => cases h; exact .answer _ _ nofun
  | getSquelch => cases h; exact .answer _ _ nofun
  | getUsbFill => cases h; exact .answer _ _ nofun
  | usbSetMute b => cases h; exact .mute b
  | usbSetVolume u =>
    cases h
    exact .usbVolume u _ _ (by simp only [clampNat_fst]; omega)
  | usbPop u => cases h; exact .pop u _
  | specAcquire =>
    simp only [exec, execSpecAcquire] at h
    split at h
    · cases h; exact .raise _ _ nofun
    · split at h
      · cases h; exact .acquire ‹_›
      · cases h; exact .hold _
  | specRead =>
    simp only [exec, execSpecRead] at h
    split at h
    · cases h; exact .answer _ _ nofun
    · cases h; exact .raise _ _ nofun
  | specRelease =>
    simp only [exec, execSpecRelease] at h
    split at h
    · cases h; exact .release ‹_›
    · cases h; exact .raise _ _ nofun

/-! ### What a step can do -/

/-- The next states of a step. -/
inductive StepEffect (s : State) : State → Prop
  /-- No agent has a step. -/
  | quiet (h : s.quiet = true) : StepEffect s s
  /-- The agent whose turn it is has nothing to do, or must hold. -/
  | pass : StepEffect s s.tick
  /-- The acquisition source writes a RAW entry, between blocks. -/
  | write (k : Nat) (v : BitVec 16) (rest : List (Nat × BitVec 16)) (turn : s.nextAgent = .acquisition)
      (idle : s.regs.seq = .idle) (todo : s.acq = (k, v) :: rest) (exists_k : k < s.cfg.blockSize) :
      StepEffect s { s.tick with raw := s.raw.write k v, acq := rest }
  /-- A port runs its command. -/
  | run (p : Port) (w : Word) (i : Instr) (t : State) (turn : s.nextAgent = .port p) (fetched : s.fetch p = some w)
      (decoded : decode w = .ok i) (ran : exec i { s.tick with cur := p } = .next t) : StepEffect s t
  /-- A port's word is no command. -/
  | noCommand (p : Port) (w : Word) (e : DecodeError) (turn : s.nextAgent = .port p) (fetched : s.fetch p = some w)
      (decoded : decode w = .error e) : StepEffect s ({ s.tick with cur := p }.raiseErr (decodeErr e))

theorem acquire_effect {s t : State} (h : acquire s = .next t) :
    t = s ∨ ∃ k v rest, s.regs.seq = .idle ∧ s.acq = (k, v) :: rest ∧ k < s.cfg.blockSize ∧
      t = { s with raw := s.raw.write k v, acq := rest } := by
  simp only [acquire] at h
  split at h
  · rename_i k v rest hi ha
    split at h
    · cases h
      exact .inr ⟨k, v, rest, hi, ha, ‹_›, rfl⟩
    · cases h
  · cases h
    exact .inl rfl

theorem step_effect {s t : State} (h : step s = .next t) : s.cfg.Admissible ∧ StepEffect s t := by
  simp only [step] at h
  split at h
  · cases h
  · rename_i hadm
    refine ⟨not_not.1 hadm, ?_⟩
    split at h
    · cases h
      exact .quiet ‹_›
    · split at h
      · rcases acquire_effect h with rfl | ⟨k, v, rest, hi, ha, hk, rfl⟩
        · exact .pass
        · simp only [State.tick_regs, State.tick_acq, State.tick_cfg] at hi ha hk
          rw [State.tick_raw]
          exact .write k v rest ‹_› hi ha hk
      · rename_i p hp
        split at h
        · cases h
          exact .pass
        · rename_i w hw
          split at h
          · exact .run p w _ t hp hw ‹_› h
          · cases h
            exact .noCommand p w _ hp hw ‹_›

/-- An invariant of every step, from its parts. Those that do not read the schedule or the ports need only this much
said: it survives a turn and a completed command, a recorded error, a RAW write, and every command. -/
theorem step_invariant {P : State → Prop} {s t : State} (h : step s = .next t) (hs : P s)
    (tick : P s → P s.tick)
    (write : ∀ k v rest, P s → s.regs.seq = .idle → s.acq = (k, v) :: rest → k < s.cfg.blockSize →
      P { s.tick with raw := s.raw.write k v, acq := rest })
    (select : ∀ p, P s → P { s.tick with cur := p })
    (raise : ∀ (u : State) e, P u → P (u.raiseErr e))
    (run : ∀ (u : State) i v, u.cfg.Admissible → P u → exec i u = .next v → P v) : P t := by
  obtain ⟨hadm, he⟩ := step_effect h
  cases he with
  | quiet => exact hs
  | pass => exact tick hs
  | write k v rest _ hi ha hk => exact write k v rest hs hi ha hk
  | run p w i _ _ _ _ hr => exact run _ i t (by simpa using hadm) (select p hs) hr
  | noCommand p w e => exact raise _ _ (select p hs)

end Sys2Proof.Machine
end

