-- ==== Sys2Proof/Machine/Asm.lean ====
section
/-! DEFINITION. The assembler of 30_encoding R102, R103: one command per line to a port and its command words. It is
the spec's own notation for programs, no part of the machine; nothing of the machine uses it (log 14 says what R102 leaves open). -/

namespace Sys2Proof.Machine

/-- Operand formats (30_encoding R92). -/
inductive Format where
  | n
  | b
  | u8
  | u24
  | s24
  | m
  deriving DecidableEq, Repr

/-- Mnemonic, op, format (30_encoding R95), and the port a line without a prefix names (R102). -/
structure AsmRow where
  name : String
  op : BitVec 8
  format : Format
  port : Port
  deriving DecidableEq, Repr

/-- The opcode map (30_encoding R95) with R102's default ports. -/
def asmTable : List AsmRow :=
  [⟨"reset", 0x01, .n, .host⟩, ⟨"process_block", 0x02, .n, .producer⟩, ⟨"get_status", 0x03, .n, .host⟩,
   ⟨"clr_status", 0x04, .n, .host⟩, ⟨"set_mode", 0x10, .m, .host⟩, ⟨"set_shift", 0x11, .s24, .host⟩,
   ⟨"set_swap_iq", 0x12, .b, .host⟩, ⟨"set_iq_corr", 0x13, .b, .host⟩, ⟨"set_deemph", 0x14, .u8, .host⟩,
   ⟨"set_agc_speed", 0x15, .u8, .host⟩, ⟨"set_autonotch", 0x16, .b, .host⟩, ⟨"set_sidetone", 0x17, .u24, .host⟩,
   ⟨"set_volume", 0x18, .u8, .host⟩, ⟨"set_squelch", 0x19, .u8, .host⟩, ⟨"set_gain_cal", 0x1A, .s24, .host⟩,
   ⟨"set_pwm_scale", 0x1B, .u24, .host⟩, ⟨"get_signal_dbm", 0x20, .n, .host⟩, ⟨"get_squelch", 0x21, .n, .host⟩,
   ⟨"get_usb_fill", 0x22, .n, .host⟩, ⟨"usb_set_mute", 0x30, .b, .usb⟩, ⟨"usb_set_volume", 0x31, .u24, .usb⟩,
   ⟨"usb_pop", 0x32, .u24, .usb⟩, ⟨"spec_acquire", 0x40, .n, .spectrum⟩, ⟨"spec_read", 0x41, .n, .spectrum⟩,
   ⟨"spec_release", 0x42, .n, .spectrum⟩]

/-- The line up to its comment (30_encoding R102). -/
def stripComment (l : List Char) : List Char := l.takeWhile (· != ';')

/-- The words of a line, separated by blanks, tabs and commas; `cur` is the word under way, reversed. -/
def asmWords : List Char → List Char → List (List Char)
  | [], cur => if cur.isEmpty then [] else [cur.reverse]
  | c :: cs, cur =>
    if c = ' ' ∨ c = '\t' ∨ c = ',' then
      (if cur.isEmpty then asmWords cs [] else cur.reverse :: asmWords cs [])
    else asmWords cs (c :: cur)

/-- The value of a digit in base 10 or 16. -/
def digitValue (base : Nat) (c : Char) : Option Nat :=
  let n := c.toNat
  let v := if 48 ≤ n ∧ n ≤ 57 then n - 48 else if 97 ≤ n ∧ n ≤ 102 then n - 87 else if 65 ≤ n ∧ n ≤ 70 then n - 55 else 99
  if v < base then some v else none

/-- A digit string, the value so far being acc. -/
def asmDigits (base : Nat) : List Char → Nat → Option Nat
  | [], acc => some acc
  | c :: cs, acc =>
    match digitValue base c with
    | some d => asmDigits base cs (acc * base + d)
    | none => none

/-- An unsigned number: decimal, or hexadecimal after 0x (30_encoding R102). -/
def asmUnsigned : List Char → Option Nat
  | '0' :: 'x' :: c :: cs => asmDigits 16 (c :: cs) 0
  | c :: cs => asmDigits 10 (c :: cs) 0
  | [] => none

/-- A number with an optional sign (30_encoding R102). -/
def asmNumber : List Char → Option Int
  | '-' :: cs => (asmUnsigned cs).map fun n => -(n : Int)
  | '+' :: cs => (asmUnsigned cs).map fun n => (n : Int)
  | cs => (asmUnsigned cs).map fun n => (n : Int)

/-- A mode operand: a name or a number (30_encoding R102). -/
def asmMode (l : List Char) : Option Int :=
  if l = "am".toList then some 0
  else if l = "ams".toList then some 1
  else if l = "lsb".toList then some 2
  else if l = "usb".toList then some 3
  else if l = "fm".toList then some 4
  else if l = "cw".toList then some 5
  else asmNumber l

/-- A number that lies in [lo, hi], as 24 operand bits. -/
def operandIn (v : Option Int) (lo hi : Int) : Option (BitVec 24) :=
  match v with
  | some n => if lo ≤ n ∧ n ≤ hi then some (BitVec.ofInt 24 n) else none
  | none => none

/-- The operand bits of a format from the operand words (30_encoding R92, R102). -/
def asmOperand : Format → List (List Char) → Option (BitVec 24)
  | .n, [] => some 0
  | .b, [x] => operandIn (asmNumber x) 0 1
  | .u8, [x] => operandIn (asmNumber x) 0 255
  | .u24, [x] => operandIn (asmNumber x) 0 16777215
  | .s24, [x] => operandIn (asmNumber x) (-8388608) 8388607
  | .m, [x, y] =>
    match operandIn (asmMode x) 0 15, operandIn (asmNumber y) 0 15 with
    | some m, some bw => some (m ||| (bw <<< 4))
    | _, _ => none
  | _, _ => none

/-- The port a prefix names (30_encoding R102). -/
def portPrefix (l : List Char) : Option Port :=
  if l = "@p0:".toList then some .producer
  else if l = "@p1:".toList then some .host
  else if l = "@p2:".toList then some .usb
  else if l = "@p3:".toList then some .spectrum
  else none

/-- A pseudo-instruction's line (30_encoding R103). The count of process_blocks is taken without a sign, which R103 does
not say: `process_blocks +4` gives none (DESIGN CHOICE, log 14). -/
def asmPseudo : List (List Char) → Option Pseudo
  | [x] =>
    if x = "get_spectrum".toList then some .getSpectrum
    else if x = "mute_usb".toList then some .muteUsb
    else if x = "unmute_usb".toList then some .unmuteUsb
    else none
  | [x, y] => if x = "process_blocks".toList then (asmUnsigned y).map .processBlocks else none
  | _ => none

/-- The port of a pseudo-instruction's commands where no prefix names one: that of the commands it expands to. -/
def pseudoPort : Pseudo → Port
  | .getSpectrum => .spectrum
  | .muteUsb => .usb
  | .unmuteUsb => .usb
  | .processBlocks _ => .producer

/-- A line's words, after any port prefix: its default port and its command words. -/
def asmCommand : List (List Char) → Option (Port × List Word)
  | [] => none
  | x :: ops =>
    match asmTable.find? (fun r => r.name.toList = x) with
    | some r => (asmOperand r.format ops).map fun o => (r.port, [commandWord r.op o])
    | none => (asmPseudo (x :: ops)).map fun p => (pseudoPort p, p.expand.map encode)

/-- One line (30_encoding R102, R103): the port and the command words; a blank line gives no words; none where the line
is not of the syntax. A blank must follow the port prefix, which R102 does not say: `@p0:process_block` gives none
(DESIGN CHOICE, log 14). -/
def assembleLine (line : List Char) : Option (Port × List Word) :=
  match asmWords (stripComment line) [] with
  | [] => some (.host, [])
  | x :: rest =>
    match portPrefix x with
    | some p => (asmCommand rest).map fun r => (p, r.2)
    | none => asmCommand (x :: rest)

end Sys2Proof.Machine
end

