-- ==== Sys2Proof/Tests/Slice0.lean ====
section
/-! SUPPORT. Tests: the WellFormed smoke test, one written-out word per command, one step of each command on a small
state, the datapath's units on the spec's own vectors, and for every obligation with hypotheses a state and operands
that meet them. Expected values are those of spec/30_encoding, 48_commands and 95_test_vectors, or hand calculation
from the rule named. -/

namespace Sys2Proof.Tests

-- One thread: these many small evaluations, each with a large stack, would not fit side by side.
set_option Elab.async false

open Sys2Proof Sys2Proof.Machine

/-! ### WellFormed: modes 6 to 15 have no encoding (30_encoding R97) -/

theorem test_wellFormed_refuses_mode_6 : (Instr.setMode 6 0).wellFormed = false := by decide
theorem test_wellFormed_refuses_mode_15 : (Instr.setMode 15 15).wellFormed = false := by decide
theorem test_wellFormed_takes_mode_5 : (Instr.setMode 5 15).wellFormed = true := by decide

/-! ### One written-out word per command: op in bits 31..24, operand in bits 23..0 (30_encoding R91, R92, R95) -/

theorem test_decode_reset : decode 0b00000001_000000000000000000000000#32 = .ok .reset := by decide
theorem test_decode_processBlock : decode 0b00000010_000000000000000000000000#32 = .ok .processBlock := by decide
theorem test_decode_getStatus : decode 0b00000011_000000000000000000000000#32 = .ok .getStatus := by decide
theorem test_decode_clrStatus : decode 0b00000100_000000000000000000000000#32 = .ok .clrStatus := by decide
theorem test_decode_setMode : decode 0b00010000_0000000000000000_0010_0101#32 = .ok (.setMode 5 2) := by decide
theorem test_decode_setShift : decode 0b00010001_111111111111011001110110#32 = .ok (.setShift 0xFFF676) := by decide
theorem test_decode_setSwapIq : decode 0b00010010_00000000000000000000000_1#32 = .ok (.setSwapIq true) := by decide
theorem test_decode_setIqCorr : decode 0b00010011_00000000000000000000000_0#32 = .ok (.setIqCorr false) := by decide
theorem test_decode_setDeemph : decode 0b00010100_0000000000000000_00000010#32 = .ok (.setDeemph 2) := by decide
theorem test_decode_setAgcSpeed : decode 0b00010101_0000000000000000_00000011#32 = .ok (.setAgcSpeed 3) := by decide
theorem test_decode_setAutonotch : decode 0b00010110_00000000000000000000000_1#32 = .ok (.setAutonotch true) := by decide
theorem test_decode_setSidetone : decode 0b00010111_000000000000001010111100#32 = .ok (.setSidetone 700) := by decide
theorem test_decode_setVolume : decode 0b00011000_0000000000000000_11111111#32 = .ok (.setVolume 255) := by decide
theorem test_decode_setSquelch : decode 0b00011001_0000000000000000_00001100#32 = .ok (.setSquelch 12) := by decide
theorem test_decode_setGainCal : decode 0b00011010_111111111111111111101100#32 = .ok (.setGainCal 0xFFFFEC) := by decide
theorem test_decode_setPwmScale : decode 0b00011011_000000000000001111101000#32 = .ok (.setPwmScale 1000) := by decide
theorem test_decode_getSignalDbm : decode 0b00100000_000000000000000000000000#32 = .ok .getSignalDbm := by decide
theorem test_decode_getSquelch : decode 0b00100001_000000000000000000000000#32 = .ok .getSquelch := by decide
theorem test_decode_getUsbFill : decode 0b00100010_000000000000000000000000#32 = .ok .getUsbFill := by decide
theorem test_decode_usbSetMute : decode 0b00110000_00000000000000000000000_1#32 = .ok (.usbSetMute true) := by decide
theorem test_decode_usbSetVolume : decode 0b00110001_000000000000000010000000#32 = .ok (.usbSetVolume 128) := by decide
theorem test_decode_usbPop : decode 0b00110010_000000000000000000000100#32 = .ok (.usbPop 4) := by decide
theorem test_decode_specAcquire : decode 0b01000000_000000000000000000000000#32 = .ok .specAcquire := by decide
theorem test_decode_specRead : decode 0b01000001_000000000000000000000000#32 = .ok .specRead := by decide
theorem test_decode_specRelease : decode 0b01000010_000000000000000000000000#32 = .ok .specRelease := by decide

/-- Illegal ops, reserved-zero bits and reserved modes (30_encoding R96, R97). -/
theorem test_decode_refusals :
    [0x00000000#32, 0xFFFFFFFF#32, 0x05000000#32, 0x1C000000#32, 0x43000000#32].map decode =
      List.replicate 5 (.error .illegal) ∧
    [0x01000001#32, 0x12000002#32, 0x14000100#32, 0x10000006#32, 0x10000100#32, 0x42800000#32].map decode =
      List.replicate 6 (.error .reserved) := by decide

/-- The assembler's lines (30_encoding R102, R103), two of the model's own choices among them (log 14). -/
theorem test_assembleLine :
    assembleLine "set_mode usb, 0".toList = some (.host, [0x10000003]) ∧
    assembleLine "@p0: set_shift -2442 ; tune".toList = some (.producer, [0x11FFF676]) ∧
    assembleLine "@p0:process_block".toList = none ∧ assembleLine "process_blocks +4".toList = none ∧
    assembleLine "get_spectrum".toList = some (.spectrum, [0x40000000, 0x41000000, 0x42000000]) := by decide +kernel

/-! ### One step of each command -/

/-- The state after an instruction, the state itself where it gives none. -/
def after (i : Instr) (s : State) : State :=
  match exec i s with
  | .next t => t
  | .fault _ => s
  | .refused _ => s

/-- The response of the command last completed on the current port. -/
def answer (s : State) : Option (List Word) := (s.ports.get s.cur).replies.getLast?

/-- The machine after reset, executing for port p, with some registers changed. -/
def on (p : Port) (f : Regs → Regs) : State := { State.reset with cur := p, regs := f Regs.reset }

/-- 48_commands R300's example: STATUS is 0x34 after one SET_VOLUME 12. -/
def clampedOnce : State := after (.setVolume 12) (on .host id)

theorem test_getStatus_after_clamp : answer (after .getStatus clampedOnce) = some [0x34] := by decide +kernel
theorem test_getStatus_busy_producer :
    answer (after .getStatus (on .host fun r => { r with seq := .sample 3, spec := { r.spec with lock := .producer } })) =
      some [0xA00] := by decide +kernel
theorem test_clrStatus : (after .clrStatus clampedOnce).regs.status = 0 ∧
    (after .clrStatus clampedOnce).regs.pend.volume = 9 := by decide +kernel
theorem test_reset_registers : (after .reset clampedOnce).regs.status = 0 ∧
    (after .reset clampedOnce).regs.pend.volume = 0 ∧ (after .reset clampedOnce).regs.iq.c2 = 32768 := by decide +kernel

/-- 70_reset_and_hazards R331: RESET completes the PROCESS_BLOCK of the port whose block it ends. -/
theorem test_reset_mid_block :
    let s := on .host fun r => { r with seq := .sample 7 }
    let t := after .reset { s with ports := s.ports.set .producer ⟨[0x02000000], []⟩ }
    t.regs.seq = .idle ∧ t.ports.producer = ⟨[], [[]]⟩ := by decide +kernel

theorem test_setMode : (after (.setMode 5 1) (on .host id)).regs.pend.mode = .cw ∧
    (after (.setMode 5 1) (on .host id)).regs.pend.bw = 1 := by decide +kernel
theorem test_setMode_clamps_and_refuses :
    (after (.setMode 2 9) (on .host id)).regs.pend.bw = 1 ∧ (after (.setMode 2 9) (on .host id)).regs.status = 0x34 ∧
    (after (.setMode 7 1) (on .host id)).regs.pend.bw = 0 ∧ (after (.setMode 7 1) (on .host id)).regs.status = 0x22 := by
  decide +kernel
theorem test_setShift_clamps : (after (.setShift 40000) (on .host id)).regs.pend.shift = 31250 ∧
    (after (.setShift 40000) (on .host id)).regs.status = 0x34 := by decide +kernel
theorem test_setShift_negative : (after (.setShift 0xFFF676) (on .host id)).regs.pend.shift = -2442 := by decide +kernel
theorem test_setSwapIq : (after (.setSwapIq true) (on .host id)).regs.pend.swap = true ∧
    (after (.setSwapIq true) (on .host id)).regs.act.swap = false := by decide +kernel
theorem test_setIqCorr : (after (.setIqCorr true) (on .host id)).regs.pend.iqCorr = true := by decide +kernel
theorem test_setDeemph : (after (.setDeemph 3) (on .host id)).regs.pend.deemph = 2 := by decide +kernel
theorem test_setAgcSpeed : (after (.setAgcSpeed 4) (on .host id)).regs.pend.agc = 3 := by decide +kernel
theorem test_setAutonotch : (after (.setAutonotch true) (on .host id)).regs.pend.notch = true := by decide +kernel
theorem test_setSidetone : (after (.setSidetone 700) (on .host id)).regs.pend.sidetone = 700 ∧
    (after (.setSidetone 20000) (on .host id)).regs.pend.sidetone = 15625 := by decide +kernel
theorem test_setVolume : (after (.setVolume 9) (on .host id)).regs.pend.volume = 9 ∧
    (after (.setVolume 9) (on .host id)).regs.status = 0 := by decide +kernel
theorem test_setSquelch : (after (.setSquelch 13) (on .host id)).regs.pend.squelch = 12 := by decide +kernel
theorem test_setGainCal : (after (.setGainCal 0xFFFFEC) (on .host id)).regs.pend.gainCal = -20 ∧
    (after (.setGainCal 4096) (on .host id)).regs.pend.gainCal = 255 := by decide +kernel
theorem test_setPwmScale : (after (.setPwmScale 0xFFFFFF) (on .host id)).regs.pend.pwm = 16777215 ∧
    (after (.setPwmScale 0xFFFFFF) (on .host id)).regs.status = 0 := by decide +kernel
theorem test_getSignalDbm_after_reset : answer (after .getSignalDbm (on .host id)) = some [0xFF800000] := by decide +kernel
theorem test_getSquelch_after_reset : answer (after .getSquelch (on .host id)) = some [0] := by decide +kernel
theorem test_getUsbFill :
    [0, 2, 3, 128, 255, 256].map (fun n => answer (after .getUsbFill
      (on .usb fun r => { r with ring := { r.ring with count := n } }))) =
    [0, 0, 1, 50, 99, 100].map fun n => some [n] := by decide +kernel
theorem test_usbSetMute : (after (.usbSetMute true) (on .usb id)).regs.usb.mute = true ∧
    (after (.usbSetMute true) (on .usb id)).regs.usb.blkMute = false := by decide +kernel
theorem test_usbSetVolume : (after (.usbSetVolume 512) (on .usb id)).regs.usb.vol = 256 ∧
    (after (.usbSetVolume 512) (on .usb id)).regs.status = 0x34 := by decide +kernel

/-- 48_commands R295's example ring: F4 01 FF FF 00 80, oldest first, here across the end of rb_data. -/
def popRing : State :=
  on .usb fun r => { r with ring := ⟨[(0, 0xFF), (1, 0xFF), (3, 0x80), (254, 0xF4), (255, 0x01)], 254, 6⟩ }

theorem test_usbPop_four : answer (after (.usbPop 4) popRing) = some [4, 0xFFFF01F4] := by decide +kernel
theorem test_usbPop_rest : answer (after (.usbPop 100) (after (.usbPop 4) popRing)) = some [2, 0x00008000] := by
  decide +kernel
theorem test_specAcquire_takes : (after .specAcquire (on .spectrum id)).regs.spec.lock = .consumer .spectrum := by
  decide +kernel
theorem test_specAcquire_twice :
    (after .specAcquire (after .specAcquire (on .spectrum id))).regs.status = 0x48 := by decide +kernel

/-- 47_spectrum R259: a pair of entries of 1.0 each reads 2.0, 0x40000000. -/
theorem test_specRead_pair :
    answer (after .specRead (on .spectrum fun r =>
      { r with spec := ⟨Vector.replicate 256 65536, .consumer .spectrum, false⟩ })) =
      some (List.replicate 128 0x40000000) := by decide +kernel
theorem test_specRead_without_lock : answer (after .specRead (on .spectrum id)) = some [] ∧
    (after .specRead (on .spectrum id)).regs.status = 0x48 := by decide +kernel
theorem test_specRelease : (after .specRelease (after .specAcquire (on .spectrum id))).regs.spec.lock = .free := by
  decide +kernel
theorem test_specRelease_other_port :
    (after .specRelease { after .specAcquire (on .spectrum id) with cur := .host }).regs.spec.lock =
      .consumer .spectrum := by decide +kernel

/-- BEGIN: SHIFT 2442 gives bin_shift 10, sidetone 700 gives cw_inc 45, squelch 4 at gain 120 the threshold 7
(42_channel_filter R153, 44_demodulators R203, 45_conditioner R216). -/
theorem test_processBlock_begin :
    let t := after .processBlock (on .producer fun r =>
      { r with pend := { r.pend with shift := 2442, sidetone := 700, squelch := 4, gainCal := 120 } })
    t.regs.latched = ⟨10, 45, 7⟩ ∧ t.regs.seq = .sample 0 ∧ t.regs.spec.lock = .producer := by decide +kernel

/-- END: 64 magnitudes of 999 at gain 120 publish 999 and 0xC27008E6 (45_conditioner R220, R221). -/
theorem test_processBlock_end :
    let t := after .processBlock (on .producer fun r =>
      { r with seq := .ending, act := { r.act with gainCal := 120 }, pub := { r.pub with magSum := 63999, magCnt := 64 } })
    t.regs.pub.sigEst = 999 ∧ t.regs.pub.sigDbm = 0xC27008E6 ∧ t.regs.seq = .idle := by decide +kernel

/-! ### The datapath's units (95_test_vectors) -/

/-- Four calls of 1: the integrators stand at 4, 10, 20, 35 (40_cic R111). -/
theorem test_cic_integrators :
    let c := (cicIntegrate · 1)^[4] CicChannel.reset
    (c.integ0, c.integ1, c.integ2, c.integ3) = (4, 10, 20, 35) := by decide
/-- (100, -50) from reset: the fourth call gives (54, -28), the twelfth (398, -200) (40_cic R116). -/
theorem test_cic_outputs :
    (cicRun Config.testCfg Cic.reset (List.replicate 4 ⟨100, -50⟩)).2 = some ⟨54, -28⟩ ∧
    (cicRun Config.testCfg Cic.reset (List.replicate 12 ⟨100, -50⟩)).2 = some ⟨398, -200⟩ := by decide +kernel
/-- Masking, the swap and the DC removal's first output (41_frontend_iq R126, R127). -/
theorem test_frontend :
    deinterleave Config.testCfg false 0x8005 0xF007 = ⟨5, 7⟩ ∧
    deinterleave Config.testCfg true 2048 1000 = ⟨1000, 2048⟩ ∧
    (dcRemove Config.testCfg ⟨0, 0⟩ ⟨2048, 1000⟩).2 = ⟨2046, 1000⟩ := by decide +kernel
/-- Window sums (-3200, 320000, 320000), then the correction of (1000, 500) (41_frontend_iq R130, R132). -/
theorem test_iq_update :
    let u := iqUpdate ⟨512, -3200, 320000, 320000, 0, 0, 0, 0, 0, true⟩
    (u.f1, u.f2, u.c1, u.c2, u.fallback) = (-3200, 320000, -327, 32766, false) ∧ iqApply u ⟨1000, 500⟩ = ⟨999, 490⟩ := by
  decide +kernel
/-- Magnitude and phase, the corners among them (43_cordic_sine R181). -/
theorem test_cordic :
    [((100, 0) : Int × Int), (0, 100), (0, 0), (-32768, -32768), (3, -4)].map
      (fun v => (cordicMag v.1 v.2, cordicPhase v.1 v.2)) =
      [(100, -6), (99, 518), (0, 558), (46341, -768), (6, -316)] := by decide +kernel
/-- AM, FM's wrap and CW at sidetone increment 45 (44_demodulators R192, R199, R202). -/
theorem test_demodulators :
    (demodAm ⟨0, 0, 0, 0, 0⟩ ⟨1000, 0⟩).2 = 968 ∧ (demodFm ⟨0, 0, 0, 0, 0⟩ ⟨-100, 1⟩).2 = -1018 ∧
    (demodFm ⟨0, 0, 0, -1018, 0⟩ ⟨-100, -1⟩).2 = -12 ∧ (demodCw 45 ⟨0, 0, 0, 0, 45⟩ ⟨1000, 0⟩).2 = 990 := by
  decide +kernel
/-- De-emphasis preset 1 and the AGC's first output at speed 0 (45_conditioner R212, R215). -/
theorem test_conditioner :
    (deemphasis Config.testCfg 1 ⟨0, 0, 0, 0, false⟩ 10000).2 = 2364 ∧
    (agc Config.testCfg ⟨2, 8, 0⟩ ⟨0, 0, 0, 0, false⟩ 1000).2 = 32767 := by decide +kernel
/-- The strength of 3 at gain -7, of 46341 and of 7030 at gain 0 (45_conditioner R221). -/
theorem test_signalDbm :
    signalDbm 3 (-7) = 0x418456E3 ∧ signalDbm 46341 0 = 0x42BAA37C ∧ signalDbm 7030 0 = 0x4299E0D3 := by decide +kernel

/-! ### Hypotheses that can be met: one witness per obligation that has any -/

/-- A word w on the control host's port, its turn next, over the state after reset. -/
def turn (w : Nat) : State := State.reset.withFetchWord 32 w

/-- A step of some state gives a next state. -/
def goes (s : State) : Bool :=
  match step s with
  | .next _ => true
  | .fault _ => false
  | .refused _ => false

theorem goes_next {s : State} (h : goes s = true) : ∃ t, step s = .next t := by
  unfold goes at h
  split at h
  · exact ⟨_, ‹_›⟩
  · cases h
  · cases h

theorem test_admissible : Config.testCfg.Admissible := by decide +kernel

theorem test_witness_DecodeOfEncode : (Instr.setMode 5 15).wellFormed = true ∧ (Instr.usbPop 0xFFFFFF).wellFormed = true := by
  decide
theorem test_witness_EncodeOfDecode : decode 0x10000010 = .ok (.setMode 0 1) ∧ decode 0x31FFFFFF = .ok (.usbSetVolume 0xFFFFFF) := by
  decide
theorem test_witness_StepRunsDecoded :
    (turn 0x18000007).cfg.Admissible ∧ (turn 0x18000007).nextAgent = .port .host ∧
    ((turn 0x18000007).ports.get .host).cmds.head? = some 0x18000007 ∧ decode 0x18000007 = .ok (.setVolume 7) := by
  decide +kernel
theorem test_witness_StepRaisesOnNonCommand :
    (∀ w ∈ [0x00000000, 0x10000006], (turn w).cfg.Admissible ∧ (turn w).nextAgent = .port .host ∧
      ((turn w).ports.get .host).cmds.head? = some (BitVec.ofNat 32 w)) ∧
    decode 0x00000000 = .error .illegal ∧ decode 0x10000006 = .error .reserved := by decide +kernel
/-- Between blocks and within one, at the last RAW entry. -/
theorem test_witness_AcquisitionStep :
    ∀ q ∈ [Machine.Seq.idle, .sample 0],
      let s : State := { on .host (fun r => { r with seq := q }) with acq := [(1023, 5)], sched := [.acquisition] }
      s.cfg.Admissible ∧ s.nextAgent = .acquisition ∧ s.acq = [(1023, 5)] ∧ 1023 < s.cfg.blockSize ∧ s.raw.wf := by
  decide +kernel
theorem test_witness_SetModeSets : Mode.number .cw = (5 : BitVec 4).toNat ∧ 5 < (6 : BitVec 4).toNat := by decide
/-- A SAMPLE step with the notch off. -/
theorem test_witness_FlagSettersSet :
    let s := on .producer fun r => { r with seq := .sample 0 }
    s.regs.act.notch = false ∧ s.regs.seq = .sample 0 ∧ (after .processBlock s).regs.seq = .sample 1 := by decide +kernel
theorem test_witness_UsbSettersSet :
    (on .usb id).regs.seq = .idle ∧
    (after .processBlock { after (.usbSetMute true) (on .usb id) with cur := .producer }).regs.usb.blkMute = true := by
  decide +kernel
theorem test_witness_SpecAcquireTakes :
    (on .spectrum fun r => { r with spec := { r.spec with lock := .consumer .spectrum } }).regs.spec.lock =
      .consumer (on .spectrum id).cur ∧
    (on .spectrum id).regs.spec.lock = .free ∧
    (Lock.producer ≠ .consumer .spectrum ∧ Lock.producer ≠ .free) ∧ Lock.consumer .host ≠ .consumer .spectrum := by
  decide +kernel
theorem test_witness_SpecReadAnswers :
    let s := on .spectrum fun r => { r with spec := ⟨Vector.replicate 256 (46341 * 65536), .consumer .spectrum, false⟩ }
    s.regs.spec.lock = .consumer s.cur ∧ ∀ x ∈ s.regs.spec.acc.toList, 0 ≤ x ∧ x ≤ 46341 * 65536 := by decide +kernel
theorem test_witness_SpecReleaseFrees :
    (after .specAcquire (on .spectrum id)).regs.spec.lock = .consumer .spectrum ∧
    (on .spectrum id).regs.spec.lock ≠ .consumer .spectrum := by decide +kernel
theorem test_witness_BlockBegins : (on .producer id).regs.seq = .idle := by decide
/-- The last SAMPLE step of TESTCFG's block, with a filter call due. -/
def lastSample : State :=
  on .producer fun r => { r with
    seq := .sample 511
    cic := { r.cic with cnt := 3 }
    fin := { r.fin with cnt := 127 } }
/-- A due call with room and one without; a step with no call due; and an index past RAW's end. -/
theorem test_witness_BlockSamples :
    (lastSample.regs.seq = .sample 511 ∧ lastSample.regs.seqPort = lastSample.cur ∧
      2 * 511 + 1 < lastSample.cfg.blockSize ∧ lastSample.cfg.cicR ≤ lastSample.regs.cic.cnt + 1 ∧
      lastSample.regs.fin.cnt + 1 = 128 ∧
      lastSample.regs.stager.outIdx + 64 * lastSample.cfg.interpL ≤ lastSample.cfg.expanded ∧ lastSample.audioOut.wf ∧
      lastSample.regs.cond.sqOpen = false ∧ 63 < 64 ∧ 3 < lastSample.cfg.interpL) ∧
    ¬ 1 + 64 * lastSample.cfg.interpL ≤ lastSample.cfg.expanded ∧
    ¬ Config.testCfg.cicR ≤ (on .producer id).regs.cic.cnt + 1 ∧ Config.testCfg.blockSize ≤ 2 * 512 + 1 := by
  decide +kernel
theorem test_witness_BlockEnds :
    let s := on .producer fun r => { r with seq := .ending, pub := { r.pub with magCnt := 64 } }
    s.regs.seq = .ending ∧ s.regs.seqPort = s.cur ∧ 1 ≤ s.regs.pub.magCnt := by decide +kernel
theorem test_witness_SecondBlockHolds :
    (on .host fun r => { r with seq := .sample 0 }).regs.seq ≠ .idle ∧
    (on .host fun r => { r with seq := .sample 0 }).regs.seqPort ≠ (on .host id).cur := by decide +kernel
/-- A whole block of the producer's, its 514 turns scheduled. -/
def wholeBlock : State :=
  { State.reset with
    ports := State.reset.ports.set .producer ⟨[0x02000000], []⟩
    sched := List.replicate 514 (.port .producer) }
theorem test_witness_BlockRunsToEnd :
    wholeBlock.cfg.Admissible ∧ wholeBlock.regs.seq = .idle ∧ wholeBlock.regs.cic.cnt = 0 ∧
    wholeBlock.regs.fin.cnt = 0 ∧ wholeBlock.audioOut.wf ∧ (wholeBlock.ports.get .producer).cmds = 0x02000000 :: [] ∧
    wholeBlock.sched = List.replicate (wholeBlock.cfg.pairs + 2) (.port .producer) ++ [] := by decide +kernel
/-- The invariants hold after reset (Obligations.ResetSatisfiesInvariants); the step is a PROCESS_BLOCK's BEGIN. For
StoragesStayCanonical, ControlsStayLegal, SequencerStaysInStep, LockAndStatusStayConsistent, DatapathStaysInRange,
WhoWritesTheBuffers, ActiveRegistersChangeAtBegin, DatapathChangesOnlyByBlocks, LockTransitions, StatusIsSticky and
PublishedValuesChangeAtEnd. -/
theorem test_witness_steps : ∃ t, step (turn 0x02000000) = .next t := goes_next (by decide +kernel)
theorem test_witness_step_premises :
    (turn 0x02000000).MemoriesCanonical ∧ (turn 0x02000000).regs.SeqOk (turn 0x02000000).cfg ∧
    (turn 0x02000000).regs.seq ≠ .begun ∧ (turn 0x02000000).regs.LockOk ∧ statusOk (turn 0x02000000).regs.status :=
  ⟨by decide +kernel, ⟨by decide +kernel, by decide +kernel⟩, by decide +kernel, by decide +kernel, by decide +kernel⟩
theorem test_witness_StoragesStayCanonical : (turn 0x02000000).IndicesExist := by constructor <;> decide +kernel
theorem test_witness_ControlsStayLegal : (turn 0x02000000).ControlsLegal := by
  constructor <;> constructor <;> decide +kernel
theorem test_witness_DatapathStaysInRange : (turn 0x02000000).InRange := by
  constructor <;> constructor <;> first | decide +kernel | (constructor <;> decide +kernel)
theorem test_witness_MachineNeverStops :
    State.reset.cfg.Admissible ∧ State.reset.regs.SeqOk State.reset.cfg ∧
    ∀ c ∈ State.reset.acq, c.1 < State.reset.cfg.blockSize :=
  ⟨by decide +kernel, ⟨by decide +kernel, by decide +kernel⟩, by decide +kernel⟩
theorem test_witness_CaptureDoesNotAffectAudio : ∃ t, exec .processBlock (on .producer id) = .next t := ⟨_, rfl⟩
theorem test_witness_SilenceIsKept :
    (turn 0x02000000).regs.Silent ∧ (turn 0x02000000).audioOut.wf ∧ (∀ k, (turn 0x02000000).raw.read k = 0) ∧
    ∃ t, step (turn 0x02000000) = .next t :=
  ⟨by constructor <;> decide +kernel, by decide +kernel, fun _ => rfl, test_witness_steps⟩
/-- The most negative and the largest constant input whose gain fits int32, after a history that ends off the ready
phase. -/
theorem test_witness_CicDcGain :
    1 ≤ Config.testCfg.cicR ∧ 4 * Config.testCfg.cicR - 3 ≤ 13 ∧
    Int32Range ((-8388608) * (Config.testCfg.cicR : Int) ^ 4) ∧ Int32Range (8388607 * (Config.testCfg.cicR : Int) ^ 4) ∧
    (cicRun Config.testCfg Cic.reset ([⟨5, -3⟩, ⟨1, 2⟩, ⟨7, 7⟩] ++ List.replicate 13 ⟨-8388608, 8388607⟩)).2 =
      some ⟨-32768, 32767⟩ := by decide +kernel
theorem test_witness_CicReadyEveryR :
    1 ≤ Config.testCfg.cicR ∧ ([⟨1, 1⟩] : List IQ) ≠ [] ∧ (cicRun Config.testCfg Cic.reset [⟨1, 1⟩]).2.isSome = false := by
  decide +kernel
/-- IQ_UPDATE's two clauses, each at its boundary: e2 = 1 with e3² = e1², and e2 = 0. -/
theorem test_witness_IqUpdateCoefficients :
    (let u : IqCorr := ⟨0, 0, 0, 0, 32, 33, 33, 0, 0, false⟩
     1 ≤ (u.f2 + u.acc2 - u.f2 / 32) / 32 ∧
     ((u.f1 + u.acc1 - u.f1 / 32) / 32) * ((u.f1 + u.acc1 - u.f1 / 32) / 32) ≤
       ((u.f3 + u.acc3 - u.f3 / 32) / 32) * ((u.f3 + u.acc3 - u.f3 / 32) / 32)) ∧
    (let u : IqCorr := ⟨0, 0, 0, 0, 0, 31, 0, 0, 0, false⟩
     (u.f2 + u.acc2 - u.f2 / 32) / 32 < 1) := by decide +kernel
theorem test_witness_bands : (Band.mk 0 63).stop ≤ 63 ∧ (127 : Nat) < 128 := by decide
/-- The squelch threshold at 10 dB below zero, at zero and at the largest level and gain; and an estimate. -/
theorem test_witness_SquelchThresholdExact :
    (12 : Nat) ≤ 12 ∧ squelchDbm 12 + 33 < 0 ∧ 0 ≤ squelchDbm 12 + 43 ∧ 0 ≤ squelchDbm 12 + 255 ∧ (1 : Nat) ≤ 46341 := by
  decide +kernel
theorem test_witness_SignalDbmNearest :
    (1 : Nat) ≤ 46341 ∧ (46341 : Nat) ≤ 46341 ∧ (-255 : Int) ≤ -255 ∧ (255 : Int) ≤ 255 := by decide
theorem test_witness_InterpolationIsBresenham : 1 ≤ Config.testCfg.interpL := by decide
theorem test_witness_RingKeepsTheMostRecent :
    1 ≤ (256 : Nat) ∧ popRing.regs.ring.Ok 256 ∧ popRing.regs.ring.data.wf := by decide +kernel
theorem test_witness_CordicStaysBounded :
    (-46340 : Int) ≤ -46340 ∧ (-46340 : Int) ≤ 46340 ∧ (46340 : Int) ≤ 46340 ∧ (6 : Nat) ≤ 6 ∧
    (-32768 : Int) ≤ -32768 ∧ (-32768 : Int) ≤ 32767 ∧ (32767 : Int) ≤ 32767 := by decide
theorem test_witness_TablesCheck : (512 : Nat) ≤ 512 ∧ (2047 : Nat) < 2048 ∧ (1 : Nat) ≤ 255 ∧ (127 : Nat) < 128 := by decide
/-- The AGC's attack, hang and decay, and products within the setpoint and beyond it on either side. -/
theorem test_witness_AgcPhases :
    (0 < |(1 : Int)| * 2 ^ Config.testCfg.agcFrac) ∧ (|(1 : Int)| * 2 ^ Config.testCfg.agcFrac ≤ 65536 ∧ 0 < 1) ∧
    (|(0 : Int)| * 2 ^ Config.testCfg.agcFrac ≤ 0) ∧
    (let y (x : Int) := x * max 1 ((Config.testCfg.agcSetpoint : Int) / max (0 / 2 ^ Config.testCfg.agcFrac) Config.testCfg.agcEps)
     |y 1| ≤ Config.testCfg.agcSetpoint ∧ (Config.testCfg.agcSetpoint : Int) < y 2 ∧
       y (-2) < -(Config.testCfg.agcSetpoint : Int)) := by decide +kernel
theorem test_witness_UsbPopPops : popRing.regs.ring.count = 6 ∧ min (4 : BitVec 24).toNat 6 = 4 := by decide +kernel

end Sys2Proof.Tests
end

/-! The single-pole tracker on a constant input (00_scope R14): each update leaves the equilibrium alone and brings any
other accumulator strictly closer to it without crossing, so the accumulator's initial distance bounds the updates
needed. -/

namespace Sys2Proof.Machine

theorem le_asr_iff (x a : Int) (s : Nat) : x ≤ asr a s ↔ x * 2 ^ s ≤ a := by
  rw [asr_eq]
  exact Int.le_ediv_iff_mul_le (pow_pos_int s)

theorem asr_lt_iff (x a : Int) (s : Nat) : asr a s < x ↔ a < x * 2 ^ s := by
  rw [asr_eq]
  exact Int.ediv_lt_iff_lt_mul (pow_pos_int s)

/-- The accumulator is at most m away from the equilibrium [x·2^s, x·2^s + 2^s - 1] of R14. -/
def TrackerWithin (x : Int) (s m : Nat) (a : Int) : Prop :=
  x * 2 ^ s - m ≤ a ∧ a ≤ x * 2 ^ s + 2 ^ s - 1 + m

/-- Every accumulator is within its distance from the lower end of the equilibrium. -/
theorem trackerWithin_natAbs (x acc : Int) (s : Nat) : TrackerWithin x s (acc - x * 2 ^ s).natAbs acc := by
  have hp := pow_pos_int s
  unfold TrackerWithin
  omega

/-- The equilibrium is exactly the accumulators whose estimate is the input. -/
theorem trackerWithin_zero_iff (x a : Int) (s : Nat) : TrackerWithin x s 0 a ↔ asr a s = x := by
  have hle := le_asr_iff x a s
  have hlt := asr_lt_iff (x + 1) a s
  rw [add_mul, one_mul] at hlt
  unfold TrackerWithin
  omega

theorem iirTrack_fst_of_equilibrium {x a : Int} {s : Nat} (h : TrackerWithin x s 0 a) : (iirTrack a x s).1 = a := by
  rw [iirTrack_fst, (trackerWithin_zero_iff x a s).1 h]
  omega

/-- An estimate below the input raises the accumulator, not past the top of the equilibrium. -/
theorem iirTrack_fst_of_asr_lt {x a : Int} {s : Nat} (h : asr a s < x) :
    a < (iirTrack a x s).1 ∧ (iirTrack a x s).1 ≤ x * 2 ^ s + 2 ^ s - 1 := by
  rw [iirTrack_fst]
  refine ⟨by omega, ?_⟩
  have hb := (asr_bracket a s).2
  have hgap : x - asr a s ≤ (x - asr a s) * 2 ^ s := le_mul_of_one_le_right (by omega) (pow_pos_int s)
  rw [sub_mul] at hgap
  rw [add_mul, one_mul] at hb
  omega

/-- An estimate above the input lowers the accumulator, not past the bottom of the equilibrium. -/
theorem iirTrack_fst_of_lt_asr {x a : Int} {s : Nat} (h : x < asr a s) :
    x * 2 ^ s ≤ (iirTrack a x s).1 ∧ (iirTrack a x s).1 < a := by
  rw [iirTrack_fst]
  refine ⟨?_, by omega⟩
  have hb := (asr_bracket a s).1
  have hgap : asr a s - x ≤ (asr a s - x) * 2 ^ s := le_mul_of_one_le_right (by omega) (pow_pos_int s)
  rw [sub_mul] at hgap
  omega

/-- One update brings the accumulator one closer to the equilibrium, or leaves it there (m = 0). -/
theorem iirTrack_trackerWithin {x a : Int} {s m : Nat} (h : TrackerWithin x s m a) :
    TrackerWithin x s (m - 1) (iirTrack a x s).1 := by
  rcases m with _ | m
  · rwa [iirTrack_fst_of_equilibrium h]
  unfold TrackerWithin at h ⊢
  rcases lt_trichotomy (asr a s) x with hbelow | heq | habove
  · have hstep := iirTrack_fst_of_asr_lt hbelow
    omega
  · have hequi := (trackerWithin_zero_iff x a s).2 heq
    rw [iirTrack_fst_of_equilibrium hequi]
    unfold TrackerWithin at hequi
    omega
  · have hstep := iirTrack_fst_of_lt_asr habove
    omega

theorem iirTrack_iterate_trackerWithin {x acc : Int} {s m : Nat} (h : TrackerWithin x s m acc) (n : Nat) :
    TrackerWithin x s (m - n) ((fun b => (iirTrack b x s).1)^[n] acc) := by
  induction n with
  | zero => exact h
  | succ n ih =>
    rw [Function.iterate_succ_apply']
    exact iirTrack_trackerWithin ih

/-- Once there have been as many updates as the distance, the accumulator is in the equilibrium. -/
theorem iirTrack_iterate_settled {x acc : Int} {s m n : Nat} (h : TrackerWithin x s m acc) (hn : m ≤ n) :
    TrackerWithin x s 0 ((fun b => (iirTrack b x s).1)^[n] acc) := by
  have hin := iirTrack_iterate_trackerWithin h n
  rwa [Nat.sub_eq_zero_of_le hn] at hin

/-- In the equilibrium the estimate of the next update is the input. -/
theorem iirTrack_snd_of_equilibrium {x a : Int} {s : Nat} (h : TrackerWithin x s 0 a) : (iirTrack a x s).2 = x := by
  rw [iirTrack_snd, iirTrack_fst_of_equilibrium h]
  exact (trackerWithin_zero_iff x a s).1 h

/-- Settles O48: after |acc - x·2^s| updates the accumulator is in the equilibrium and the estimate is the input. -/
theorem trackerSettles : Obligations.TrackerSettles := by
  intro x acc s
  refine ⟨(acc - x * 2 ^ s).natAbs, fun n hn => ?_⟩
  have hin := iirTrack_iterate_settled (trackerWithin_natAbs x acc s) hn
  refine ⟨iirTrack_snd_of_equilibrium hin, ?_⟩
  simpa [TrackerWithin] using hin

end Sys2Proof.Machine

/-! The CORDIC magnitude of an int16 pair is at most 46341 (43_cordic_sine R179). A round with shift k multiplies the
vector's length by √(1 + 4⁻ᵏ), up to the rounding of its two shifts. Vectors no longer than 46335 end below the bound in
spite of every rounding; the longer int16 vectors lie in the four corners of the square, which are evaluated. -/

namespace Sys2Proof.Machine

/-- The vector lies in the right half-plane and is no longer than B. -/
def CordicVec.LengthLe (B : Int) (v : CordicVec) : Prop := 0 ≤ v.i ∧ v.i ^ 2 + v.q ^ 2 ≤ B ^ 2

/-- One round takes vectors no longer than B to vectors no longer than B': m = 2^k, and the terms linear in B are what
rounding adds. -/
def CordicGrowth (k : Nat) (B B' : Int) : Prop :=
  ((2 ^ k) ^ 2 + 1) * B ^ 2 + (3 * 2 ^ k + 2) * (2 ^ k - 1) * B + (2 ^ k - 1) ^ 2 ≤ (2 ^ k) ^ 2 * B' ^ 2

/-- Half the rounding terms of a round: the components' sum against the length. -/
theorem two_mul_add_le_of_sq_le {i p B : Int} (hB : 0 ≤ B) (hn : i ^ 2 + p ^ 2 ≤ B ^ 2) : 2 * (i + p) ≤ 3 * B := by
  refine le_of_not_gt fun hc => ?_
  nlinarith [sq_nonneg (i - p)]

/-- A shift-and-add with c and b, the shifts of p (rounded either way) and of i (rounded down), scaled by m². -/
theorem shiftAdd_sq_le {i p c b B m : Int} (hm : 1 ≤ m) (hi : 0 ≤ i) (hp : 0 ≤ p) (hB : 0 ≤ B)
    (hn : i ^ 2 + p ^ 2 ≤ B ^ 2) (hc0 : 0 ≤ c) (hc : c * m ≤ p + (m - 1)) (hb0 : 0 ≤ b) (hb : b * m ≤ i)
    (hb' : i - (m - 1) ≤ b * m) :
    m ^ 2 * ((i + c) ^ 2 + (p - b) ^ 2) ≤ (m ^ 2 + 1) * B ^ 2 + (3 * m + 2) * (m - 1) * B + (m - 1) ^ 2 := by
  have hcm : 0 ≤ c * m := mul_nonneg hc0 (by omega)
  have hbm : 0 ≤ b * m := mul_nonneg hb0 (by omega)
  have hpB : p ≤ B := by nlinarith
  have hcross : i * (c * m) - p * (b * m) ≤ (m - 1) * (i + p) := by nlinarith
  have hcc : (c * m) ^ 2 ≤ (p + (m - 1)) ^ 2 := pow_le_pow_left₀ hcm hc 2
  have hbb : (b * m) ^ 2 ≤ i ^ 2 := pow_le_pow_left₀ hbm hb 2
  have hsum : m * (m - 1) * (2 * (i + p)) ≤ m * (m - 1) * (3 * B) :=
    mul_le_mul_of_nonneg_left (two_mul_add_le_of_sq_le hB hn) (mul_nonneg (by omega) (by omega))
  have hlin : (m - 1) * p ≤ (m - 1) * B := mul_le_mul_of_nonneg_left hpB (by omega)
  have hlen : (m ^ 2 + 1) * (i ^ 2 + p ^ 2) ≤ (m ^ 2 + 1) * B ^ 2 := mul_le_mul_of_nonneg_left hn (by positivity)
  have hscaled := mul_le_mul_of_nonneg_left hcross (show (0 : Int) ≤ 2 * m by omega)
  calc m ^ 2 * ((i + c) ^ 2 + (p - b) ^ 2)
      = m ^ 2 * (i ^ 2 + p ^ 2) + 2 * m * (i * (c * m) - p * (b * m)) + (c * m) ^ 2 + (b * m) ^ 2 := by ring
    _ ≤ m ^ 2 * (i ^ 2 + p ^ 2) + 2 * m * ((m - 1) * (i + p)) + (p + (m - 1)) ^ 2 + i ^ 2 := by linarith
    _ = (m ^ 2 + 1) * (i ^ 2 + p ^ 2) + m * (m - 1) * (2 * (i + p)) + 2 * ((m - 1) * p) + (m - 1) ^ 2 := by ring
    _ ≤ (m ^ 2 + 1) * B ^ 2 + m * (m - 1) * (3 * B) + 2 * ((m - 1) * B) + (m - 1) ^ 2 := by linarith
    _ = (m ^ 2 + 1) * B ^ 2 + (3 * m + 2) * (m - 1) * B + (m - 1) ^ 2 := by ring

/-- A right shift loses less than one unit of 2^s. -/
theorem asr_mul_bounds (v : Int) (s : Nat) : v - (2 ^ s - 1) ≤ asr v s * 2 ^ s ∧ asr v s * 2 ^ s ≤ v := by
  obtain ⟨hle, hlt⟩ := asr_bracket v s
  rw [add_mul, one_mul] at hlt
  exact ⟨by omega, hle⟩

theorem cordicRound_lengthLe {v : CordicVec} {B B' : Int} (k : Nat) (a : Int) (hB : 0 ≤ B) (h : v.LengthLe B)
    (hg : CordicGrowth k B B') : (cordicRound v (k, a)).LengthLe B' := by
  obtain ⟨hi, hn⟩ := h
  have hm : (1 : Int) ≤ 2 ^ k := pow_pos_int k
  have hb0 := asr_nonneg k hi
  obtain ⟨hb', hb⟩ := asr_mul_bounds v.i k
  obtain ⟨hcq', hcq⟩ := asr_mul_bounds v.q k
  refine ⟨cordicRound_nonneg hi _, le_of_mul_le_mul_left ?_ (show (0 : Int) < (2 ^ k) ^ 2 by positivity)⟩
  by_cases hq : 0 ≤ v.q
  · simp only [cordicRound, if_pos hq]
    exact (shiftAdd_sq_le hm hi hq hB hn (asr_nonneg k hq) (by omega) hb0 hb hb').trans hg
  · have hc0 : asr v.q k ≤ 0 := (asr_range (lo := v.q) (hi := 0) k (le_refl _) (by omega) (by omega) (le_refl _)).2
    have hround := shiftAdd_sq_le (p := -v.q) (c := -asr v.q k) hm hi (by omega) hB (by rwa [neg_sq]) (by omega)
      (by rw [neg_mul]; omega) hb0 hb hb'
    simp only [cordicRound, if_neg hq]
    calc (2 ^ k) ^ 2 * ((v.i - asr v.q k) ^ 2 + (v.q + asr v.i k) ^ 2)
        = (2 ^ k) ^ 2 * ((v.i + -asr v.q k) ^ 2 + (-v.q - asr v.i k) ^ 2) := by ring
      _ ≤ _ := hround.trans hg

theorem cordicPre_lengthLe {i q B : Int} (h : i ^ 2 + q ^ 2 ≤ B ^ 2) : (cordicPre i q).LengthLe B := by
  refine ⟨cordicPre_nonneg i q, ?_⟩
  unfold cordicPre
  split
  · split <;> simp only <;> linarith
  · exact h

/-- The six rounds, with the length's bound after each. -/
theorem cordicRun_lengthLe {i q : Int} (h : i ^ 2 + q ^ 2 ≤ 46335 ^ 2) : (cordicRun i q).LengthLe 76300 := by
  have h0 := cordicPre_lengthLe h
  have h1 := cordicRound_lengthLe (B' := 65528) 0 256 (by decide) h0 (by norm_num [CordicGrowth])
  have h2 := cordicRound_lengthLe (B' := 73264) 1 151 (by decide) h1 (by norm_num [CordicGrowth])
  have h3 := cordicRound_lengthLe (B' := 75521) 2 80 (by decide) h2 (by norm_num [CordicGrowth])
  have h4 := cordicRound_lengthLe (B' := 76111) 3 41 (by decide) h3 (by norm_num [CordicGrowth])
  have h5 := cordicRound_lengthLe (B' := 76261) 4 20 (by decide) h4 (by norm_num [CordicGrowth])
  exact cordicRound_lengthLe 5 10 (by decide) h5 (by norm_num [CordicGrowth])

theorem cordicMag_le_of_short {i q : Int} (h : i ^ 2 + q ^ 2 ≤ 46335 ^ 2) : cordicMag i q ≤ magMax := by
  obtain ⟨_, hn⟩ := cordicRun_lengthLe h
  have hi : (cordicRun i q).i ≤ 76300 := by nlinarith [sq_nonneg (cordicRun i q).q]
  rw [cordicMag, asr_eq]
  show (cordicRun i q).i * 19902 / 2 ^ 15 ≤ 46341
  omega

/-- The magnitudes of the pairs within 8 of a corner of the int16 square. -/
theorem cordicMag_le_of_corner :
    ∀ a ∈ List.range 9, ∀ b ∈ List.range 9, ∀ i ∈ [32768 - (a : Int), a - 32768], ∀ q ∈ [32768 - (b : Int), b - 32768],
      cordicMag i q ≤ magMax := by decide +kernel

/-- A component of a long int16 pair is within 8 of the end of the range. -/
theorem near_end_of_long {x y : Int} (hx : Int16 x) (hy : Int16 y) (h : 46335 ^ 2 < x ^ 2 + y ^ 2) :
    ∃ a ∈ List.range 9, x ∈ [32768 - (a : Int), a - 32768] := by
  obtain ⟨hxlo, hxhi⟩ := hx
  obtain ⟨hylo, hyhi⟩ := hy
  have hfar : x ≤ -32760 ∨ 32760 ≤ x := by
    by_contra hc
    push Not at hc
    nlinarith
  refine ⟨32768 - x.natAbs, ?_, ?_⟩
  · rw [List.mem_range]
    omega
  · simp only [List.mem_cons, List.not_mem_nil, or_false]
    omega

/-- 43_cordic_sine R179: the magnitude of an int16 pair. -/
theorem cordicMag_le_magMax {x : IQ} (h : IQ.Int16 x) : cordicMag x.re x.im ≤ magMax := by
  rcases le_or_gt (x.re ^ 2 + x.im ^ 2) (46335 ^ 2) with hshort | hlong
  · exact cordicMag_le_of_short hshort
  · obtain ⟨a, ha, hre⟩ := near_end_of_long h.1 h.2 hlong
    obtain ⟨b, hb, him⟩ := near_end_of_long h.2 h.1 (by rwa [add_comm])
    exact cordicMag_le_of_corner a ha b hb _ hre _ him

end Sys2Proof.Machine

/-! What a step does to the core's registers, said once for the invariants and the whole-machine rules: which command
ran, what a command other than PROCESS_BLOCK and RESET leaves alone, and which steps PROCESS_BLOCK has. -/

namespace Sys2Proof.Machine

/-! ### The command that runs -/

/-- A state runs at most one command. -/
theorem State.Runs.unique {s : State} {p q : Port} {i j : Instr} (h : s.Runs p i) (g : s.Runs q j) : p = q ∧ i = j := by
  obtain ⟨hp, w, hw, hi⟩ := h
  obtain ⟨hq, v, hv, hj⟩ := g
  obtain rfl : p = q := Agent.port.inj (hp.symm.trans hq)
  obtain rfl : w = v := Option.some.inj (hw.symm.trans hv)
  exact ⟨rfl, Except.ok.inj (hi.symm.trans hj)⟩

/-- A port whose word is no command runs none. -/
theorem State.not_runs_of_error {s : State} {p : Port} {w : Word} {e : DecodeError} (turn : s.nextAgent = .port p)
    (fetched : s.fetch p = some w) (decoded : decode w = .error e) (q : Port) (i : Instr) : ¬ s.Runs q i := by
  rintro ⟨hq, v, hv, hi⟩
  obtain rfl : p = q := Agent.port.inj (turn.symm.trans hq)
  obtain rfl : w = v := Option.some.inj (fetched.symm.trans hv)
  exact nomatch decoded.symm.trans hi

/-- The registers after a step: as before; with an error recorded where a word was no command; or those a command gives
on the port that runs it. -/
theorem step_regs {s t : State} (h : step s = .next t) :
    t.regs = s.regs ∨
    (∃ e, t.regs = { s.regs with status := recordBits s.regs.status e } ∧ ∀ p i, ¬ s.Runs p i) ∨
    ∃ (u : State) (i : Instr), s.Runs u.cur i ∧ u.regs = s.regs ∧ CommandEffect u i t := by
  obtain ⟨-, he⟩ := step_effect h
  cases he with
  | quiet => exact .inl rfl
  | pass => exact .inl s.tick_regs
  | write => exact .inl s.tick_regs
  | run p w i _ turn fetched decoded ran =>
    exact .inr (.inr ⟨{ s.tick with cur := p }, i, ⟨turn, w, fetched, decoded⟩, s.tick_regs, exec_effect ran⟩)
  | noCommand p w e turn fetched decoded =>
    exact .inr (.inl ⟨decodeErr e, by rw [State.raiseErr_regs, State.tick_regs],
      State.not_runs_of_error turn fetched decoded⟩)

/-! ### Commands other than PROCESS_BLOCK -/

/-- No command writes the parameters (10_state R30). -/
theorem CommandEffect.cfg {s t : State} {i : Instr} (h : CommandEffect s i t) : t.cfg = s.cfg := by
  cases h with
  | sample j t own at_j go => exact (sampleStep_frame go).cfg
  | setter => exact State.setPend_cfg _ _ _
  | usbVolume => rw [State.respond_cfg, State.recordIf_cfg]
  | reset => exact s.abortBlock_cfg
  | _ => rfl

/-- 48_commands R273: apart from RESET these commands write the pending and the shared USB registers, the ring, the
capture lock and STATUS, and no other register. -/
theorem CommandEffect.regs_of_ne_processBlock {s t : State} {i : Instr} (h : CommandEffect s i t)
    (other : i ≠ .processBlock) :
    (i = .reset ∧ t.regs = Regs.reset) ∨
    t.regs = { s.regs with
      pend := t.regs.pend
      usb := { s.regs.usb with mute := t.regs.usb.mute, vol := t.regs.usb.vol }
      ring := t.regs.ring
      spec := { s.regs.spec with lock := t.regs.spec.lock }
      status := t.regs.status } := by
  cases h with
  | answer | clear | raise | mute | pop | acquire | release | hold => exact .inr rfl
  | setter => exact .inr (by rw [State.setPend_regs])
  | usbVolume => exact .inr (by rw [State.respond_regs, State.recordIf_regs])
  | reset => exact .inl ⟨rfl, rfl⟩
  | start | begin | sample | finish => exact absurd rfl other

/-- These commands keep the range of the USB volume and the ring's indices. -/
theorem CommandEffect.usbRing_of_ne_processBlock {s t : State} {i : Instr} (h : CommandEffect s i t)
    (other : i ≠ .processBlock) (cap : 0 < s.cfg.rbCap) (vol : s.regs.usb.vol ≤ 256) (ring : s.regs.ring.Ok s.cfg.rbCap) :
    t.regs.usb.vol ≤ 256 ∧ t.regs.ring.Ok s.cfg.rbCap := by
  cases h with
  | answer | clear | raise | mute | acquire | release | hold => exact ⟨vol, ring⟩
  | setter =>
    rw [State.setPend_regs]
    exact ⟨vol, ring⟩
  | usbVolume u n b le =>
    rw [State.respond_regs, State.recordIf_regs]
    exact ⟨le, ring⟩
  | pop u => exact ⟨vol, rbPop_ok cap ring u.toNat⟩
  | reset => exact ⟨Nat.zero_le _, cap, Nat.zero_le _⟩
  | start | begin | sample | finish => exact absurd rfl other

/-! ### PROCESS_BLOCK -/

/-- The state from which BEGIN runs when port `cur` starts a block (48_commands R266). -/
def State.started (s : State) : State := { s with regs := { s.regs with seq := .begun, seqPort := s.cur } }

/-- The steps of PROCESS_BLOCK: a hold, the start of a block, and its own block's BEGIN, SAMPLE and END. -/
theorem CommandEffect.processBlock_cases {s t : State} (h : CommandEffect s .processBlock t) :
    t = s ∨ (s.regs.seq = .idle ∧ t = beginStep s.started) ∨ (s.regs.seq = .begun ∧ t = beginStep s) ∨
    (∃ j, sampleStep s j = .next t) ∨
    (s.regs.seqPort = s.cur ∧ s.regs.seq = .ending ∧ t = (endStep s).respond []) := by
  cases h with
  | answer _ _ other => exact absurd rfl other
  | raise _ _ other => exact absurd rfl other
  | setter _ _ _ other => exact absurd rfl other
  | hold => exact .inl rfl
  | start idle => exact .inr (.inl ⟨idle, rfl⟩)
  | begin own begun => exact .inr (.inr (.inl ⟨begun, rfl⟩))
  | sample j t own at_j go => exact .inr (.inr (.inr (.inl ⟨j, go⟩)))
  | finish own ending => exact .inr (.inr (.inr (.inr ⟨own, ending, rfl⟩)))

/-! ### Active registers -/

/-- 48_commands R270: only the start of a block and RESET write the active registers. -/
theorem CommandEffect.act_cases {s t : State} {i : Instr} (h : CommandEffect s i t) (hs : s.regs.seq ≠ .begun) :
    t.regs.act = s.regs.act ∨ (i = .processBlock ∧ s.regs.seq = .idle ∧ t.regs.act = s.regs.pend) ∨
    (i = .reset ∧ t.regs = Regs.reset) := by
  by_cases hi : i = .processBlock
  · subst hi
    rcases h.processBlock_cases with rfl | ⟨idle, rfl⟩ | ⟨begun, -⟩ | ⟨j, go⟩ | ⟨-, -, rfl⟩
    · exact .inl rfl
    · exact .inr (.inl ⟨rfl, idle, rfl⟩)
    · exact absurd begun hs
    · exact .inl (sampleStep_frame go).act
    · exact .inl rfl
  · rcases h.regs_of_ne_processBlock hi with reset | frame
    · exact .inr (.inr reset)
    · exact .inl (by rw [frame])

/-- Settles O39: by what a step does to the registers, and a command to the active ones. -/
theorem activeRegistersChangeAtBegin : Obligations.ActiveRegistersChangeAtBegin := by
  intro s t hseq hstep
  rcases step_regs hstep with same | ⟨e, recorded, -⟩ | ⟨u, i, runs, hu, effect⟩
  · exact .inl (by rw [same])
  · exact .inl (by rw [recorded])
  · rw [← hu] at hseq ⊢
    rcases effect.act_cases hseq with same | ⟨rfl, idle, begun⟩ | ⟨rfl, reset⟩
    · exact .inl same
    · exact .inr (.inl ⟨u.cur, runs, idle, begun⟩)
    · exact .inr (.inr ⟨u.cur, runs, reset⟩)

/-! ### STATUS -/

/-- 60_exceptions R312: recording an error clears no bit. -/
theorem recordBits_keeps_set {st : BitVec 8} {k : Nat} (e : Err) (h : st.getLsbD k = true) :
    (recordBits st e).getLsbD k = true := by
  simp only [recordBits]
  split <;> simp [h]

/-- No step of a block writes STATUS[7:0] (60_exceptions R315). -/
theorem CommandEffect.status_of_processBlock {s t : State} (h : CommandEffect s .processBlock t) :
    t.regs.status = s.regs.status := by
  rcases h.processBlock_cases with rfl | ⟨-, rfl⟩ | ⟨-, rfl⟩ | ⟨j, go⟩ | ⟨-, -, rfl⟩
  · rfl
  · rfl
  · rfl
  · exact (sampleStep_frame go).status
  · rfl

/-- A command but CLR_STATUS and RESET leaves STATUS[7:0] alone or records an error in it. -/
theorem CommandEffect.status_cases {s t : State} {i : Instr} (h : CommandEffect s i t) :
    t.regs.status = s.regs.status ∨ (∃ e, t.regs.status = recordBits s.regs.status e) ∨ i = .clrStatus ∨ i = .reset := by
  by_cases hi : i = .processBlock
  · subst hi
    exact .inl h.status_of_processBlock
  cases h with
  | answer | mute | pop | acquire | release | hold => exact .inl rfl
  | raise _ e => exact .inr (.inl ⟨e, rfl⟩)
  | setter _ _ b =>
    rw [State.setPend_regs]
    cases b with
    | false => exact .inl rfl
    | true => exact .inr (.inl ⟨.clamped, rfl⟩)
  | usbVolume _ _ b =>
    rw [State.respond_regs, State.recordIf_regs]
    cases b with
    | false => exact .inl rfl
    | true => exact .inr (.inl ⟨.clamped, rfl⟩)
  | clear => exact .inr (.inr (.inl rfl))
  | reset => exact .inr (.inr (.inr rfl))
  | start | begin | sample | finish => exact absurd rfl hi

/-- Settles O42: every writer of STATUS but CLR_STATUS and RESET records an error, which clears no bit; a block's steps
are no writers. -/
theorem statusIsSticky : Obligations.StatusIsSticky := by
  intro s t hstep
  rcases step_regs hstep with same | ⟨e, recorded, idle⟩ | ⟨u, i, runs, hu, effect⟩
  · rw [same]
    exact ⟨fun k _ set clear => absurd set (by simp [clear]), fun _ => rfl⟩
  · rw [recorded]
    refine ⟨fun k _ set clear => absurd (recordBits_keeps_set e set) (by simp [clear]), ?_⟩
    rintro ⟨p, hp⟩
    exact absurd hp (idle p _)
  · rw [← hu]
    refine ⟨fun k _ set clear => ?_, ?_⟩
    · rcases effect.status_cases with same | ⟨e, recorded⟩ | rfl | rfl
      · rw [same, set] at clear
        cases clear
      · rw [recorded, recordBits_keeps_set e set] at clear
        cases clear
      · exact ⟨u.cur, .inl runs⟩
      · exact ⟨u.cur, .inr runs⟩
    · rintro ⟨p, hp⟩
      obtain ⟨-, rfl⟩ := runs.unique hp
      exact effect.status_of_processBlock

/-! ### Published values -/

/-- 70_reset_and_hazards R338: only END and RESET write the published values. -/
theorem CommandEffect.published_cases {s t : State} {i : Instr} (h : CommandEffect s i t) :
    (t.regs.pub.sigEst = s.regs.pub.sigEst ∧ t.regs.pub.sigDbm = s.regs.pub.sigDbm ∧
      t.regs.pub.sqOpen = s.regs.pub.sqOpen) ∨
    (i = .processBlock ∧ s.regs.seqPort = s.cur ∧ s.regs.seq = .ending) ∨ i = .reset := by
  by_cases hi : i = .processBlock
  · subst hi
    rcases h.processBlock_cases with rfl | ⟨-, rfl⟩ | ⟨-, rfl⟩ | ⟨j, go⟩ | ⟨own, ending, -⟩
    · exact .inl ⟨rfl, rfl, rfl⟩
    · exact .inl ⟨rfl, rfl, rfl⟩
    · exact .inl ⟨rfl, rfl, rfl⟩
    · exact .inl (sampleStep_published go)
    · exact .inr (.inl ⟨rfl, own, ending⟩)
  · rcases h.regs_of_ne_processBlock hi with ⟨reset, -⟩ | frame
    · exact .inr (.inr reset)
    · rw [frame]
      exact .inl ⟨rfl, rfl, rfl⟩

/-- Settles O43: by what a step does to the registers, and a command to the published values. -/
theorem publishedValuesChangeAtEnd : Obligations.PublishedValuesChangeAtEnd := by
  intro s t hstep
  rcases step_regs hstep with same | ⟨e, recorded, -⟩ | ⟨u, i, runs, hu, effect⟩
  · rw [same]
    exact .inl ⟨rfl, rfl, rfl⟩
  · rw [recorded]
    exact .inl ⟨rfl, rfl, rfl⟩
  · rw [← hu]
    rcases effect.published_cases with same | ⟨rfl, own, ending⟩ | rfl
    · exact .inl same
    · exact .inr (.inl ⟨u.cur, runs, own, ending⟩)
    · exact .inr (.inr ⟨u.cur, runs⟩)

end Sys2Proof.Machine

/-! The control registers stay legal and the datapath registers in range (10_state R33 to R40, R55 to R59): the values
after reset, each command's effect on the ranges, and the two invariants of every step, which reset meets. -/

namespace Sys2Proof.Machine

/-! ### After reset -/

theorem Controls.reset_legal {cfg : Config} (h : 1 ≤ cfg.numBw) : Controls.reset.Legal cfg where
  bw := h
  shiftLo := Int.neg_nonpos_of_nonneg (Int.natCast_nonneg _)
  shiftHi := Int.natCast_nonneg _
  deemph := Nat.zero_le _
  agc := Nat.zero_le _
  sidetone := Nat.zero_le _
  volume := Nat.zero_le _
  squelch := Nat.zero_le _
  gainLo := by decide
  gainHi := by decide
  pwm := by decide

theorem CicChannel.reset_inRange : CicChannel.reset.InRange := by
  constructor <;> decide

theorem Regs.reset_inputInRange {cfg : Config} (h : 1 ≤ cfg.cicR) : Regs.reset.InputInRange cfg where
  chI := CicChannel.reset_inRange
  chQ := CicChannel.reset_inRange
  cicCnt := h
  dcI := ⟨le_refl _, Int.natCast_nonneg _⟩
  dcQ := ⟨le_refl _, Int.natCast_nonneg _⟩
  iqN := by decide
  iqAcc1 := by decide
  iqAcc2 := by decide
  iqAcc3 := by decide
  iqF1 := by decide
  iqF2 := by decide
  iqF3 := by decide
  iqC1 := by decide
  iqC2 := by decide
  finBuf := replicate_allInt16 128
  finCnt := by decide

theorem Regs.reset_filter_inRange : Regs.reset.filt.InRange where
  last := replicate_allInt16 128
  ola := replicate_allInt16 64
  cap := replicate_allInt16 256
  peakBin := by decide
  peakPow := by decide
  secondPow := by decide
  lastPeakBin := by decide
  confirm := by decide

theorem Regs.reset_audioInRange {cfg : Config} (h : 0 < cfg.rbCap) : Regs.reset.AudioInRange cfg where
  pllPhase := ⟨le_refl _, shl_pos _ (by decide)⟩
  pllFreq := ⟨Int.neg_nonpos_of_nonneg (Int.natCast_nonneg _), Int.natCast_nonneg _⟩
  fmLast := by decide
  cwPhase := by decide
  deX := by decide
  deY := by decide
  agcHold := ⟨le_refl _, (shl_pos _ (by decide)).le⟩
  agcHang := Nat.zero_le _
  cwInc := by decide
  usbVol := by decide
  blkVol := by decide
  interpPrev := by decide
  outIdx := Nat.zero_le _
  ring := ⟨h, Nat.zero_le _⟩

theorem Regs.reset_levelsInRange : Regs.reset.LevelsInRange where
  acc x hx := by
    obtain rfl : x = 0 := List.eq_of_mem_replicate (Vector.toList_replicate ▸ hx)
    decide
  sigEst := by decide
  magSum := by decide

/-- The registers after reset are in range for all admissible parameters. -/
theorem State.inRange_of_reset {s : State} (h : s.cfg.Admissible) (hr : s.regs = Regs.reset) : s.InRange := by
  obtain ⟨rates, scalars, -⟩ := h
  constructor <;> rw [hr]
  · exact Regs.reset_inputInRange rates.1
  · exact Regs.reset_filter_inRange
  · exact Regs.reset_audioInRange (by omega)
  · exact Regs.reset_levelsInRange

/-! ### Control registers -/

/-- Every command keeps both copies legal (30_encoding R98: setters clamp; 48_commands R270: BEGIN copies). -/
theorem CommandEffect.controlsLegal {s t : State} {i : Instr} (h : CommandEffect s i t) (hb : 1 ≤ s.cfg.numBw)
    (hs : s.ControlsLegal) : t.ControlsLegal := by
  obtain ⟨pend, act⟩ := hs
  rw [State.ControlsLegal, h.cfg]
  by_cases hi : i = .processBlock
  · subst hi
    rcases h.processBlock_cases with rfl | ⟨-, rfl⟩ | ⟨-, rfl⟩ | ⟨j, go⟩ | ⟨-, -, rfl⟩
    · exact ⟨pend, act⟩
    · exact ⟨pend, pend⟩
    · exact ⟨pend, pend⟩
    · rw [(sampleStep_frame go).pend, (sampleStep_frame go).act]
      exact ⟨pend, act⟩
    · exact ⟨pend, act⟩
  cases h with
  | answer | clear | raise | mute | pop | acquire | release | hold => exact ⟨pend, act⟩
  | setter _ _ _ _ legal =>
    rw [State.setPend_regs]
    exact ⟨legal hb pend, act⟩
  | usbVolume =>
    rw [State.respond_regs, State.recordIf_regs]
    exact ⟨pend, act⟩
  | reset => exact ⟨Controls.reset_legal hb, Controls.reset_legal hb⟩
  | start | begin | sample | finish => exact absurd rfl hi

theorem Config.one_le_numBw {cfg : Config} (h : cfg.Admissible) : 1 ≤ cfg.numBw := by
  obtain ⟨-, scalars, -⟩ := h
  omega

theorem State.controlsLegal_congr {s t : State} (h : s.ControlsLegal) (cfg : t.cfg = s.cfg) (regs : t.regs = s.regs) :
    t.ControlsLegal := by
  rwa [State.ControlsLegal, cfg, regs]

/-- An invariant of every step that reads the parameters and the registers only, from its parts: it survives a recorded
error and every command. -/
theorem step_invariant_of_regs {P : State → Prop} {s t : State} (h : step s = .next t) (hs : P s)
    (congr : ∀ {u v : State}, P u → v.cfg = u.cfg → v.regs = u.regs → P v) (raise : ∀ (u : State) e, P u → P (u.raiseErr e))
    (run : ∀ (u : State) i v, u.cfg.Admissible → P u → CommandEffect u i v → P v) : P t :=
  step_invariant h hs (tick := fun h => congr h s.tick_cfg s.tick_regs)
    (write := fun _ _ _ h _ _ _ => congr h s.tick_cfg s.tick_regs) (select := fun _ h => congr h s.tick_cfg s.tick_regs)
    (raise := raise) (run := fun u i v adm h ran => run u i v adm h (exec_effect ran))

/-- Settles O32: no error and, by their effects, no command makes a control register illegal. -/
theorem controlsStayLegal : Obligations.ControlsStayLegal := fun _ _ hs hstep =>
  step_invariant_of_regs hstep hs State.controlsLegal_congr (raise := fun _ _ h => h)
    (run := fun _ _ _ adm h effect => effect.controlsLegal (Config.one_le_numBw adm) h)

/-! ### Datapath registers -/

/-- The ranges are about the parameters and the registers only. -/
theorem State.InRange.congr {s t : State} (h : s.InRange) (cfg : t.cfg = s.cfg) (regs : t.regs = s.regs) : t.InRange := by
  constructor <;> rw [regs]
  · rw [cfg]
    exact h.input
  · exact h.filter
  · rw [cfg]
    exact h.audio
  · exact h.levels

/-- The ranges do not speak of the sequencer, the control registers, the mute flag, the lock or STATUS; of the shared
USB registers and the ring they ask what is left here to show. -/
theorem State.InRange.of_regs {s t : State} {seq : Seq} {seqPort : Port} {pend : Controls} {mute : Bool} {vol : Nat}
    {ring : Ring} {lock : Lock} {status : BitVec 8} (h : s.InRange) (cfg : t.cfg = s.cfg)
    (regs : t.regs = { s.regs with
      seq := seq
      seqPort := seqPort
      pend := pend
      usb := { s.regs.usb with mute := mute, vol := vol }
      ring := ring
      spec := { s.regs.spec with lock := lock }
      status := status })
    (hvol : vol ≤ 256) (hring : ring.Ok s.cfg.rbCap) : t.InRange := by
  constructor <;> rw [regs]
  · rw [cfg]
    exact { h.input with }
  · exact h.filter
  · rw [cfg]
    exact { h.audio with usbVol := hvol, ring := hring }
  · exact { h.levels with }

/-- A legal sidetone's phase increment is at most half a turn (10_state R54). -/
theorem latch_cwInc_le {cfg : Config} {c : Controls} (h : c.sidetone ≤ cfg.fsDemod / 2) : (latch cfg c).cwInc ≤ 1024 :=
  Nat.div_le_of_le_mul (by omega)

/-- BEGIN zeroes or copies what is in range; the latched sidetone increment needs the pending registers legal. -/
theorem beginStep_inRange {s : State} (h : s.InRange) (hp : s.regs.pend.Legal s.cfg) : (beginStep s).InRange := by
  have demod : (if s.regs.pend.mode ≠ s.regs.act.mode then modeChangeZero s.regs.pend.mode s.regs.demod
      else s.regs.demod).InRange s.cfg := by
    split
    · exact modeChangeZero_inRange _ h.audio.demodRange
    · exact h.audio.demodRange
  have acc : (specTryAcquire s.regs.spec).acc = s.regs.spec.acc := by
    unfold specTryAcquire
    split <;> rfl
  exact
    { input := { h.input with }
      filter := h.filter
      audio :=
        { h.audio with
          pllPhase := demod.pllPhase
          pllFreq := demod.pllFreq
          fmLast := demod.fmLast
          cwPhase := demod.cwPhase
          cwInc := latch_cwInc_le hp.sidetone
          blkVol := h.audio.usbVol
          outIdx := Nat.zero_le _ }
      levels := ⟨acc.symm ▸ h.levels.acc, h.levels.sigEst, le_refl (0 : Int), show (0 : Int) ≤ magMax * 0 by decide⟩ }

/-- END publishes an average of magnitudes and blends captured ones into the accumulator. -/
theorem endStep_inRange {s : State} (h : s.InRange) : (endStep s).InRange := by
  refine ⟨{ h.input with }, h.filter, { h.audio with }, ?_, ?_, h.levels.magSum⟩
  · show ∀ x ∈ (if s.regs.spec.blkCapture then _ else s.regs.spec).acc.toList, _
    split
    · exact specAccumulate_inRange (fun _ => cordicMag_le_magMax) _ h.filter.cap h.levels.acc
    · exact h.levels.acc
  · exact average_range (by decide) h.levels.magSum

/-- Every command keeps the ranges. -/
theorem CommandEffect.inRange {s t : State} {i : Instr} (h : CommandEffect s i t) (adm : s.cfg.Admissible)
    (hs : s.InRange) (legal : s.ControlsLegal) : t.InRange := by
  have cap : 0 < s.cfg.rbCap := by
    obtain ⟨-, scalars, -⟩ := adm
    omega
  by_cases hi : i = .processBlock
  · subst hi
    rcases h.processBlock_cases with rfl | ⟨-, rfl⟩ | ⟨-, rfl⟩ | ⟨j, go⟩ | ⟨-, -, rfl⟩
    · exact hs
    · exact beginStep_inRange (hs.of_regs (t := s.started) rfl rfl hs.audio.usbVol hs.audio.ring) legal.1
    · exact beginStep_inRange hs legal.1
    · exact sampleStep_inRange (fun _ => cordicMag_le_magMax) adm hs go
    · exact (endStep_inRange hs).congr rfl rfl
  · obtain ⟨vol, ring⟩ := h.usbRing_of_ne_processBlock hi cap hs.audio.usbVol hs.audio.ring
    rcases h.regs_of_ne_processBlock hi with ⟨-, reset⟩ | frame
    · exact State.inRange_of_reset (by rwa [h.cfg]) reset
    · exact hs.of_regs h.cfg frame vol ring

/-- Settles O35: the invariant of every step, together with the legality of the control registers, which BEGIN needs. -/
theorem datapathStaysInRange : Obligations.DatapathStaysInRange := fun _ _ hs legal hstep =>
  (step_invariant_of_regs (P := fun s => s.InRange ∧ s.ControlsLegal) hstep ⟨hs, legal⟩
    (congr := fun ⟨h, l⟩ cfg regs => ⟨h.congr cfg regs, State.controlsLegal_congr l cfg regs⟩)
    (raise := fun _ _ ⟨h, l⟩ => ⟨h.of_regs rfl rfl h.audio.usbVol h.audio.ring, l⟩)
    (run := fun _ _ _ adm ⟨h, l⟩ effect =>
      ⟨effect.inRange adm h l, effect.controlsLegal (Config.one_le_numBw adm) l⟩)).1

/-! ### Reset -/

/-- Settles O12: each register of the reset state by its definition, the buffers entry by entry. -/
theorem resetValues : Obligations.ResetValues := by
  have buffer {α : Type} (n : Nat) (x : α) : ∀ k (h : k < n), (Vector.replicate n x)[k] = x :=
    fun _ h => Vector.getElem_replicate h
  exact ⟨rfl, rfl, rfl, rfl, rfl, rfl, buffer 128 IQ.zero, rfl, buffer 128 IQ.zero, buffer 64 IQ.zero,
    buffer 256 IQ.zero, rfl, rfl, rfl, rfl, rfl, rfl, rfl, rfl, rfl, rfl, rfl, rfl, Memory.read_nil, rfl, rfl,
    buffer 256 0, rfl, rfl, rfl, rfl⟩

theorem Config.testCfg_admissible : Config.testCfg.Admissible := by decide +kernel

theorem State.resetWith_indicesExist (c : Config) : (State.resetWith c).IndicesExist := by
  constructor <;> exact List.forall_mem_nil _

theorem Regs.reset_silent : Regs.reset.Silent := by
  constructor <;> simp [Regs.reset, f32NegInf]

/-- Settles O36: TESTCFG is admissible, and the reset values meet each invariant. -/
theorem resetSatisfiesInvariants : Obligations.ResetSatisfiesInvariants := by
  have adm : State.reset.cfg.Admissible := Config.testCfg_admissible
  have legal := Controls.reset_legal (Config.one_le_numBw adm)
  exact ⟨adm, State.reset_canonical, State.resetWith_indicesExist _, ⟨legal, legal⟩, ⟨rfl, rfl⟩, nofun,
    ⟨⟨nofun, nofun⟩, nofun⟩, by decide, State.inRange_of_reset adm rfl, Regs.reset_silent⟩

end Sys2Proof.Machine

/-! The storages RAW, AUDIO_OUT and rb_data (20_memory R71, R72, R74): they stay canonical and within their indices, and
each is written by its one writer only: RAW by the acquisition source between blocks, AUDIO_OUT by a block's own SAMPLE
steps. -/

namespace Sys2Proof.Machine

/-! ### A storage of n entries -/

/-- A canonical memory that lists only indices below n. -/
structure Memory.Fits {w : Nat} (n : Nat) (m : Memory w) : Prop where
  wf : m.wf
  listed : ∀ c ∈ m, c.1 < n

theorem Memory.Fits.nil {w : Nat} (n : Nat) : Memory.Fits n ([] : Memory w) :=
  ⟨⟨.nil, List.forall_mem_nil _⟩, List.forall_mem_nil _⟩

theorem Memory.Fits.write {w n a : Nat} {m : Memory w} (h : Memory.Fits n m) (ha : a < n) (v : BitVec w) :
    Memory.Fits n (m.write a v) :=
  ⟨Memory.wf_write m h.wf a v, Memory.listed_write ha h.listed⟩

/-! ### The ring buffer's data -/

theorem Config.rbCap_pos {cfg : Config} (h : cfg.Admissible) : 0 < cfg.rbCap := by
  obtain ⟨-, scalars, -⟩ := h
  omega

/-- 46_output_stager R243: a push writes one entry, its index reduced modulo the capacity; dropping the oldest byte
writes none. -/
theorem rbPush_data (cap : Nat) (r : Ring) (b : Byte) : ∃ k, (rbPush cap r b).data = r.data.write (k % cap) b := by
  simp only [rbPush]
  split
  · exact ⟨_, rfl⟩
  · exact ⟨_, rfl⟩

theorem rbPush_fits {cap : Nat} (hc : 0 < cap) {r : Ring} (h : r.data.Fits cap) (b : Byte) :
    (rbPush cap r b).data.Fits cap := by
  obtain ⟨k, hk⟩ := rbPush_data cap r b
  rw [hk]
  exact h.write (Nat.mod_lt k hc) b

theorem foldl_rbPush_fits {cap : Nat} (hc : 0 < cap) (bs : List Byte) {r : Ring} (h : r.data.Fits cap) :
    (bs.foldl (rbPush cap) r).data.Fits cap := by
  induction bs generalizing r with
  | nil => exact h
  | cons b bs ih => exact ih (rbPush_fits hc h b)

theorem sampleStep_ring_fits {s t : State} {j : Nat} (go : sampleStep s j = .next t) (hc : 0 < s.cfg.rbCap)
    (h : s.regs.ring.data.Fits s.cfg.rbCap) : t.regs.ring.data.Fits s.cfg.rbCap := by
  rcases sampleStep_inv go with ⟨-, ⟨-, ht⟩ | ⟨-, -, ht⟩⟩
  · rw [ht]
    simpa only [sampleRegs_ring] using h
  · rw [ht, filterCall_regs, callRegs_ring, sampleRegs_ring]
    exact foldl_rbPush_fits hc _ h

/-! ### What a command does to the storages -/

/-- RAW, AUDIO_OUT, the pending RAW writes and the parameters stay, and no entry of the ring is written: its data stay,
or RESET has cleared them. -/
structure StorageFrame (s t : State) : Prop where
  cfg : t.cfg = s.cfg
  raw : t.raw = s.raw
  audioOut : t.audioOut = s.audioOut
  acq : t.acq = s.acq
  ring : t.regs.ring.data = s.regs.ring.data ∨ t.regs.ring.data = []

/-- A SAMPLE step of the executing port's own block is the only command that writes a storage. -/
theorem CommandEffect.storage_cases {s t : State} {i : Instr} (h : CommandEffect s i t) :
    StorageFrame s t ∨
    (i = .processBlock ∧ s.regs.seqPort = s.cur ∧ ∃ j, s.regs.seq = .sample j ∧ sampleStep s j = .next t) := by
  cases h with
  | answer | clear | raise | mute | pop | acquire | release | hold | start | begin | finish =>
    exact .inl ⟨rfl, rfl, rfl, rfl, .inl rfl⟩
  | setter _ x b =>
    exact .inl ⟨State.setPend_cfg s x b, State.setPend_raw s x b, State.setPend_audioOut s x b, State.setPend_acq s x b,
      .inl (by rw [State.setPend_regs])⟩
  | usbVolume _ n b =>
    refine .inl ?_
    constructor <;> simp only [State.respond_cfg, State.respond_raw, State.respond_audioOut, State.respond_acq,
      State.respond_regs, State.recordIf_cfg, State.recordIf_raw, State.recordIf_audioOut, State.recordIf_acq,
      State.recordIf_regs, true_or]
  | reset => exact .inl ⟨s.abortBlock_cfg, s.abortBlock_raw, s.abortBlock_audioOut, s.abortBlock_acq, .inr rfl⟩
  | sample j t own at_j go => exact .inr ⟨rfl, own, j, at_j, go⟩

/-! ### The storages stay canonical and within their indices -/

/-- Every storage fits its index range, and so does every RAW write the acquisition source has still to make. -/
structure State.StoragesFit (s : State) : Prop where
  raw : s.raw.Fits s.cfg.blockSize
  audioOut : s.audioOut.Fits s.cfg.expanded
  ring : s.regs.ring.data.Fits s.cfg.rbCap
  acq : ∀ c ∈ s.acq, c.1 < s.cfg.blockSize

theorem State.storagesFit_iff (s : State) : s.StoragesFit ↔ s.MemoriesCanonical ∧ s.IndicesExist :=
  ⟨fun h => ⟨⟨h.raw.wf, h.audioOut.wf, h.ring.wf⟩, ⟨h.raw.listed, h.audioOut.listed, h.ring.listed, h.acq⟩⟩,
    fun ⟨⟨raw, audioOut, ring⟩, h⟩ => ⟨⟨raw, h.raw⟩, ⟨audioOut, h.audio⟩, ⟨ring, h.ring⟩, h.acq⟩⟩

theorem StorageFrame.storagesFit {s t : State} (h : StorageFrame s t) (hs : s.StoragesFit) : t.StoragesFit where
  raw := by
    rw [h.cfg, h.raw]
    exact hs.raw
  audioOut := by
    rw [h.cfg, h.audioOut]
    exact hs.audioOut
  ring := by
    rw [h.cfg]
    rcases h.ring with same | cleared
    · rw [same]
      exact hs.ring
    · rw [cleared]
      exact .nil _
  acq := by
    rw [h.cfg, h.acq]
    exact hs.acq

theorem sampleStep_storagesFit {s t : State} {j : Nat} (go : sampleStep s j = .next t) (hc : 0 < s.cfg.rbCap)
    (hs : s.StoragesFit) : t.StoragesFit := by
  have frame := sampleStep_frame go
  constructor <;> rw [frame.cfg]
  case raw =>
    rw [frame.raw]
    exact hs.raw
  case audioOut => exact ⟨sampleStep_audio_wf go hs.audioOut.wf, sampleStep_audio_listed go hs.audioOut.listed⟩
  case ring => exact sampleStep_ring_fits go hc hs.ring
  case acq =>
    rw [frame.acq]
    exact hs.acq

theorem CommandEffect.storagesFit {s t : State} {i : Instr} (h : CommandEffect s i t) (adm : s.cfg.Admissible)
    (hs : s.StoragesFit) : t.StoragesFit := by
  rcases h.storage_cases with frame | ⟨-, -, j, -, go⟩
  · exact frame.storagesFit hs
  · exact sampleStep_storagesFit go (Config.rbCap_pos adm) hs

/-- The schedule and the executing port are no storages. -/
theorem State.tick_storageFrame (s : State) (p : Port) : StorageFrame s { s.tick with cur := p } :=
  ⟨s.tick_cfg, s.tick_raw, s.tick_audioOut, s.tick_acq, .inl (by rw [State.tick_regs])⟩

/-- The acquisition source's write to an existing entry, the first of those it has still to make. -/
theorem State.StoragesFit.write {s : State} (h : s.StoragesFit) {k : Nat} {v : BitVec 16}
    {rest : List (Nat × BitVec 16)} (todo : s.acq = (k, v) :: rest) (hk : k < s.cfg.blockSize) :
    { s.tick with raw := s.raw.write k v, acq := rest }.StoragesFit := by
  constructor <;> simp only [State.tick_cfg, State.tick_audioOut, State.tick_regs]
  case raw => exact h.raw.write hk v
  case audioOut => exact h.audioOut
  case ring => exact h.ring
  case acq => exact fun c hc => h.acq c (todo ▸ List.mem_cons_of_mem _ hc)

/-- Settles O31: the storages' fit is kept by the schedule, by the acquisition source's write, by a recorded error and,
by their effects, by every command. -/
theorem storagesStayCanonical : Obligations.StoragesStayCanonical := by
  intro s t canonical indices hstep
  have hs : s.StoragesFit := s.storagesFit_iff.2 ⟨canonical, indices⟩
  refine t.storagesFit_iff.1 (step_invariant hstep hs ?tick ?write ?select ?raise ?run)
  case tick => exact fun h => (s.tick_storageFrame s.tick.cur).storagesFit h
  case write => exact fun k v rest h _ todo hk => h.write todo hk
  case select => exact fun p h => (s.tick_storageFrame p).storagesFit h
  case raise => exact fun u e h => (⟨rfl, rfl, rfl, rfl, .inl rfl⟩ : StorageFrame u (u.raiseErr e)).storagesFit h
  case run => exact fun u i v adm h ran => (exec_effect ran).storagesFit adm h

/-! ### Who writes the buffers -/

/-- Settles O38: by the kinds of step and, where a port runs a command, by what a command does to the storages. -/
theorem whoWritesTheBuffers : Obligations.WhoWritesTheBuffers := by
  intro s t hstep
  obtain ⟨-, he⟩ := step_effect hstep
  cases he with
  | quiet => exact ⟨rfl, .inl rfl, .inl rfl⟩
  | pass => exact ⟨s.tick_cfg, .inl s.tick_raw, .inl s.tick_audioOut⟩
  | write k v rest turn idle => exact ⟨s.tick_cfg, .inr ⟨idle, turn⟩, .inl s.tick_audioOut⟩
  | noCommand => exact ⟨s.tick_cfg, .inl s.tick_raw, .inl s.tick_audioOut⟩
  | run p w i t turn fetched decoded ran =>
    have before := s.tick_storageFrame p
    rcases (exec_effect ran).storage_cases with frame | ⟨rfl, own, j, at_j, go⟩
    · exact ⟨frame.cfg.trans before.cfg, .inl (frame.raw.trans before.raw),
        .inl (frame.audioOut.trans before.audioOut)⟩
    · have frame := sampleStep_frame go
      rw [State.tick_regs] at own at_j
      exact ⟨frame.cfg.trans before.cfg, .inl (frame.raw.trans before.raw),
        .inr ⟨p, j, ⟨turn, w, fetched, decoded⟩, own, at_j⟩⟩

/-! ### The acquisition source's step -/

theorem acquire_of_idle {s : State} {k : Nat} {v : BitVec 16} {rest : List (Nat × BitVec 16)}
    (idle : s.regs.seq = .idle) (todo : s.acq = (k, v) :: rest) (hk : k < s.cfg.blockSize) :
    acquire s = .next { s with raw := s.raw.write k v, acq := rest } := by
  simp only [acquire, idle, todo, if_pos hk]

/-- 20_memory R87: no write to RAW during a block. -/
theorem acquire_of_busy {s : State} (busy : s.regs.seq ≠ .idle) : acquire s = .next s := by
  simp only [acquire]
  split
  · exact absurd ‹_› busy
  · rfl

theorem step_of_acquisition {s : State} (adm : s.cfg.Admissible) (turn : s.nextAgent = .acquisition)
    (todo : s.acq ≠ []) : step s = acquire s.tick := by
  have awake : s.quiet = false := by simp [State.quiet, todo]
  simp only [step, not_not.2 adm, awake, turn, Bool.false_eq_true, if_false]

/-- Settles O7: idle, the written RAW entry reads back by the laws of indexed storage; during a block the step only
spends the turn. -/
theorem acquisitionStep : Obligations.AcquisitionStep := by
  intro s k v rest adm turn todo hk
  rw [step_of_acquisition adm turn (by rw [todo]; exact List.cons_ne_nil _ _)]
  by_cases idle : s.regs.seq = .idle
  · have wrote := acquire_of_idle (s := s.tick) (by rwa [State.tick_regs]) (s.tick_acq.trans todo)
      (by rwa [State.tick_cfg])
    refine ⟨_, wrote, s.tick_cfg, s.tick_regs, s.tick_audioOut, s.tick_ports, s.tick_cur, s.tick_sched, ?_,
      fun busy => absurd idle busy⟩
    intro _ wf
    refine ⟨rfl, fun a => ?_⟩
    rw [State.tick_raw]
    exact Memory.read_write s.raw wf k a v
  · have held := acquire_of_busy (s := s.tick) (by rwa [State.tick_regs])
    exact ⟨_, held, s.tick_cfg, s.tick_regs, s.tick_audioOut, s.tick_ports, s.tick_cur, s.tick_sched,
      fun h => absurd h idle, fun _ => ⟨s.tick_acq, s.tick_raw⟩⟩

end Sys2Proof.Machine

/-! The encoding (30_encoding R91 to R99). The opcode map is given once more as a table, from each op to its operand
format; the decoder reads by that table (`decodeOp_eq`), the encoder writes by it (`opcodeMap_encodes`) and the reserved
bits are its formats' (`reservedZero_eq`). What holds of every word is then said once per format. -/

namespace Sys2Proof.Machine

/-! ### The op and operand fields (30_encoding R91) -/

@[simp] theorem opField_commandWord (op : BitVec 8) (o : BitVec 24) : opField (commandWord op o) = op :=
  BitVec.extractLsb'_append_eq_left

@[simp] theorem operandField_commandWord (op : BitVec 8) (o : BitVec 24) : operandField (commandWord op o) = o :=
  BitVec.extractLsb'_append_eq_right

theorem commandWord_fields (w : Word) : commandWord (opField w) (operandField w) = w :=
  BitVec.extractLsb'_append_extractLsb' (w := 8) (len := 24)

theorem opField_toNat (w : Word) : (opField w).toNat = w.toNat / 16777216 := by
  rw [opField, BitVec.extractLsb'_toNat, Nat.shiftRight_eq_div_pow]
  omega

theorem decode_commandWord (op : BitVec 8) (o : BitVec 24) : decode (commandWord op o) = decodeOp op.toNat o := by
  rw [decode, opField_commandWord, operandField_commandWord]

/-! ### The operand formats (30_encoding R92): an operand that is written reads back, and only that reads a command -/

theorem formatN_zero (i : Instr) : formatN 0 i = .ok i := rfl

theorem formatB_operandB (b : Bool) (f : Bool → Instr) : formatB (operandB b) f = .ok (f b) := by
  cases b <;> rfl

theorem formatU8_operandU8 (u : BitVec 8) (f : BitVec 8 → Instr) : formatU8 (operandU8 u) f = .ok (f u) := by
  have reserved : (operandU8 u).extractLsb' 8 16 = 0 := BitVec.extractLsb'_append_eq_left
  have byte : (operandU8 u).extractLsb' 0 8 = u := BitVec.extractLsb'_append_eq_right
  rw [formatU8, if_pos reserved, byte]

theorem formatM_operandM {mode : BitVec 4} (legal : mode.toNat ≤ 5) (bw : BitVec 4)
    (f : BitVec 4 → BitVec 4 → Instr) : formatM (operandM mode bw) f = .ok (f mode bw) := by
  have reserved : (operandM mode bw).extractLsb' 8 16 = 0 := BitVec.extractLsb'_append_eq_left
  have low : (operandM mode bw).extractLsb' 0 4 = mode := by
    rw [operandM, BitVec.extractLsb'_append_eq_of_add_le (by omega)]
    exact BitVec.extractLsb'_append_eq_right
  have high : (operandM mode bw).extractLsb' 4 4 = bw := by
    rw [operandM, BitVec.extractLsb'_append_eq_of_add_le (by omega)]
    exact BitVec.extractLsb'_append_eq_left
  rw [formatM, if_neg (not_not.2 reserved), low, high, if_neg (by omega)]

theorem of_formatN_eq_ok {o : BitVec 24} {i j : Instr} (h : formatN o i = .ok j) : o = 0 ∧ j = i := by
  unfold formatN at h
  split at h
  · exact ⟨‹_›, (Except.ok.inj h).symm⟩
  · cases h

theorem of_formatB_eq_ok {o : BitVec 24} {f : Bool → Instr} {j : Instr} (h : formatB o f = .ok j) :
    ∃ b, o = operandB b ∧ j = f b := by
  unfold formatB at h
  split at h
  · rename_i reserved
    have bit : o.extractLsb' 0 1 = BitVec.ofBool (o.getLsbD 0) := by
      ext k hk
      simp [show k = 0 by omega]
    refine ⟨o.getLsbD 0, ?_, (Except.ok.inj h).symm⟩
    rw [operandB, ← reserved, ← bit]
    exact (BitVec.extractLsb'_append_extractLsb' (w := 23) (len := 1)).symm
  · cases h

theorem eq_operandU8 {o : BitVec 24} (reserved : o.extractLsb' 8 16 = 0) : o = operandU8 (o.extractLsb' 0 8) := by
  rw [operandU8, ← reserved]
  exact (BitVec.extractLsb'_append_extractLsb' (w := 16) (len := 8)).symm

theorem of_formatU8_eq_ok {o : BitVec 24} {f : BitVec 8 → Instr} {j : Instr} (h : formatU8 o f = .ok j) :
    ∃ u, o = operandU8 u ∧ j = f u := by
  unfold formatU8 at h
  split at h
  · exact ⟨_, eq_operandU8 ‹_›, (Except.ok.inj h).symm⟩
  · cases h

theorem of_formatM_eq_ok {o : BitVec 24} {f : BitVec 4 → BitVec 4 → Instr} {j : Instr} (h : formatM o f = .ok j) :
    ∃ mode bw, mode.toNat ≤ 5 ∧ o = operandM mode bw ∧ j = f mode bw := by
  unfold formatM at h
  split at h
  · cases h
  · rename_i reserved
    split at h
    · cases h
    · rename_i legal
      have byte : o.extractLsb' 4 4 ++ o.extractLsb' 0 4 = o.extractLsb' 0 8 :=
        BitVec.extractLsb'_append_extractLsb'_eq_extractLsb' rfl
      refine ⟨_, _, not_lt.1 legal, ?_, (Except.ok.inj h).symm⟩
      exact (eq_operandU8 (not_not.1 reserved)).trans (congrArg operandU8 byte.symm)

/-! ### The opcode map as a table (30_encoding R95) -/

/-- The layout of a command's operand (30_encoding R92), with the command that its fields give. -/
inductive Layout where
  | n (i : Instr)
  | b (f : Bool → Instr)
  | u8 (f : BitVec 8 → Instr)
  | m (f : BitVec 4 → BitVec 4 → Instr)
  /-- U24 and S24: no reserved-zero bits. -/
  | u24 (f : BitVec 24 → Instr)

/-- What a word of the layout decodes to, by its operand. -/
def Layout.read (o : BitVec 24) : Layout → Except DecodeError Instr
  | .n i => formatN o i
  | .b f => formatB o f
  | .u8 f => formatU8 o f
  | .m f => formatM o f
  | .u24 f => .ok (f o)

/-- The layout's reserved-zero bits, within the command word. -/
def Layout.mask : Layout → Word
  | .n _ => 0x00FFFFFF
  | .b _ => 0x00FFFFFE
  | .u8 _ => 0x00FFFF00
  | .m _ => 0x00FFFF00
  | .u24 _ => 0

/-- The layout has a mode field, whose values 6 to 15 are reserved (30_encoding R97). -/
def Layout.hasMode : Layout → Bool
  | .m _ => true
  | _ => false

/-- The encoder writes the layout's commands with this op and with their fields where the layout has them; each is
well-formed, a mode field's value permitting. -/
def Layout.EncodesAs (op : BitVec 8) : Layout → Prop
  | .n i => encode i = commandWord op 0 ∧ i.wellFormed = true
  | .b f => ∀ b, encode (f b) = commandWord op (operandB b) ∧ (f b).wellFormed = true
  | .u8 f => ∀ u, encode (f u) = commandWord op (operandU8 u) ∧ (f u).wellFormed = true
  | .m f => ∀ mode bw, encode (f mode bw) = commandWord op (operandM mode bw) ∧
      (mode.toNat ≤ 5 → (f mode bw).wellFormed = true)
  | .u24 f => ∀ o, encode (f o) = commandWord op o ∧ (f o).wellFormed = true

/-- The rows of the opcode map. -/
def opcodeMap : List (Nat × Layout) :=
  [(0x01, .n .reset), (0x02, .n .processBlock), (0x03, .n .getStatus), (0x04, .n .clrStatus), (0x10, .m .setMode),
    (0x11, .u24 .setShift), (0x12, .b .setSwapIq), (0x13, .b .setIqCorr), (0x14, .u8 .setDeemph),
    (0x15, .u8 .setAgcSpeed), (0x16, .b .setAutonotch), (0x17, .u24 .setSidetone), (0x18, .u8 .setVolume),
    (0x19, .u8 .setSquelch), (0x1A, .u24 .setGainCal), (0x1B, .u24 .setPwmScale), (0x20, .n .getSignalDbm),
    (0x21, .n .getSquelch), (0x22, .n .getUsbFill), (0x30, .b .usbSetMute), (0x31, .u24 .usbSetVolume),
    (0x32, .u24 .usbPop), (0x40, .n .specAcquire), (0x41, .n .specRead), (0x42, .n .specRelease)]

/-- The decoder reads the operand by the layout of the op's row; an op without a row is ILLEGAL (30_encoding R96). -/
theorem decodeOp_eq (op : Nat) (o : BitVec 24) :
    decodeOp op o = (opcodeMap.lookup op).elim (.error .illegal) (Layout.read o) := by
  fun_cases decodeOp op o
  case case26 =>
    have unlisted : opcodeMap.lookup op = none := List.lookup_eq_none_iff.2 (by simp_all [opcodeMap])
    rw [unlisted]
    rfl
  all_goals rfl

theorem decode_eq (w : Word) :
    decode w = (opcodeMap.lookup (opField w).toNat).elim (.error .illegal) (Layout.read (operandField w)) :=
  decodeOp_eq _ _

/-- The encoder writes each command by its row: each row is checked by evaluation. -/
theorem opcodeMap_encodes : ∀ r ∈ opcodeMap, r.2.EncodesAs (BitVec.ofNat 8 r.1) :=
  List.forall_iff_forall_mem.1
    ⟨⟨rfl, rfl⟩, ⟨rfl, rfl⟩, ⟨rfl, rfl⟩, ⟨rfl, rfl⟩, fun _ _ => ⟨rfl, decide_eq_true⟩, fun _ => ⟨rfl, rfl⟩,
      fun _ => ⟨rfl, rfl⟩, fun _ => ⟨rfl, rfl⟩, fun _ => ⟨rfl, rfl⟩, fun _ => ⟨rfl, rfl⟩, fun _ => ⟨rfl, rfl⟩,
      fun _ => ⟨rfl, rfl⟩, fun _ => ⟨rfl, rfl⟩, fun _ => ⟨rfl, rfl⟩, fun _ => ⟨rfl, rfl⟩, fun _ => ⟨rfl, rfl⟩,
      ⟨rfl, rfl⟩, ⟨rfl, rfl⟩, ⟨rfl, rfl⟩, fun _ => ⟨rfl, rfl⟩, fun _ => ⟨rfl, rfl⟩, fun _ => ⟨rfl, rfl⟩, ⟨rfl, rfl⟩,
      ⟨rfl, rfl⟩, ⟨rfl, rfl⟩⟩

/-- SET_MODE is the one row with a mode field. -/
theorem opcodeMap_hasMode : ∀ r ∈ opcodeMap, r.2.hasMode = true ↔ r.1 = 0x10 := by
  decide

theorem lookup_map_snd {α β γ : Type} [BEq α] (g : β → γ) (k : α) (l : List (α × β)) :
    (l.map fun r => (r.1, g r.2)).lookup k = (l.lookup k).map g := by
  induction l with
  | nil => rfl
  | cons r l ih =>
    obtain ⟨a, b⟩ := r
    simp only [List.map_cons, List.lookup_cons, ih]
    cases k == a <;> rfl

theorem reservedZero_eq (op : Nat) : reservedZero op = (opcodeMap.lookup op).map Layout.mask :=
  lookup_map_snd Layout.mask op opcodeMap

theorem mem_opcodeMap_of_lookup {op : Nat} {l : Layout} (h : opcodeMap.lookup op = some l) : (op, l) ∈ opcodeMap := by
  obtain ⟨above, below, at_row, -⟩ := List.lookup_eq_some_iff.1 h
  exact at_row ▸ List.mem_append_cons_self

/-! ### Commands to words and back -/

/-- Settles O1, by the command's operand format: the op is read back, and the operand by its format's reading rule. -/
theorem decodeOfEncode : Obligations.DecodeOfEncode := by
  intro i wf
  cases i with
  | reset | processBlock | getStatus | clrStatus | getSignalDbm | getSquelch | getUsbFill | specAcquire | specRead
  | specRelease => exact (decode_commandWord _ _).trans (formatN_zero _)
  | setSwapIq b | setIqCorr b | setAutonotch b | usbSetMute b =>
    exact (decode_commandWord _ _).trans (formatB_operandB b _)
  | setDeemph u | setAgcSpeed u | setVolume u | setSquelch u =>
    exact (decode_commandWord _ _).trans (formatU8_operandU8 u _)
  | setMode mode bw => exact (decode_commandWord _ _).trans (formatM_operandM (of_decide_eq_true wf) bw _)
  | setShift o | setSidetone o | setGainCal o | setPwmScale o | usbSetVolume o | usbPop o =>
    exact decode_commandWord _ o

/-- Within one layout, an operand that reads a command is the one that the command is encoded with. -/
theorem Layout.encode_of_read {op : BitVec 8} {o : BitVec 24} {i : Instr} {l : Layout} (row : l.EncodesAs op)
    (h : l.read o = .ok i) : encode i = commandWord op o ∧ i.wellFormed = true := by
  cases l with
  | n j =>
    obtain ⟨rfl, rfl⟩ := of_formatN_eq_ok h
    exact row
  | b f =>
    obtain ⟨b, rfl, rfl⟩ := of_formatB_eq_ok h
    exact row b
  | u8 f =>
    obtain ⟨u, rfl, rfl⟩ := of_formatU8_eq_ok h
    exact row u
  | m f =>
    obtain ⟨mode, bw, legal, rfl, rfl⟩ := of_formatM_eq_ok h
    exact ⟨(row mode bw).1, (row mode bw).2 legal⟩
  | u24 f =>
    cases h
    exact row o

/-- Settles O2: the op has a row, and the operand is the one that the row's layout writes. -/
theorem encodeOfDecode : Obligations.EncodeOfDecode := by
  intro w i decoded
  rw [decode_eq] at decoded
  cases listed : opcodeMap.lookup (opField w).toNat with
  | none => simp [listed] at decoded
  | some l =>
    rw [listed] at decoded
    have row := opcodeMap_encodes _ (mem_opcodeMap_of_lookup listed)
    rw [BitVec.ofNat_toNat, BitVec.setWidth_eq] at row
    have read := Layout.encode_of_read row decoded
    rwa [commandWord_fields] at read

/-! ### Words without a command (30_encoding R96, R97) -/

/-- A word has nothing under the mask of the operand bits k to k + n - 1 exactly when that field is 0. -/
theorem and_mask_eq_zero_iff (w : Word) {k n : Nat} (h : k + n ≤ 24) :
    w &&& (BitVec.allOnes n).setWidth 32 <<< k = 0 ↔ (operandField w).extractLsb' k n = 0 := by
  simp only [BitVec.eq_of_getLsbD_eq_iff, operandField]
  constructor
  · intro clear j hj
    have bit := clear (k + j) (by omega)
    grind
  · intro clear i hi
    have bit := clear (i - k)
    grind

theorem formatN_eq_reserved_iff (o : BitVec 24) (i : Instr) : formatN o i = .error .reserved ↔ o ≠ 0 := by
  simp [formatN]

theorem formatB_eq_reserved_iff (o : BitVec 24) (f : Bool → Instr) :
    formatB o f = .error .reserved ↔ o.extractLsb' 1 23 ≠ 0 := by
  simp [formatB]

theorem formatU8_eq_reserved_iff (o : BitVec 24) (f : BitVec 8 → Instr) :
    formatU8 o f = .error .reserved ↔ o.extractLsb' 8 16 ≠ 0 := by
  simp [formatU8]

theorem formatM_eq_reserved_iff (o : BitVec 24) (f : BitVec 4 → BitVec 4 → Instr) :
    formatM o f = .error .reserved ↔ o.extractLsb' 8 16 ≠ 0 ∨ 5 < (o.extractLsb' 0 4).toNat := by
  unfold formatM
  split
  · simp_all
  · split <;> simp_all

theorem modeField_toNat (w : Word) : ((operandField w).extractLsb' 0 4).toNat = w.toNat % 16 := by
  simp only [operandField, BitVec.extractLsb'_toNat, Nat.shiftRight_zero]
  omega

theorem Layout.read_ne_illegal (o : BitVec 24) (l : Layout) : l.read o ≠ .error .illegal := by
  cases l with
  | n i =>
    simp only [Layout.read, formatN]
    split <;> simp
  | b f =>
    simp only [Layout.read, formatB]
    split <;> simp
  | u8 f =>
    simp only [Layout.read, formatU8]
    split <;> simp
  | m f =>
    simp only [Layout.read, formatM]
    split
    · simp
    · split <;> simp
  | u24 f => simp [Layout.read]

theorem Layout.read_eq_reserved_iff (w : Word) (l : Layout) :
    l.read (operandField w) = .error .reserved ↔
      w &&& l.mask ≠ 0 ∨ l.hasMode = true ∧ 5 < w.toNat % 16 := by
  cases l with
  | n i =>
    have bits : w &&& 0x00FFFFFF = 0 ↔ _ := and_mask_eq_zero_iff w (k := 0) (n := 24) (by omega)
    rw [BitVec.extractLsb'_eq_self] at bits
    simp only [Layout.read, Layout.mask, Layout.hasMode, formatN_eq_reserved_iff, ne_eq, bits,
      Bool.false_eq_true, false_and, or_false]
  | b f =>
    have bits : w &&& 0x00FFFFFE = 0 ↔ _ := and_mask_eq_zero_iff w (k := 1) (n := 23) (by omega)
    simp only [Layout.read, Layout.mask, Layout.hasMode, formatB_eq_reserved_iff, ne_eq, bits,
      Bool.false_eq_true, false_and, or_false]
  | u8 f =>
    have bits : w &&& 0x00FFFF00 = 0 ↔ _ := and_mask_eq_zero_iff w (k := 8) (n := 16) (by omega)
    simp only [Layout.read, Layout.mask, Layout.hasMode, formatU8_eq_reserved_iff, ne_eq, bits,
      Bool.false_eq_true, false_and, or_false]
  | m f =>
    have bits : w &&& 0x00FFFF00 = 0 ↔ _ := and_mask_eq_zero_iff w (k := 8) (n := 16) (by omega)
    simp only [Layout.read, Layout.mask, Layout.hasMode, formatM_eq_reserved_iff, ne_eq, bits,
      modeField_toNat, true_and]
  | u24 f => simp [Layout.read, Layout.mask, Layout.hasMode]

/-- Settles O3: ILLEGAL is an op without a row, RESERVED what the row's layout does not read. -/
theorem wordsWithoutCommand : Obligations.WordsWithoutCommand := by
  intro w
  rw [decode_eq, reservedZero_eq, ← opField_toNat]
  cases listed : opcodeMap.lookup (opField w).toNat with
  | none => simp
  | some l =>
    have mode := opcodeMap_hasMode _ (mem_opcodeMap_of_lookup listed)
    simp [Layout.read_ne_illegal, Layout.read_eq_reserved_iff, mode]

/-- Settles O4: the decoder is run on each of the words. -/
theorem specWordsDecode : Obligations.SpecWordsDecode := by
  unfold Obligations.SpecWordsDecode
  decide

/-! ### A step on a word that is no command (30_encoding R96, R97, 60_exceptions R312) -/

theorem State.quiet_eq_false_of_fetch {s : State} {p : Port} {w : Word} (fetched : s.fetch p = some w) :
    s.quiet = false := by
  cases awake : s.quiet with
  | false => rfl
  | true =>
    simp only [State.quiet, Bool.and_eq_true, List.isEmpty_iff] at awake
    obtain ⟨⟨⟨⟨producer, host⟩, usb⟩, spectrum⟩, -⟩ := awake
    cases p <;> simp_all [State.fetch, Ports.get]

/-- The turn spent, as the one update that the statements about a step write out. -/
theorem State.tick_eq (s : State) :
    s.tick = { s with sched := s.sched.tail, turn := if s.sched = [] then s.turn + 1 else s.turn } := by
  cases s with
  | mk cfg regs raw audioOut ports cur sched turn acq => cases sched <;> rfl

/-- A command that changes the core's registers only, and responds. -/
theorem State.respond_completes (s : State) (r : Regs) (ws : List Word) :
    Completes s ({ s with regs := r }.respond ws) ws where
  cfg := rfl
  raw _ := rfl
  audio _ := rfl
  cur := rfl
  sched := rfl
  turn := rfl
  acq := rfl
  cmds := by simp
  replies := by simp
  others p hp := by simp [Ports.get_set_other, hp]

theorem step_of_noCommand {s : State} {p : Port} {w : Word} {e : DecodeError} (adm : s.cfg.Admissible)
    (turn : s.nextAgent = .port p) (fetched : s.fetch p = some w) (decoded : decode w = .error e) :
    step s = .next ({ s.tick with cur := p }.raiseErr (decodeErr e)) := by
  simp only [step, not_not.2 adm, State.quiet_eq_false_of_fetch fetched, turn, fetched, decoded, Bool.false_eq_true,
    if_false]

/-- Settles O6: the step spends the turn and raises the word's error, which is a change of the registers and an empty
response. -/
theorem stepRaisesOnNonCommand : Obligations.StepRaisesOnNonCommand := by
  intro s p w e adm turn head decoded
  refine ⟨_, step_of_noCommand adm turn head decoded, ?_, ?_⟩
  · rw [State.raiseErr_regs, State.tick_regs]
    cases e <;> rfl
  · rw [State.tick_eq]
    exact State.respond_completes _ _ []

end Sys2Proof.Machine

/-! The CIC decimator (40_cic R111 to R117). A channel's integrator values over the calls, modulo 2^32, are signals each
of which sums the one before it, and a comb stage turns such a sum back into the sum over the last CIC_R calls. So the
comb output is four such window sums of the input, whatever wrapped on the way, and on a constant input each window sum
multiplies by CIC_R. -/

namespace Sys2Proof.Machine

/-! ### The ready phase (40_cic R112, R117) -/

theorem cicRun_concat (cfg : Config) (u : Cic) (xs : List IQ) (x : IQ) :
    cicRun cfg u (xs ++ [x]) = cicDecimate cfg (cicRun cfg u xs).1 x := by
  simp [cicRun]

theorem succ_mod_eq_ite (n : Nat) {r : Nat} (hr : 1 ≤ r) : (n + 1) % r = if n % r + 1 < r then n % r + 1 else 0 := by
  have hlt := Nat.mod_lt n hr
  rw [← Nat.mod_add_mod]
  split
  case isTrue h => exact Nat.mod_eq_of_lt h
  case isFalse h => rw [show n % r + 1 = r by omega, Nat.mod_self]

theorem cicRun_cnt {cfg : Config} (hR : 1 ≤ cfg.cicR) (xs : List IQ) :
    (cicRun cfg Cic.reset xs).1.cnt = xs.length % cfg.cicR := by
  induction xs using List.reverseRecOn with
  | nil => simp [cicRun, Cic.reset]
  | append_singleton xs x ih =>
    rw [cicRun_concat, List.length_append, List.length_singleton, succ_mod_eq_ite _ hR, ← ih]
    rcases cicDecimate_cases cfg (cicRun cfg Cic.reset xs).1 x with ⟨h, he⟩ | ⟨h, he⟩
    · rw [he, if_pos h]
    · rw [he, if_neg h.not_gt]

/-- Settles O47: the last call is ready when the counter, which is the number of calls before it modulo CIC_R, stands at
CIC_R - 1. -/
theorem cicReadyEveryR : Obligations.CicReadyEveryR := by
  intro cfg xs hR hne
  obtain ⟨ys, x, rfl⟩ := List.eq_nil_or_concat' xs |>.resolve_left hne
  rw [cicRun_concat, List.length_append, List.length_singleton, succ_mod_eq_ite _ hR, ← cicRun_cnt hR]
  rcases cicDecimate_cases cfg (cicRun cfg Cic.reset ys).1 x with ⟨h, he⟩ | ⟨h, he⟩
  · rw [he, if_pos h]
    simp
  · rw [he, if_neg h.not_gt]
    simp

/-! ### Signals: one value per number of calls made, 0 before any -/

section Signals
variable {A : Type} [AddCommGroup A] {R : Nat}

/-- F is f summed over the calls. -/
def Integrates (F f : Nat → A) : Prop := ∀ n, F n = F (n - 1) + f n

theorem integrates_of_succ {F f : Nat → A} (start : f 0 = 0) (next : ∀ k, F (k + 1) = F k + f (k + 1)) :
    Integrates F f
  | 0 => by rw [start, add_zero]
  | k + 1 => next k

/-- A comb stage that runs on every R-th call: the difference to R calls ago, or to the start. -/
def combStage (R : Nat) (f : Nat → A) (n : Nat) : A := f n - f (n - R)

/-- The sum over the last R calls. -/
def windowSum (R : Nat) (f : Nat → A) (n : Nat) : A := ∑ k ∈ Finset.range R, f (n - k)

theorem Integrates.combStage_eq {F f : Nat → A} (h : Integrates F f) : combStage R F = windowSum R f := by
  funext n
  induction R with
  | zero => simp [combStage, windowSum]
  | succ R ih =>
    have last := h (n - R)
    calc F n - F (n - (R + 1)) = (F n - F (n - R)) + f (n - R) := by rw [last, Nat.sub_sub]; abel
      _ = windowSum R f n + f (n - R) := by rw [← ih, combStage]
      _ = windowSum (R + 1) f n := (Finset.sum_range_succ _ _).symm

theorem combStage_commute_windowSum :
    Function.Commute (combStage R : (Nat → A) → Nat → A) (windowSum R) := by
  intro f
  funext n
  simp only [combStage, windowSum, ← Finset.sum_sub_distrib, Nat.sub_right_comm n R]

/-- One comb stage undoes one integrator, and leaves the rest of the comb to what was integrated. -/
theorem Integrates.iterate_combStage {F f : Nat → A} (h : Integrates F f) (s : Nat) :
    (combStage R)^[s + 1] F = windowSum R ((combStage R)^[s] f) := by
  rw [Function.iterate_succ_apply, h.combStage_eq]
  exact combStage_commute_windowSum.iterate_left s f

theorem comb_of_four_integrators {x f₀ f₁ f₂ f₃ : Nat → A} (h₀ : Integrates f₀ x) (h₁ : Integrates f₁ f₀)
    (h₂ : Integrates f₂ f₁) (h₃ : Integrates f₃ f₂) : (combStage R)^[4] f₃ = (windowSum R)^[4] x := by
  rw [h₃.iterate_combStage, h₂.iterate_combStage, h₁.iterate_combStage, h₀.iterate_combStage]
  rfl

theorem windowSum_of_const {f : Nat → A} {v : A} {a : Nat} (h : ∀ n, a ≤ n → f n = v) (n : Nat)
    (hn : a + (R - 1) ≤ n) : windowSum R f n = R • v := by
  have inWindow : ∀ k ∈ Finset.range R, f (n - k) = v := fun k hk => h _ (by have := Finset.mem_range.1 hk; omega)
  rw [windowSum, Finset.sum_congr rfl inWindow, Finset.sum_const, Finset.card_range]

theorem iterate_windowSum_of_const {f : Nat → A} {v : A} {a : Nat} (h : ∀ n, a ≤ n → f n = v) (s : Nat) :
    ∀ n, a + s * (R - 1) ≤ n → (windowSum R)^[s] f n = R ^ s • v := by
  induction s with
  | zero => simpa using h
  | succ s ih =>
    intro n hn
    rw [Nat.succ_mul, ← add_assoc] at hn
    rw [Function.iterate_succ_apply', windowSum_of_const ih n hn, pow_succ', mul_smul]

end Signals

/-! ### One channel, modulo 2^32 (40_cic R111, R113, R115) -/

/-- The integers modulo 2^32. -/
abbrev Residue : Type := ZMod 4294967296

@[simp] theorem wrap32_residue (v : Int) : (wrap32 v : Residue) = v :=
  (ZMod.intCast_eq_intCast_iff' _ _ _).2 (wrap32_congr v)

theorem eq_of_residue_eq {a b : Int} (ha : Int32Range a) (hb : Int32Range b) (h : (a : Residue) = b) : a = b := by
  rw [← wrap32_of_range ha, ← wrap32_of_range hb]
  exact wrap32_eq_of_congr ((ZMod.intCast_eq_intCast_iff' _ _ _).1 h)

/-- One channel from reset after k calls with the inputs x 0, x 1, …: it integrates on each and combs on each R-th. -/
def channelAt (R : Nat) (x : Nat → Int) : Nat → CicChannel
  | 0 => CicChannel.reset
  | k + 1 =>
    if (k + 1) % R = 0 then (cicComb (cicIntegrate (channelAt R x k) (x k))).1
    else cicIntegrate (channelAt R x k) (x k)

/-- The decimator is its two channels and the number of calls modulo CIC_R. -/
theorem cicRun_channels {cfg : Config} (hR : 1 ≤ cfg.cicR) (x : Nat → IQ) (k : Nat) :
    (cicRun cfg Cic.reset ((List.range k).map x)).1 =
      ⟨channelAt cfg.cicR (fun i => (x i).re) k, channelAt cfg.cicR (fun i => (x i).im) k, k % cfg.cicR⟩ := by
  induction k with
  | zero => simp [cicRun, Cic.reset, channelAt]
  | succ k ih =>
    have next := succ_mod_eq_ite k hR
    simp only [List.range_succ, List.map_append, List.map_singleton, cicRun_concat, ih, cicDecimate, channelAt]
    split at next
    case isTrue h => simp [next, if_pos h]
    case isFalse h => simp [next, if_neg h]

/-- What a ready call answers: the scaled comb outputs of the two channels (40_cic R113, R114). -/
theorem cicRun_output {cfg : Config} (hR : 1 ≤ cfg.cicR) (x : Nat → IQ) (k : Nat) {o : IQ}
    (h : (cicRun cfg Cic.reset ((List.range (k + 1)).map x)).2 = some o) :
    (k + 1) % cfg.cicR = 0 ∧
    o = ⟨cicScale cfg (cicComb (cicIntegrate (channelAt cfg.cicR (fun i => (x i).re) k) (x k).re)).2,
         cicScale cfg (cicComb (cicIntegrate (channelAt cfg.cicR (fun i => (x i).im) k) (x k).im)).2⟩ := by
  have next := succ_mod_eq_ite k hR
  simp only [List.range_succ, List.map_append, List.map_singleton, cicRun_concat, cicRun_channels hR, cicDecimate] at h
  split at next
  case isTrue hlt => simp [if_pos hlt] at h
  case isFalse hge =>
    rw [if_neg hge] at h
    exact ⟨next, (Option.some.inj h).symm⟩

/-- The input as a signal: call k + 1 takes x k. -/
def callInput (x : Nat → Int) : Nat → Residue
  | 0 => 0
  | k + 1 => x k

/-- An integrator of the channel as a signal. -/
def integSignal (stage : CicChannel → Int) (R : Nat) (x : Nat → Int) (k : Nat) : Residue := stage (channelAt R x k)

theorem integSignal_succ {stage : CicChannel → Int} (unmoved : ∀ c, stage (cicComb c).1 = stage c) (R : Nat)
    (x : Nat → Int) (k : Nat) :
    integSignal stage R x (k + 1) = stage (cicIntegrate (channelAt R x k) (x k)) := by
  rw [integSignal, channelAt]
  split
  · rw [unmoved]
  · rfl

/-- Each integrator sums what its predecessor wrote in the same call (40_cic R111). -/
theorem integSignal_integrates (R : Nat) (x : Nat → Int) :
    Integrates (integSignal CicChannel.integ0 R x) (callInput x) ∧
    Integrates (integSignal CicChannel.integ1 R x) (integSignal CicChannel.integ0 R x) ∧
    Integrates (integSignal CicChannel.integ2 R x) (integSignal CicChannel.integ1 R x) ∧
    Integrates (integSignal CicChannel.integ3 R x) (integSignal CicChannel.integ2 R x) := by
  have next₀ := integSignal_succ (stage := CicChannel.integ0) (fun _ => rfl) R x
  have next₁ := integSignal_succ (stage := CicChannel.integ1) (fun _ => rfl) R x
  have next₂ := integSignal_succ (stage := CicChannel.integ2) (fun _ => rfl) R x
  have next₃ := integSignal_succ (stage := CicChannel.integ3) (fun _ => rfl) R x
  refine ⟨integrates_of_succ rfl fun k => ?_, integrates_of_succ Int.cast_zero fun k => ?_,
    integrates_of_succ Int.cast_zero fun k => ?_, integrates_of_succ Int.cast_zero fun k => ?_⟩
  · rw [next₀]
    exact (wrap32_residue _).trans (Int.cast_add _ _)
  · rw [next₁, next₀]
    exact (wrap32_residue _).trans (Int.cast_add _ _)
  · rw [next₂, next₁]
    exact (wrap32_residue _).trans (Int.cast_add _ _)
  · rw [next₃, next₂]
    exact (wrap32_residue _).trans (Int.cast_add _ _)

/-- Four comb stages on the last integrator are four window sums of the input: the integrators' wrapping cancels. -/
theorem comb_integSignal (R : Nat) (x : Nat → Int) :
    (combStage R)^[4] (integSignal CicChannel.integ3 R x) = (windowSum R)^[4] (callInput x) := by
  obtain ⟨h₀, h₁, h₂, h₃⟩ := integSignal_integrates R x
  exact comb_of_four_integrators h₀ h₁ h₂ h₃

/-- The delays hold what the four comb stages took in on call m, where f is the last integrator's signal. -/
structure CicChannel.DelaysHold (R : Nat) (f : Nat → Residue) (m : Nat) (c : CicChannel) : Prop where
  delay0 : (c.delay0 : Residue) = f m
  delay1 : (c.delay1 : Residue) = combStage R f m
  delay2 : (c.delay2 : Residue) = (combStage R)^[2] f m
  delay3 : (c.delay3 : Residue) = (combStage R)^[3] f m

/-- CIC_COMB runs the four comb stages on call m when its delays are those of R calls before. -/
theorem cicComb_stages {R m : Nat} {f : Nat → Residue} {c : CicChannel} (held : c.DelaysHold R f (m - R))
    (last : (c.integ3 : Residue) = f m) :
    (cicComb c).1.DelaysHold R f m ∧ ((cicComb c).2 : Residue) = (combStage R)^[4] f m := by
  have v1 : (wrap32 (c.integ3 - c.delay0) : Residue) = combStage R f m := by
    simp [last, held.delay0, combStage]
  have v2 : (wrap32 (wrap32 (c.integ3 - c.delay0) - c.delay1) : Residue) = (combStage R)^[2] f m := by
    rw [wrap32_residue, Int.cast_sub, v1, held.delay1]
    rfl
  have v3 : (wrap32 (wrap32 (wrap32 (c.integ3 - c.delay0) - c.delay1) - c.delay2) : Residue) =
      (combStage R)^[3] f m := by
    rw [wrap32_residue, Int.cast_sub, v2, held.delay2]
    rfl
  refine ⟨⟨last, v1, v2, v3⟩, ?_⟩
  simp only [cicComb]
  rw [wrap32_residue, Int.cast_sub, v3, held.delay3]
  rfl

theorem cicIntegrate_delaysHold {R m : Nat} {f : Nat → Residue} {c : CicChannel} (held : c.DelaysHold R f m)
    (v : Int) : (cicIntegrate c v).DelaysHold R f m :=
  ⟨held.delay0, held.delay1, held.delay2, held.delay3⟩

/-- A ready call runs the four comb stages on the integrator value of that call. -/
theorem channelAt_comb {R k : Nat} {x : Nat → Int}
    (held : (channelAt R x k).DelaysHold R (integSignal CicChannel.integ3 R x) (k + 1 - R)) :
    (cicComb (cicIntegrate (channelAt R x k) (x k))).1.DelaysHold R (integSignal CicChannel.integ3 R x) (k + 1) ∧
    ((cicComb (cicIntegrate (channelAt R x k) (x k))).2 : Residue) =
      (combStage R)^[4] (integSignal CicChannel.integ3 R x) (k + 1) :=
  cicComb_stages (cicIntegrate_delaysHold held _) (integSignal_succ (fun _ => rfl) R x k).symm

theorem previous_ready {R k : Nat} (hR : 1 ≤ R) (ready : (k + 1) % R = 0) : k - k % R = k + 1 - R := by
  have hlt := Nat.mod_lt k hR
  have next := succ_mod_eq_ite k hR
  split at next <;> omega

/-- The delays hold the stages of the last ready call, which is call k - k % R; before the first, those of reset. -/
theorem channelAt_delaysHold {R : Nat} (hR : 1 ≤ R) (x : Nat → Int) (k : Nat) :
    (channelAt R x k).DelaysHold R (integSignal CicChannel.integ3 R x) (k - k % R) := by
  induction k with
  | zero => constructor <;> simp [integSignal, combStage, channelAt, CicChannel.reset]
  | succ k ih =>
    by_cases ready : (k + 1) % R = 0
    · rw [previous_ready hR ready] at ih
      rw [ready, channelAt, if_pos ready]
      exact (channelAt_comb ih).1
    · have same : k + 1 - (k + 1) % R = k - k % R := by
        have next := succ_mod_eq_ite k hR
        split at next <;> omega
      rw [same, channelAt, if_neg ready]
      exact cicIntegrate_delaysHold ih _

/-! ### The DC gain (40_cic R116) -/

/-- The comb output is exact where the true output fits int32: a ready call that ends 4R - 3 calls with input v. -/
theorem cicComb_of_const {R k a : Nat} {x : Nat → Int} {v : Int} (hR : 1 ≤ R) (ready : (k + 1) % R = 0)
    (const : ∀ i, a ≤ i → x i = v) (long : a + (4 * R - 3) ≤ k + 1) (fits : Int32Range (v * R ^ 4)) :
    (cicComb (cicIntegrate (channelAt R x k) (x k))).2 = v * R ^ 4 := by
  have held := channelAt_delaysHold hR x k
  rw [previous_ready hR ready] at held
  have input : ∀ n, a + 1 ≤ n → callInput x n = v := by
    rintro (_ | i) hi
    · omega
    · exact congrArg Int.cast (const i (by omega))
  refine eq_of_residue_eq (wrap32_range _) fits ?_
  rw [(channelAt_comb held).2, comb_integSignal, iterate_windowSum_of_const input 4 (k + 1) (by omega)]
  push_cast
  rw [nsmul_eq_mul, Nat.cast_pow, mul_comm]

/-- A list that goes on with one value, as the first values of a sequence. -/
theorem append_replicate_eq_map_range {α : Type} (xs : List α) (v : α) (n : Nat) :
    xs ++ List.replicate n v = (List.range (xs.length + n)).map fun i => xs.getD i v := by
  refine List.ext_getElem (by simp) fun i _ _ => ?_
  by_cases h : i < xs.length <;> simp [h, List.getElem_append]

/-- Settles O46: the window sums of the run's last call see the constant input only. -/
theorem cicDcGain : Obligations.CicDcGain := by
  intro cfg xs v n o hR long fitsRe fitsIm answered
  obtain ⟨k, hk⟩ : ∃ k, xs.length + n = k + 1 := ⟨xs.length + n - 1, by omega⟩
  rw [append_replicate_eq_map_range, hk] at answered
  obtain ⟨ready, rfl⟩ := cicRun_output hR _ k answered
  have const : ∀ i, xs.length ≤ i → xs.getD i v = v := fun i hi => List.getD_eq_default xs v hi
  rw [cicComb_of_const hR ready (fun i hi => congrArg IQ.re (const i hi)) (by omega) fitsRe,
    cicComb_of_const hR ready (fun i hi => congrArg IQ.im (const i hi)) (by omega) fitsIm]
  simp only [cicScale, asr_eq]

end Sys2Proof.Machine

/-! IQ_UPDATE (41_frontend_iq R130, R133): the filters with shift 5, and which of the two outcomes the estimates give.
The integer square root is what its digit search brackets. -/

namespace Sys2Proof.Machine

/-! ### The primitives it uses (00_scope R11, R13) -/

theorem clamp_eq_max_min (v : Int) {lo hi : Int} (h : lo ≤ hi) : clamp v lo hi = max lo (min hi v) := by
  simp only [clamp]
  omega

theorem clamp_eq_min_of_le {v lo : Int} (hi : Int) (h : lo ≤ v) : clamp v lo hi = min hi v := by
  rw [clamp, max_eq_right h]

theorem isqrt_bracket (n : Nat) : isqrt n ^ 2 ≤ n ∧ n < (isqrt n + 1) ^ 2 :=
  rootDigits_spec 2 n _ 0 (Nat.zero_le n) (lt_isqrt_bound n)

/-- The root of a nonnegative integer, read back in the integers. -/
theorem isqrt_toNat_bracket {v : Int} (h : 0 ≤ v) :
    (isqrt v.toNat : Int) * isqrt v.toNat ≤ v ∧ v < ((isqrt v.toNat : Int) + 1) * (isqrt v.toNat + 1) := by
  obtain ⟨n, rfl⟩ := Int.eq_ofNat_of_zero_le h
  have bracket := isqrt_bracket n
  simp only [pow_two] at bracket
  exact_mod_cast bracket

/-! ### The estimates (41_frontend_iq R130) -/

/-- The window's filter with its shift 5 written as a division. -/
theorem iqTrack_eq (f x : Int) : iirTrack f x iqIirShift = (f + x - f / 32, (f + x - f / 32) / 32) := rfl

/-- The estimate of theta1 that a window gives. -/
def IqCorr.theta1 (u : IqCorr) : Int := (iirTrack u.f1 u.acc1 iqIirShift).2

/-- The estimate of theta2. -/
def IqCorr.theta2 (u : IqCorr) : Int := (iirTrack u.f2 u.acc2 iqIirShift).2

/-- The estimate of theta3. -/
def IqCorr.theta3 (u : IqCorr) : Int := (iirTrack u.f3 u.acc3 iqIirShift).2

/-- The radicand theta3² - theta1², whose sign decides on the fallback (41_frontend_iq R133). -/
def IqCorr.radicand (u : IqCorr) : Int := u.theta3 * u.theta3 - u.theta1 * u.theta1

/-! ### The outcomes (41_frontend_iq R130, R133) -/

/-- The filters and the cleared sums are the same in both outcomes. -/
theorem iqUpdate_filters (u : IqCorr) :
    (iqUpdate u).f1 = u.f1 + u.acc1 - u.f1 / 32 ∧ (iqUpdate u).f2 = u.f2 + u.acc2 - u.f2 / 32 ∧
    (iqUpdate u).f3 = u.f3 + u.acc3 - u.f3 / 32 ∧
    (iqUpdate u).acc1 = 0 ∧ (iqUpdate u).acc2 = 0 ∧ (iqUpdate u).acc3 = 0 ∧ (iqUpdate u).n = 0 := by
  simp only [iqUpdate]
  split <;> exact ⟨rfl, rfl, rfl, rfl, rfl, rfl, rfl⟩

theorem iqUpdate_of_fallback {u : IqCorr} (h : u.theta2 < 1 ∨ u.radicand < 0) :
    (iqUpdate u).c1 = 0 ∧ (iqUpdate u).c2 = 32768 ∧ (iqUpdate u).fallback = true := by
  rw [show iqUpdate u = _ from if_pos h]
  exact ⟨rfl, rfl, rfl⟩

theorem iqUpdate_of_estimates {u : IqCorr} (one_le : 1 ≤ u.theta2) (nonneg : 0 ≤ u.radicand) :
    (iqUpdate u).fallback = false ∧
    (iqUpdate u).c1 = clamp (tdiv (shl u.theta1 15) u.theta2) int32Lo int32Hi ∧
    (iqUpdate u).c2 = clamp (isqrt (shl u.radicand 30 / (u.theta2 * u.theta2)).toNat) int32Lo int32Hi := by
  have no_fallback : ¬(u.theta2 < 1 ∨ u.radicand < 0) := by omega
  rw [show iqUpdate u = _ from if_neg no_fallback]
  exact ⟨rfl, rfl, rfl⟩

/-- The ratio in Q30 under the root is nonnegative, so taking it as a natural number loses nothing. -/
theorem ratioQ30_nonneg {u : IqCorr} (nonneg : 0 ≤ u.radicand) : 0 ≤ shl u.radicand 30 / (u.theta2 * u.theta2) := by
  rw [shl_eq]
  exact Int.ediv_nonneg (mul_nonneg nonneg (pow_pos_int 30).le) (mul_self_nonneg _)

theorem iqUpdate_c1 {u : IqCorr} (one_le : 1 ≤ u.theta2) (nonneg : 0 ≤ u.radicand) :
    (iqUpdate u).c1 = max (-2147483648) (min 2147483647 ((u.theta1 * 32768).tdiv u.theta2)) := by
  obtain ⟨-, c1, -⟩ := iqUpdate_of_estimates one_le nonneg
  rw [c1, clamp_eq_max_min _ (by decide), tdiv, shl_eq]
  rfl

theorem iqUpdate_c2 {u : IqCorr} (one_le : 1 ≤ u.theta2) (nonneg : 0 ≤ u.radicand) :
    ∃ r : Nat, (r : Int) * r ≤ u.radicand * 1073741824 / (u.theta2 * u.theta2) ∧
      u.radicand * 1073741824 / (u.theta2 * u.theta2) < ((r : Int) + 1) * (r + 1) ∧
      (iqUpdate u).c2 = min 2147483647 (r : Int) := by
  obtain ⟨-, -, c2⟩ := iqUpdate_of_estimates one_le nonneg
  obtain ⟨sq_le, lt_sq⟩ := isqrt_toNat_bracket (ratioQ30_nonneg nonneg)
  refine ⟨_, sq_le, lt_sq, c2.trans (clamp_eq_min_of_le _ ?_)⟩
  exact le_trans (by decide) (Int.natCast_nonneg _)

/-- Settles O50: the filters in either outcome, then the outcome that the estimates select. -/
theorem iqUpdateCoefficients : Obligations.IqUpdateCoefficients := by
  intro u g1 g2 g3 e1 e2 e3 u'
  have theta1_eq : u.theta1 = e1 := congrArg Prod.snd (iqTrack_eq u.f1 u.acc1)
  have theta2_eq : u.theta2 = e2 := congrArg Prod.snd (iqTrack_eq u.f2 u.acc2)
  have theta3_eq : u.theta3 = e3 := congrArg Prod.snd (iqTrack_eq u.f3 u.acc3)
  rw [← theta1_eq, ← theta2_eq, ← theta3_eq]
  refine ⟨iqUpdate_filters u, fun fallback => ?_, fun one_le sq_le => ?_⟩
  · exact iqUpdate_of_fallback (fallback.imp_right Int.sub_neg_of_lt)
  · have nonneg : 0 ≤ u.radicand := Int.sub_nonneg_of_le sq_le
    obtain ⟨used, -, -⟩ := iqUpdate_of_estimates one_le nonneg
    exact ⟨used, iqUpdate_c1 one_le nonneg, iqUpdate_c2 one_le nonneg⟩

end Sys2Proof.Machine

/-! The channel filter's mask, its peak and the notch (42_channel_filter R156 to R161). After the bins from `lo` to below
`hi` the scan's spectrum is `maskEntry m lo hi`; so the entries a further bin writes are still (0, 0), and a write to such
an entry keeps what the peak's registers say of the spectrum (`Scan.PeakOk`). -/

namespace Sys2Proof.Machine

/-! ### The sideband flags (10_state R42) -/

theorem usbFlag_iff (m : Mode) : Mode.usbFlag m = true ↔ m ≠ .lsb := by cases m <;> decide

theorem lsbFlag_iff (m : Mode) : Mode.lsbFlag m = true ↔ m ≠ .usb := by cases m <;> decide

/-! ### One write of the scan (42_channel_filter R156, R157) -/

theorem getD_set_of_lt {y : List IQ} {i : Nat} (hi : i < y.length) (v : IQ) (k : Nat) :
    (y.set i v).getD k IQ.zero = if k = i then v else y.getD k IQ.zero := by
  simp only [List.getD_eq_getElem?_getD]
  split
  case isTrue h => simp [h, hi]
  case isFalse h => simp [Ne.symm h]

theorem binPower_nonneg (v : IQ) : 0 ≤ binPower v := add_nonneg (mul_self_nonneg _) (mul_self_nonneg _)

/-- The power of entry k of the scan's spectrum. -/
def Scan.pow (sc : Scan) (k : Nat) : Int := binPower (sc.y.getD k IQ.zero)

theorem Scan.pow_nonneg (sc : Scan) (k : Nat) : 0 ≤ sc.pow k := binPower_nonneg _

@[simp] theorem Scan.take_y (sc : Scan) (idx : Nat) (v : IQ) : (sc.take idx v).y = sc.y.set idx v := by
  simp only [Scan.take]
  split
  · rfl
  · split <;> rfl

theorem Scan.take_getD {sc : Scan} {idx : Nat} (hi : idx < sc.y.length) (v : IQ) (k : Nat) :
    (sc.take idx v).y.getD k IQ.zero = if k = idx then v else sc.y.getD k IQ.zero := by
  rw [Scan.take_y, getD_set_of_lt hi]

theorem Scan.take_pow_same {sc : Scan} {idx : Nat} (hi : idx < sc.y.length) (v : IQ) :
    (sc.take idx v).pow idx = binPower v := by
  rw [Scan.pow, Scan.take_getD hi, if_pos rfl]

theorem Scan.take_pow_other {sc : Scan} {idx : Nat} (hi : idx < sc.y.length) (v : IQ) {k : Nat} (hk : k ≠ idx) :
    (sc.take idx v).pow k = sc.pow k := by
  rw [Scan.pow, Scan.take_getD hi, if_neg hk, Scan.pow]

theorem Scan.take_pow_le {sc : Scan} {idx : Nat} (hi : idx < sc.y.length) {v : IQ} {k : Nat} {p : Int}
    (hv : binPower v ≤ p) (hk : k ≠ idx → sc.pow k ≤ p) : (sc.take idx v).pow k ≤ p := by
  by_cases h : k = idx
  · rw [h, Scan.take_pow_same hi]
    exact hv
  · rw [Scan.take_pow_other hi v h]
    exact hk h

/-- PEAK_CONSIDER's three outcomes: a new peak, a new second, neither. -/
theorem Scan.take_registers (sc : Scan) (idx : Nat) (v : IQ) :
    let t := sc.take idx v
    (sc.peakPow < binPower v ∧ t.peakBin = idx ∧ t.peakPow = binPower v ∧ t.secondPow = sc.peakPow) ∨
    (binPower v ≤ sc.peakPow ∧ sc.secondPow < binPower v ∧
      t.peakBin = sc.peakBin ∧ t.peakPow = sc.peakPow ∧ t.secondPow = binPower v) ∨
    (binPower v ≤ sc.peakPow ∧ binPower v ≤ sc.secondPow ∧
      t.peakBin = sc.peakBin ∧ t.peakPow = sc.peakPow ∧ t.secondPow = sc.secondPow) := by
  simp only [Scan.take]
  split
  case isTrue h => exact .inl ⟨h, rfl, rfl, rfl⟩
  case isFalse h =>
    split
    case isTrue h' => exact .inr (.inl ⟨not_lt.1 h, h', rfl, rfl, rfl⟩)
    case isFalse h' => exact .inr (.inr ⟨not_lt.1 h, not_lt.1 h', rfl, rfl, rfl⟩)

/-! ### What the peak's registers say of the spectrum (42_channel_filter R157) -/

/-- The peak's registers against the powers of the spectrum scanned so far. -/
structure Scan.PeakOk (sc : Scan) : Prop where
  pow_le : ∀ k, sc.pow k ≤ sc.peakPow
  bin_zero : sc.peakPow = 0 → sc.peakBin = 0
  pow_peakBin : sc.pow sc.peakBin = sc.peakPow
  bin_lt : sc.peakBin < 128
  pow_le_second : ∀ k, k ≠ sc.peakBin → sc.pow k ≤ sc.secondPow
  second_attained : sc.secondPow = 0 ∨ ∃ k, k < 128 ∧ k ≠ sc.peakBin ∧ sc.pow k = sc.secondPow

theorem Scan.start_getD (k : Nat) : Scan.start.y.getD k IQ.zero = IQ.zero := by
  by_cases hk : k < outM <;> simp [Scan.start, hk]

theorem Scan.start_pow (k : Nat) : Scan.start.pow k = 0 := by
  rw [Scan.pow, Scan.start_getD]
  rfl

theorem Scan.start_peakOk : Scan.start.PeakOk where
  pow_le k := (Scan.start_pow k).le
  bin_zero _ := rfl
  pow_peakBin := Scan.start_pow _
  bin_lt := by decide
  pow_le_second k _ := (Scan.start_pow k).le
  second_attained := .inl rfl

theorem Scan.PeakOk.peakPow_nonneg {sc : Scan} (h : sc.PeakOk) : 0 ≤ sc.peakPow := (sc.pow_nonneg 0).trans (h.pow_le 0)

theorem Scan.PeakOk.secondPow_nonneg {sc : Scan} (h : sc.PeakOk) : 0 ≤ sc.secondPow :=
  (sc.pow_nonneg _).trans (h.pow_le_second (sc.peakBin + 1) (by omega))

/-- Only an entry with power 0 may be overwritten: then no maximum found before is lost. -/
theorem Scan.PeakOk.take {sc : Scan} (h : sc.PeakOk) {idx : Nat} (len : sc.y.length = 128) (hi : idx < 128)
    (fresh : sc.pow idx = 0) (v : IQ) : (sc.take idx v).PeakOk := by
  have hi' : idx < sc.y.length := len ▸ hi
  have pow_idx := Scan.take_pow_same hi' v
  have v_nonneg := binPower_nonneg v
  have second_nonneg := h.secondPow_nonneg
  have peak_of_eq (e : sc.peakBin = idx) : sc.peakPow = 0 := by rw [← h.pow_peakBin, e, fresh]
  rcases sc.take_registers idx v with ⟨gt, bin, peak, second⟩ | ⟨le, gt, bin, peak, second⟩ | ⟨le, le', bin, peak, second⟩
  case inl =>
    have peak_nonneg := h.peakPow_nonneg
    refine ⟨fun k => ?_, fun hz => by omega, by rw [bin, pow_idx, peak], bin.symm ▸ hi, fun k hk => ?_, ?_⟩
    · exact Scan.take_pow_le hi' peak.ge fun _ => (h.pow_le k).trans (by omega)
    · rw [bin] at hk
      rw [Scan.take_pow_other hi' v hk, second]
      exact h.pow_le k
    · by_cases hb : sc.peakBin = idx
      · exact .inl (second.trans (peak_of_eq hb))
      · refine .inr ⟨sc.peakBin, h.bin_lt, bin.symm ▸ hb, ?_⟩
        rw [Scan.take_pow_other hi' v hb, second, h.pow_peakBin]
  case inr.inl =>
    have hb : sc.peakBin ≠ idx := fun e => by
      have := peak_of_eq e
      omega
    refine ⟨fun k => ?_, fun hz => bin.trans (h.bin_zero (peak ▸ hz)), ?_, bin ▸ h.bin_lt, fun k hk => ?_, ?_⟩
    · exact Scan.take_pow_le hi' (peak ▸ le) fun _ => peak ▸ h.pow_le k
    · rw [bin, Scan.take_pow_other hi' v hb, peak, h.pow_peakBin]
    · exact Scan.take_pow_le hi' second.ge fun _ => (h.pow_le_second k (bin ▸ hk)).trans (by omega)
    · exact .inr ⟨idx, hi, bin ▸ hb.symm, pow_idx.trans second.symm⟩
  case inr.inr =>
    refine ⟨fun k => ?_, fun hz => bin.trans (h.bin_zero (peak ▸ hz)), ?_, bin ▸ h.bin_lt, fun k hk => ?_, ?_⟩
    · exact Scan.take_pow_le hi' (peak ▸ le) fun _ => peak ▸ h.pow_le k
    · rw [bin, peak]
      by_cases hb : sc.peakBin = idx
      · have := peak_of_eq hb
        rw [hb, pow_idx]
        omega
      · rw [Scan.take_pow_other hi' v hb, h.pow_peakBin]
    · exact Scan.take_pow_le hi' (second ▸ le') fun _ => second ▸ h.pow_le_second k (bin ▸ hk)
    · rw [second, bin]
      rcases h.second_attained with hz | ⟨k, hk, hkb, hpow⟩
      · exact .inl hz
      · by_cases hk' : k = idx
        · exact .inl (by rw [← hpow, hk', fresh])
        · exact .inr ⟨k, hk, hkb, by rw [Scan.take_pow_other hi' v hk', hpow]⟩

/-! ### One bin of the mask (42_channel_filter R156) -/

/-- A write of the scan on a side that may be off. -/
def Scan.takeIf (c : Prop) [Decidable c] (sc : Scan) (idx : Nat) (v : IQ) : Scan := if c then sc.take idx v else sc

theorem maskBin_eq_takeIf (m : Mode) (x : List IQ) (sc : Scan) (k : Nat) :
    maskBin m x sc k =
      (sc.takeIf (m ≠ .lsb) k (x.getD k IQ.zero)).takeIf (m ≠ .usb ∧ 1 ≤ k) (128 - k) (x.getD (256 - k) IQ.zero) := by
  simp only [maskBin, Scan.takeIf, usbFlag_iff, lsbFlag_iff]

section
variable (c : Prop) [Decidable c] {sc : Scan} {idx : Nat}

theorem Scan.takeIf_length (v : IQ) : (sc.takeIf c idx v).y.length = sc.y.length := by
  rw [Scan.takeIf]
  split
  · rw [Scan.take_y, List.length_set]
  · rfl

theorem Scan.takeIf_getD (hi : c → idx < sc.y.length) (v : IQ) (j : Nat) :
    (sc.takeIf c idx v).y.getD j IQ.zero = if c ∧ j = idx then v else sc.y.getD j IQ.zero := by
  rw [Scan.takeIf]
  split
  case isTrue hc => simp only [Scan.take_getD (hi hc), hc, true_and]
  case isFalse hc => simp only [hc, false_and, if_false]

theorem Scan.PeakOk.takeIf (h : sc.PeakOk) (len : sc.y.length = 128) (hi : c → idx < 128)
    (fresh : c → sc.y.getD idx IQ.zero = IQ.zero) (v : IQ) : (sc.takeIf c idx v).PeakOk := by
  rw [Scan.takeIf]
  split
  case isTrue hc => exact h.take len (hi hc) (by rw [Scan.pow, fresh hc]; rfl) v
  case isFalse => exact h

end

/-- Entry j of the spectrum masked to the bins from lo to below hi. -/
def maskEntry (m : Mode) (lo hi : Nat) (x : List IQ) (j : Nat) : IQ :=
  if m ≠ .lsb ∧ lo ≤ j ∧ j < hi then x.getD j IQ.zero
  else if m ≠ .usb ∧ lo ≤ 128 - j ∧ 128 - j < hi then x.getD (128 + j) IQ.zero
  else IQ.zero

/-- An entry whose bin lies outside the band on either side is (0, 0). -/
theorem maskEntry_outside (m : Mode) {lo hi : Nat} (x : List IQ) {j : Nat} (pos : hi ≤ j) (neg : hi ≤ 128 - j) :
    maskEntry m lo hi x j = IQ.zero := by
  rw [maskEntry, if_neg (by omega), if_neg (by omega)]

/-- What one more bin adds to the mask. -/
theorem maskEntry_succ (m : Mode) {lo hi : Nat} (le : lo ≤ hi) (x : List IQ) {j : Nat} (hj : j < 128) (h63 : hi ≤ 63) :
    maskEntry m lo (hi + 1) x j =
      if (m ≠ .usb ∧ 1 ≤ hi) ∧ j = 128 - hi then x.getD (256 - hi) IQ.zero
      else if m ≠ .lsb ∧ j = hi then x.getD hi IQ.zero
      else maskEntry m lo hi x j := by
  by_cases pos : j = hi
  · subst pos
    have no_neg : ¬(m ≠ .usb ∧ lo ≤ 128 - j ∧ 128 - j < j + 1) := by omega
    rw [if_neg (by omega), maskEntry_outside m x le_rfl (by omega), maskEntry, if_neg no_neg]
    exact if_congr (and_congr_right fun _ => by omega) rfl rfl
  · by_cases neg : j = 128 - hi
    · have no_pos : ¬(m ≠ .lsb ∧ lo ≤ j ∧ j < hi + 1) := by omega
      have mirror : 128 + j = 256 - hi := by omega
      rw [if_neg (c := m ≠ .lsb ∧ j = hi) (by omega), maskEntry_outside (hi := hi) m x (by omega) (by omega), maskEntry,
        if_neg no_pos, mirror]
      exact if_congr ((and_congr_right fun _ => by omega).trans and_assoc.symm) rfl rfl
    · rw [if_neg (by omega), if_neg (by omega)]
      exact if_congr (and_congr_right fun _ => by omega) rfl (if_congr (and_congr_right fun _ => by omega) rfl rfl)

/-- The scan after the bins from lo to below hi. -/
structure Scan.Masked (m : Mode) (lo hi : Nat) (x : List IQ) (sc : Scan) : Prop where
  len : sc.y.length = 128
  entry : ∀ j, j < 128 → sc.y.getD j IQ.zero = maskEntry m lo hi x j
  peak : sc.PeakOk

theorem Scan.start_masked (m : Mode) (lo : Nat) (x : List IQ) : Scan.start.Masked m lo lo x where
  len := List.length_replicate
  entry j _ := by rw [Scan.start_getD, maskEntry, if_neg (by omega), if_neg (by omega)]
  peak := Scan.start_peakOk

/-- Bin hi's two entries are still (0, 0) when it is reached, and are not the same entry. -/
theorem Scan.Masked.maskBin {m : Mode} {lo hi : Nat} {x : List IQ} {sc : Scan} (h : sc.Masked m lo hi x) (le : lo ≤ hi)
    (h63 : hi ≤ 63) : (maskBin m x sc hi).Masked m lo (hi + 1) x := by
  have fresh (j : Nat) (hj : j < 128) (pos : hi ≤ j) (neg : hi ≤ 128 - j) : sc.y.getD j IQ.zero = IQ.zero :=
    (h.entry j hj).trans (maskEntry_outside m x pos neg)
  have pos_getD := Scan.takeIf_getD (m ≠ .lsb) (sc := sc) (idx := hi) (fun _ => by rw [h.len]; omega)
    (x.getD hi IQ.zero)
  have pos_length := (Scan.takeIf_length (m ≠ .lsb) (sc := sc) (idx := hi) (x.getD hi IQ.zero)).trans h.len
  have pos_peak := h.peak.takeIf (m ≠ .lsb) h.len (fun _ => by omega) (fun _ => fresh hi (by omega) le_rfl (by omega))
    (x.getD hi IQ.zero)
  rw [maskBin_eq_takeIf]
  refine ⟨(Scan.takeIf_length _ _).trans pos_length, fun j hj => ?_, ?_⟩
  · rw [Scan.takeIf_getD _ (fun _ => by omega), pos_getD, h.entry j hj, maskEntry_succ m le x hj h63]
  · refine pos_peak.takeIf _ pos_length (fun _ => by omega) (fun hc => ?_) _
    rw [pos_getD, if_neg (by omega), fresh _ (by omega) (by omega) (by omega)]

/-- The bins from lo on, one by one; the last is 63 at most where there is any. -/
theorem foldl_maskBin_masked (m : Mode) (x : List IQ) (lo n : Nat) (h64 : 0 < n → lo + n ≤ 64) :
    ((List.range' lo n).foldl (maskBin m x) Scan.start).Masked m lo (lo + n) x := by
  induction n with
  | zero => exact Scan.start_masked m lo x
  | succ n ih =>
    rw [List.range'_1_concat, List.foldl_concat]
    exact (ih fun _ => by omega).maskBin (by omega) (by omega)

/-- MASK and PEAK over the whole band (42_channel_filter R156, R157). -/
theorem maskAndPeak_masked (m : Mode) {b : Band} (hb : b.stop ≤ 63) (x : List IQ) :
    (maskAndPeak m b x).Masked m b.start (b.start + (b.stop + 1 - b.start)) x :=
  foldl_maskBin_masked m x _ _ (by omega)

/-- Settles O51: the scan's spectrum is the mask of the whole band. -/
theorem maskKeepsOnlyTheBand : Obligations.MaskKeepsOnlyTheBand := by
  intro m b x k hb hk
  rw [(maskAndPeak_masked m hb x).entry k hk]
  exact if_congr (and_congr_right fun _ => by omega) rfl (if_congr (and_congr_right fun _ => by omega) rfl rfl)

/-- Settles O52: the scan of the whole band ends with registers that agree with its spectrum. -/
theorem peakIsLargest : Obligations.PeakIsLargest := by
  intro m b x hb sc
  have h : sc.PeakOk := (maskAndPeak_masked m hb x).peak
  exact ⟨fun k _ => h.pow_le k, h.bin_zero, h.pow_peakBin, h.bin_lt, fun k _ => h.pow_le_second k, h.second_attained⟩

/-! ### The notch (42_channel_filter R160, R161) -/

theorem maskedSpectrum_of_notch_off {act : Controls} (off : act.notch = false) (b : Band) (f : Machine.Filter)
    (x : List IQ) :
    let sc := maskAndPeak act.mode b x
    maskedSpectrum act b f x =
      ({ f with peakBin := sc.peakBin, peakPow := sc.peakPow, secondPow := sc.secondPow }, sc.y) := by
  simp only [maskedSpectrum, off, Bool.false_eq_true, if_false]

theorem maskedSpectrum_of_notch_on {act : Controls} (on : act.notch = true) (b : Band) (f : Machine.Filter)
    (x : List IQ) :
    let sc := maskAndPeak act.mode b x
    let g := notchConfirm { f with peakBin := sc.peakBin, peakPow := sc.peakPow, secondPow := sc.secondPow }
    maskedSpectrum act b f x = (g, notchZero g sc.y) := by
  simp only [maskedSpectrum, on, if_true]

/-- The zeroing with NOTCH_EDGE's value in its tests. -/
theorem notchZero_eq (f : Machine.Filter) (y : List IQ) :
    notchZero f y =
      if 127 < f.confirm ∧ 3 < f.peakBin ∧ f.peakBin < 124 then
        ((y.set (f.peakBin - 1) IQ.zero).set f.peakBin IQ.zero).set (f.peakBin + 1) IQ.zero
      else y := rfl

theorem getD_set_zero_around {y : List IQ} {p : Nat} (hp : p + 1 < y.length) (k : Nat) :
    (((y.set (p - 1) IQ.zero).set p IQ.zero).set (p + 1) IQ.zero).getD k IQ.zero =
      if p ≤ k + 1 ∧ k ≤ p + 1 then IQ.zero else y.getD k IQ.zero := by
  rw [getD_set_of_lt (by simpa using hp), getD_set_of_lt (by simp only [List.length_set]; omega), getD_set_of_lt (by omega),
    ← ite_or, ← ite_or]
  exact if_congr (by omega) rfl rfl

/-- The three bins zeroed are the peak bin and its neighbours, all of them within the spectrum. -/
theorem notchZero_getD (f : Machine.Filter) {y : List IQ} (len : y.length = 128) (k : Nat) :
    (notchZero f y).getD k IQ.zero =
      if 127 < f.confirm ∧ 3 < f.peakBin ∧ f.peakBin < 124 ∧ f.peakBin ≤ k + 1 ∧ k ≤ f.peakBin + 1 then IQ.zero
      else y.getD k IQ.zero := by
  rw [notchZero_eq]
  split
  case isTrue h =>
    obtain ⟨confirmed, low, high⟩ := h
    rw [getD_set_zero_around (by omega)]
    exact if_congr (by omega) rfl rfl
  case isFalse h => rw [if_neg (by omega)]

/-- Settles O53: the flag off and on, the zeroed entries by `notchZero_getD` over the mask's 128 entries. -/
theorem notchActs : Obligations.NotchActs := by
  intro act b f x hb sc r
  refine ⟨fun off => ?_, fun on => ?_⟩
  · have hr : r = _ := maskedSpectrum_of_notch_off off b f x
    rw [hr]
    exact ⟨rfl, rfl, rfl⟩
  · have hr : r = _ := maskedSpectrum_of_notch_on on b f x
    rw [hr]
    exact ⟨rfl, rfl, fun k _ => notchZero_getD _ (maskAndPeak_masked act.mode hb x).len k⟩

end Sys2Proof.Machine

/-! The CORDIC's running vector (43_cordic_sine R178): a bound on its length after each round, from components up to
46340, by the growth of one round. -/

namespace Sys2Proof.Machine

/-- A bound on the vector's length after n rounds, where both components were at most 46340. -/
def cordicLengthBound (n : Nat) : Int := [65535, 92681, 103622, 106813, 107646, 107858, 107913].getD n 0

theorem cordicLengthBound_range : ∀ n ≤ 6, 0 ≤ cordicLengthBound n ∧ cordicLengthBound n < 131072 := by decide

theorem cordicLengthBound_growth :
    ∀ n, (h : n < cordicTable.length) →
      CordicGrowth cordicTable[n].1 (cordicLengthBound n) (cordicLengthBound (n + 1)) := by
  simp only [CordicGrowth]
  decide

/-- The first n rounds, by `cordicRound_lengthLe` for the last of them. -/
theorem cordicRounds_lengthLe {i q : Int} (h : i ^ 2 + q ^ 2 ≤ 65535 ^ 2) {n : Nat} (hn : n ≤ cordicTable.length) :
    ((cordicTable.take n).foldl cordicRound (cordicPre i q)).LengthLe (cordicLengthBound n) := by
  induction n with
  | zero => exact cordicPre_lengthLe h
  | succ n ih =>
    rw [List.take_succ_eq_append_getElem hn, List.foldl_concat]
    have hn' := Nat.le_of_succ_le hn
    obtain ⟨hB, -⟩ := cordicLengthBound_range n hn'
    exact cordicRound_lengthLe _ _ hB (ih hn') (cordicLengthBound_growth n hn)

theorem CordicVec.LengthLe.components {v : CordicVec} {B : Int} (hB : 0 ≤ B) (h : v.LengthLe B) :
    0 ≤ v.i ∧ v.i ≤ B ∧ -B ≤ v.q ∧ v.q ≤ B := by
  obtain ⟨hi, hn⟩ := h
  have hib := abs_le_of_sq_le_sq' ((le_add_of_nonneg_right (sq_nonneg v.q)).trans hn) hB
  have hqb := abs_le_of_sq_le_sq' ((le_add_of_nonneg_left (sq_nonneg v.i)).trans hn) hB
  exact ⟨hi, hib.2, hqb⟩

theorem sq_add_sq_le_of_components {i q : Int} (hi : -46340 ≤ i ∧ i ≤ 46340) (hq : -46340 ≤ q ∧ q ≤ 46340) :
    i ^ 2 + q ^ 2 ≤ 65535 ^ 2 := by
  have h1 : i ^ 2 ≤ 46340 ^ 2 := sq_le_sq' hi.1 hi.2
  have h2 : q ^ 2 ≤ 46340 ^ 2 := sq_le_sq' hq.1 hq.2
  omega

theorem cordicMag_of_extremes : cordicMag (-32768) (-32768) = 46341 ∧ cordicMag 32767 32767 = 46341 := by decide

/-- Settles O58: every round by the length's bound, the magnitude of int16 components by `cordicMag_le_magMax`. -/
theorem cordicStaysBounded : Obligations.CordicStaysBounded := by
  refine ⟨fun i q hi hi' hq hq' => ⟨fun n hn => ?_, cordicMag_nonneg i q, cordicPhase_range i q⟩,
    fun i q hi hi' hq hq' => cordicMag_le_magMax (x := ⟨i, q⟩) ⟨⟨hi, hi'⟩, ⟨hq, hq'⟩⟩, cordicMag_of_extremes⟩
  obtain ⟨hB, hlt⟩ := cordicLengthBound_range n hn
  have hlen := cordicRounds_lengthLe (sq_add_sq_le_of_components ⟨hi, hi'⟩ ⟨hq, hq'⟩) hn
  obtain ⟨hi0, hiB, hqlo, hqhi⟩ := hlen.components hB
  exact ⟨hi0, hiB.trans_lt hlt, by omega, hqhi.trans_lt hlt⟩

end Sys2Proof.Machine

/-! The sine table is one quadrant and its reflections (43_cordic_sine R186): the lookup is odd, symmetric about 512 and
changes its sign in half a circle. The window's symmetry and overlap (42_channel_filter R148) and the checksums over the
whole circle follow from these; only single values and the first quadrant's sum are evaluated. -/

namespace Sys2Proof.Machine

/-! ### The lookup by quadrants -/

theorem sineQuarter_getD_zero : sineQuarter.getD 0 0 = 0 := rfl

theorem sinT_of_first {a : Int} {j : Nat} (hj : j ≤ 512) (h : a % 2048 = j) : sinT a = sineQuarter.getD j 0 := by
  rw [sinT, h, Int.toNat_natCast, sinEntry, if_pos hj]

theorem sinT_of_second {a : Int} {j : Nat} (hj : j ≤ 512) (h : a % 2048 = 1024 - j) :
    sinT a = sineQuarter.getD j 0 := by
  rcases Nat.lt_or_eq_of_le hj with hlt | rfl
  · rw [sinT, show (a % 2048).toNat = 1024 - j by omega, sinEntry, if_neg (by omega), if_pos (by omega),
      Nat.sub_sub_self (by omega)]
  · exact sinT_of_first hj (by omega)

theorem sinT_of_third {a : Int} {j : Nat} (hj : j ≤ 512) (h : a % 2048 = 1024 + j) :
    sinT a = -sineQuarter.getD j 0 := by
  rcases Nat.eq_zero_or_pos j with rfl | hpos
  · rw [sinT_of_second hj (by omega), sineQuarter_getD_zero, neg_zero]
  · rw [sinT, show (a % 2048).toNat = 1024 + j by omega, sinEntry, if_neg (by omega), if_neg (by omega),
      if_pos (by omega), Nat.add_sub_cancel_left]

theorem sinT_of_fourth {a : Int} {j : Nat} (hj : j ≤ 512) (h : a % 2048 = -j % 2048) :
    sinT a = -sineQuarter.getD j 0 := by
  rcases Nat.eq_zero_or_pos j with rfl | hpos
  · rw [sinT_of_first hj (by omega), sineQuarter_getD_zero, neg_zero]
  rcases Nat.lt_or_eq_of_le hj with hlt | rfl
  · rw [sinT, show (a % 2048).toNat = 2048 - j by omega, sinEntry, if_neg (by omega), if_neg (by omega),
      if_neg (by omega), Nat.sub_sub_self (by omega)]
  · exact sinT_of_third hj (by omega)

/-- Every angle lies in one of the four quadrants. -/
theorem exists_quadrant (a : Int) : ∃ j : Nat, j ≤ 512 ∧
    (a % 2048 = j ∨ a % 2048 = 1024 - j ∨ a % 2048 = 1024 + j ∨ a % 2048 = -j % 2048) := by
  rcases le_or_gt (a % 2048) 512 with h1 | h1
  · exact ⟨(a % 2048).toNat, by omega, by omega⟩
  rcases le_or_gt (a % 2048) 1024 with h2 | h2
  · exact ⟨(1024 - a % 2048).toNat, by omega, by omega⟩
  rcases le_or_gt (a % 2048) 1536 with h3 | h3
  · exact ⟨(a % 2048 - 1024).toNat, by omega, by omega⟩
  · exact ⟨(2048 - a % 2048).toNat, by omega, by omega⟩

/-! ### The symmetries -/

theorem sinT_sub_period (a : Int) : sinT (2048 - a) = sinT (-a) := by
  rw [sinT, sinT, show (2048 - a) % 2048 = -a % 2048 by omega]

theorem sinT_neg (a : Int) : sinT (-a) = -sinT a := by
  obtain ⟨j, hj, h | h | h | h⟩ := exists_quadrant a
  · rw [sinT_of_first hj h, sinT_of_fourth hj (by omega)]
  · rw [sinT_of_second hj h, sinT_of_third hj (by omega)]
  · rw [sinT_of_third hj h, sinT_of_second hj (by omega), neg_neg]
  · rw [sinT_of_fourth hj h, sinT_of_first hj (by omega), neg_neg]

/-- Angles as far before the quarter circle as after it. -/
theorem sinT_eq_of_add {a b : Int} (hab : (a + b) % 2048 = 1024) : sinT a = sinT b := by
  obtain ⟨j, hj, h | h | h | h⟩ := exists_quadrant a
  · rw [sinT_of_first hj h, sinT_of_second hj (by omega)]
  · rw [sinT_of_second hj h, sinT_of_first hj (by omega)]
  · rw [sinT_of_third hj h, sinT_of_fourth hj (by omega)]
  · rw [sinT_of_fourth hj h, sinT_of_third hj (by omega)]

/-- Half a circle further the sine changes its sign. -/
theorem sinT_add_half (a : Int) : sinT (a + 1024) = -sinT a := by
  rw [← sinT_neg]
  exact sinT_eq_of_add (by omega)

theorem cosT_eq_sinT (a : Int) : cosT a = sinT (a + 512) := rfl

theorem cosT_sub_period (a : Int) : cosT (2048 - a) = cosT a := sinT_eq_of_add (by omega)

theorem cosT_add_half (a : Int) : cosT (a + 1024) = -cosT a := by
  rw [cosT_eq_sinT, cosT_eq_sinT, ← sinT_add_half, add_right_comm]

/-! ### The window -/

theorem window_eq (n : Nat) : window n = (32767 - cosT (8 * n)) / 2 := rfl

/-- The cosine is symmetric about half a circle, which the window reaches at n = 128. -/
theorem window_symm {n : Nat} (h : n ≤ 256) : window (256 - n) = window n := by
  rw [window_eq, window_eq, ← cosT_sub_period (8 * n)]
  congr 3
  omega

/-- The halves overlap to 32767, less the one that two odd numerators lose. -/
theorem window_overlap (n : Nat) :
    window n + window (n + 128) = 32766 ∨ window n + window (n + 128) = 32767 := by
  have hcos : cosT (8 * (n + 128 : Nat)) = -cosT (8 * n) := by
    rw [← cosT_add_half]
    congr 1
  rw [window_eq, window_eq, hcos]
  omega

theorem window_values :
    window 0 = 0 ∧ window 1 = 5 ∧ window 2 = 19 ∧ window 3 = 44 ∧ window 64 = 16383 ∧ window 128 = 32767 := by
  decide +kernel

/-! ### The table's values and sums -/

theorem sinT_values :
    sinT 0 = 0 ∧ sinT 256 = 23170 ∧ sinT 512 = 32767 ∧ sinT 1024 = 0 ∧ sinT 1536 = -32767 := by decide +kernel

theorem list_sum_map_range (f : Nat → Int) (n : Nat) :
    ((List.range n).map f).sum = ∑ k ∈ Finset.range n, f k := rfl

theorem map_sinT_range_eq_sineQuarter : ((List.range 513).map fun k : Nat => sinT k) = sineQuarter := by
  refine List.ext_getElem (by simp [sineQuarter_length]) fun k hk hk' => ?_
  simp only [List.length_map, List.length_range] at hk
  rw [List.getElem_map, List.getElem_range, sinT_of_first (j := k) (by omega) (by omega),
    List.getD_eq_getElem _ _ hk']

theorem sinT_sum_quarter : ((List.range 513).map fun k : Nat => sinT k).sum = 10696746 := by
  rw [map_sinT_range_eq_sineQuarter]
  decide +kernel

theorem sinT_sum_below_quarter : ∑ k ∈ Finset.range 512, sinT k = 10696746 - 32767 := by
  have hsum := sinT_sum_quarter
  rw [list_sum_map_range, Finset.sum_range_succ _ 512] at hsum
  obtain ⟨-, -, hend, -⟩ := sinT_values
  push_cast at hsum
  linarith

theorem sinT_sum_above_zero : ∑ k ∈ Finset.range 512, sinT (k + 1 : Nat) = 10696746 := by
  have hsum := sinT_sum_quarter
  rw [list_sum_map_range, Finset.sum_range_succ' _ 512] at hsum
  obtain ⟨hend, -⟩ := sinT_values
  push_cast at hsum ⊢
  linarith

/-- The half circle is the first quadrant up and down again, its ends counted once. -/
theorem sinT_sum_half : ∑ k ∈ Finset.range 1024, sinT k = 2 * 10696746 - 32767 := by
  have hreflect : ∑ k ∈ Finset.range 512, sinT (512 + k : Nat) = ∑ k ∈ Finset.range 512, sinT (k + 1 : Nat) := by
    rw [← Finset.sum_range_reflect]
    refine Finset.sum_congr rfl fun k hk => sinT_eq_of_add ?_
    have := Finset.mem_range.1 hk
    omega
  rw [Finset.sum_range_add (fun k : Nat => sinT k) 512 512, hreflect, sinT_sum_below_quarter, sinT_sum_above_zero]
  norm_num

theorem sinT_nonneg {k : Nat} (h : k < 1024) : 0 ≤ sinT k := by
  rcases le_or_gt k 512 with hk | hk
  · rw [sinT_of_first hk (by omega)]
    exact (sineQuarter_getD_range k).1
  · rw [sinT_of_second (j := 1024 - k) (by omega) (by omega)]
    exact (sineQuarter_getD_range _).1

theorem sinT_sum_abs : ((List.range 2048).map fun k : Nat => |sinT k|).sum = 42721450 := by
  have hhalf : ∑ k ∈ Finset.range 1024, |sinT k| = ∑ k ∈ Finset.range 1024, sinT k :=
    Finset.sum_congr rfl fun k hk => abs_of_nonneg (sinT_nonneg (Finset.mem_range.1 hk))
  calc ((List.range 2048).map fun k : Nat => |sinT k|).sum
      = ∑ k ∈ Finset.range 1024, |sinT k| + ∑ k ∈ Finset.range 1024, |sinT (1024 + k : Nat)| := by
        rw [list_sum_map_range, ← Finset.sum_range_add (fun k : Nat => |sinT k|)]
    _ = 2 * ∑ k ∈ Finset.range 1024, sinT k := by
        simp only [Nat.cast_add, Nat.cast_ofNat, add_comm (1024 : Int), sinT_add_half, abs_neg, hhalf, two_mul]
    _ = 42721450 := by rw [sinT_sum_half]; norm_num

/-- The weights of k and k + 1024, whose entries cancel, differ by 1024. -/
theorem sinT_sum_weighted : ((List.range 2048).map fun k : Nat => (k : Int) * sinT k).sum = -21873382400 := by
  calc ((List.range 2048).map fun k : Nat => (k : Int) * sinT k).sum
      = ∑ k ∈ Finset.range 1024, (k : Int) * sinT k +
          ∑ k ∈ Finset.range 1024, ((1024 + k : Nat) : Int) * sinT (1024 + k : Nat) := by
        rw [list_sum_map_range, ← Finset.sum_range_add (fun k : Nat => (k : Int) * sinT k)]
    _ = ∑ k ∈ Finset.range 1024, -1024 * sinT k := by
        rw [← Finset.sum_add_distrib]
        refine Finset.sum_congr rfl fun k _ => ?_
        rw [Nat.cast_add, Nat.cast_ofNat, add_comm (1024 : Int), sinT_add_half]
        ring
    _ = -21873382400 := by rw [← Finset.mul_sum, sinT_sum_half]; norm_num

/-- Settles O59: the symmetries from the quadrants, the checksums from the symmetries and the first quadrant's sum. -/
theorem tablesCheck : Obligations.TablesCheck := by
  obtain ⟨s0, s256, s512, s1024, s1536⟩ := sinT_values
  obtain ⟨w0, w1, w2, w3, w64, w128⟩ := window_values
  exact ⟨fun k _ => sinT_eq_of_add (by omega), fun k _ => (sinT_sub_period k).trans (sinT_neg k),
    s0, s256, s512, s1024, s1536, sinT_sum_quarter, sinT_sum_abs, sinT_sum_weighted,
    w0, w1, w2, w3, w64, w128, fun n _ hn => window_symm (by omega), fun n _ => window_overlap n⟩

end Sys2Proof.Machine

/-! AM for a constant input (44_demodulators R192, R206): its am_dc is a DC tracker fed with the pair's magnitude, and
00_scope R14's settling of that tracker (trackerSettles) makes the output 0. -/

namespace Sys2Proof.Machine

theorem demodAm_fst_amDc (d : Demod) (x : IQ) :
    (demodAm d x).1.amDc = (iirTrack d.amDc (cordicMag x.re x.im) amDcShift).1 := rfl

theorem demodAm_snd (d : Demod) (x : IQ) :
    (demodAm d x).2 =
      sat16 (cordicMag x.re x.im - (iirTrack d.amDc (cordicMag x.re x.im) amDcShift).2) := rfl

/-- Under a constant input pair, am_dc runs as a DC tracker of the pair's magnitude. -/
theorem demodAm_iterate_amDc (d : Demod) (x : IQ) (n : Nat) :
    ((fun e => (demodAm e x).1)^[n] d).amDc =
      (fun b => (iirTrack b (cordicMag x.re x.im) amDcShift).1)^[n] d.amDc :=
  Function.Semiconj.iterate_right (f := Demod.amDc) (fun e => demodAm_fst_amDc e x) n d

/-- Settles O49: once the tracker has settled, its estimate is the magnitude itself and the difference is 0. -/
theorem amSettles : Obligations.AmSettles := by
  intro d x
  obtain ⟨n₀, settled⟩ := trackerSettles (cordicMag x.re x.im) d.amDc amDcShift
  refine ⟨n₀, fun n hn => ?_⟩
  obtain ⟨estimate, -⟩ := settled n hn
  rw [demodAm_snd, demodAm_iterate_amDc, estimate, sub_self, sat16_zero]

end Sys2Proof.Machine

/-! A receiver that has seen only zero samples (45_conditioner R223). Zeros pass every unit of the datapath as zeros: the
front end, the CIC, the channel filter; the closed squelch silences the rest, whatever the demodulator gives. -/

namespace Sys2Proof.Machine

/-! ### Lists of zero pairs -/

/-- Every pair of a list is (0, 0). -/
abbrev AllZero (l : List IQ) : Prop := ∀ x ∈ l, x = IQ.zero

theorem nil_allZero : AllZero [] := List.forall_mem_nil _

theorem replicate_allZero (n : Nat) : AllZero (Vector.replicate n IQ.zero).toList := by
  intro x hx
  exact List.eq_of_mem_replicate (Vector.toList_replicate ▸ hx)

theorem AllZero.append {l m : List IQ} (hl : AllZero l) (hm : AllZero m) : AllZero (l ++ m) :=
  List.forall_mem_append.2 ⟨hl, hm⟩

theorem AllZero.take {l : List IQ} (h : AllZero l) (k : Nat) : AllZero (l.take k) :=
  fun x hx => h x (List.mem_of_mem_take hx)

theorem AllZero.drop {l : List IQ} (h : AllZero l) (k : Nat) : AllZero (l.drop k) :=
  fun x hx => h x (List.mem_of_mem_drop hx)

theorem AllZero.getD {l : List IQ} (h : AllZero l) (k : Nat) : l.getD k IQ.zero = IQ.zero := by
  by_cases hk : k < l.length
  · rw [List.getD_eq_getElem _ _ hk]
    exact h _ (List.getElem_mem hk)
  · rw [List.getD_eq_default _ _ (by omega)]

theorem AllZero.set {l : List IQ} (h : AllZero l) (k : Nat) : AllZero (l.set k IQ.zero) := by
  intro x hx
  rcases List.mem_or_eq_of_mem_set hx with hx | rfl
  · exact h x hx
  · rfl

theorem AllZero.toVec {l : List IQ} (h : AllZero l) (n : Nat) : toVec n IQ.zero l = Vector.replicate n IQ.zero := by
  refine Vector.ext fun k hk => ?_
  rw [toVec_get k hk, h.getD, Vector.getElem_replicate]

/-! ### The channel filter (42_channel_filter R146) -/

theorem applyWindow_allZero (n : Nat) {l : List IQ} (h : AllZero l) : AllZero (applyWindow n l) := by
  induction l generalizing n with
  | nil => exact nil_allZero
  | cons x xs ih =>
    obtain ⟨rfl, hxs⟩ := List.forall_mem_cons.1 h
    exact List.forall_mem_cons.2 ⟨by simp [IQ.zero], ih (n + 1) hxs⟩

theorem butterfly_zero (fwd : Bool) (idx : Nat) : butterfly fwd idx IQ.zero IQ.zero = (IQ.zero, IQ.zero) := by
  cases fwd <;> simp [butterfly, IQ.zero]

theorem butterflies_allZero (fwd : Bool) (st j : Nat) {as bs : List IQ} (ha : AllZero as) (hb : AllZero bs) :
    AllZero (butterflies fwd st j as bs).1 ∧ AllZero (butterflies fwd st j as bs).2 := by
  induction as generalizing j bs with
  | nil => exact ⟨nil_allZero, nil_allZero⟩
  | cons a as ih =>
    cases bs with
    | nil => exact ⟨nil_allZero, nil_allZero⟩
    | cons b bs =>
      obtain ⟨rfl, has⟩ := List.forall_mem_cons.1 ha
      obtain ⟨rfl, hbs⟩ := List.forall_mem_cons.1 hb
      obtain ⟨lower, upper⟩ := ih (j + 1) has hbs
      simp only [butterflies, butterfly_zero]
      exact ⟨List.forall_mem_cons.2 ⟨rfl, lower⟩, List.forall_mem_cons.2 ⟨rfl, upper⟩⟩

theorem fftStage_allZero (fwd : Bool) (half n : Nat) {l : List IQ} (h : AllZero l) : AllZero (fftStage fwd half n l) := by
  induction n generalizing l with
  | zero => exact nil_allZero
  | succ n ih =>
    obtain ⟨lower, upper⟩ := butterflies_allZero fwd (1024 / half) 0 (h.take half) ((h.drop half).take half)
    exact (lower.append upper).append (ih (h.drop _))

theorem fftStages_allZero (fwd : Bool) (bits : Nat) (ts : List Nat) {l : List IQ} (h : AllZero l) :
    AllZero (ts.foldl (fun l t => fftStage fwd (2 ^ t) (2 ^ (bits - 1 - t)) l) l) := by
  induction ts generalizing l with
  | nil => exact h
  | cons t ts ih => exact ih (fftStage_allZero fwd _ _ h)

theorem fftCore_allZero (fwd : Bool) (bits : Nat) {x : List IQ} (h : AllZero x) : AllZero (fftCore fwd bits x) :=
  fftStages_allZero fwd bits _ (List.forall_mem_map.2 fun _ _ => h.getD _)

theorem shiftedSpectrum_allZero (b : Int) {block : List IQ} (h : AllZero block) : AllZero (shiftedSpectrum b block) := by
  have spectrum : AllZero (fftForward (applyWindow 0 block)) := fftCore_allZero true 8 (applyWindow_allZero 0 h)
  simp only [shiftedSpectrum]
  split
  · exact List.forall_mem_map.2 fun _ _ => spectrum.getD _
  · exact spectrum

theorem Scan.take_allZero {sc : Scan} (h : AllZero sc.y) (idx : Nat) : AllZero (sc.take idx IQ.zero).y := by
  simp only [Scan.take]
  split
  · exact h.set idx
  · split
    · exact h.set idx
    · exact h.set idx

theorem maskBin_allZero (m : Mode) {x : List IQ} (hx : AllZero x) {sc : Scan} (h : AllZero sc.y) (k : Nat) :
    AllZero (maskBin m x sc k).y := by
  have positive : AllZero (if Mode.usbFlag m then sc.take k (x.getD k IQ.zero) else sc).y := by
    split
    · rw [hx.getD]
      exact Scan.take_allZero h k
    · exact h
  simp only [maskBin]
  split
  · rw [hx.getD (256 - k)]
    exact Scan.take_allZero positive _
  · exact positive

theorem foldl_maskBin_allZero (m : Mode) {x : List IQ} (hx : AllZero x) (ks : List Nat) {sc : Scan} (h : AllZero sc.y) :
    AllZero (ks.foldl (maskBin m x) sc).y := by
  induction ks generalizing sc with
  | nil => exact h
  | cons k ks ih => exact ih (maskBin_allZero m hx h k)

theorem maskAndPeak_allZero (m : Mode) (b : Band) {x : List IQ} (hx : AllZero x) : AllZero (maskAndPeak m b x).y :=
  foldl_maskBin_allZero m hx _ fun _ h => List.eq_of_mem_replicate h

theorem notchZero_allZero (f : Filter) {y : List IQ} (h : AllZero y) : AllZero (notchZero f y) := by
  simp only [notchZero]
  split
  · exact ((h.set _).set _).set _
  · exact h

theorem maskedSpectrum_allZero (act : Controls) (b : Band) (f : Filter) {x : List IQ} (hx : AllZero x) :
    AllZero (maskedSpectrum act b f x).2 := by
  simp only [maskedSpectrum]
  split
  · exact notchZero_allZero _ (maskAndPeak_allZero _ b hx)
  · exact maskAndPeak_allZero _ b hx

/-- The masked spectrum's filter state carries the half blocks along. -/
theorem maskedSpectrum_last (act : Controls) (b : Band) (f : Filter) (x : List IQ) :
    (maskedSpectrum act b f x).1.last = f.last := by
  simp only [maskedSpectrum]
  split <;> rfl

theorem overlapEmit_allZero {ola y : List IQ} (ho : AllZero ola) (hy : AllZero y) : AllZero (overlapEmit ola y) := by
  intro v hv
  obtain ⟨k, hk, rfl⟩ := List.mem_iff_getElem.1 hv
  simp only [overlapEmit, List.getElem_zipWith]
  rw [hy.take outE _ (List.getElem_mem _), ho _ (List.getElem_mem _)]
  rfl

/-- Zero half blocks give zero outputs and leave zero half blocks behind. -/
theorem chanFilt_silent (cfg : Config) (act : Controls) (bs : Int) (cap : Bool) {f : Filter}
    (last : f.last = Vector.replicate 128 IQ.zero) (ola : f.ola = Vector.replicate 64 IQ.zero) :
    (chanFilt cfg act bs cap f (Vector.replicate 128 IQ.zero)).1.last = Vector.replicate 128 IQ.zero ∧
    (chanFilt cfg act bs cap f (Vector.replicate 128 IQ.zero)).1.ola = Vector.replicate 64 IQ.zero ∧
    AllZero (chanFilt cfg act bs cap f (Vector.replicate 128 IQ.zero)).2 := by
  have spectrum : AllZero (shiftedSpectrum bs (f.last.toList ++ (Vector.replicate 128 IQ.zero).toList)) := by
    rw [last]
    exact shiftedSpectrum_allZero bs ((replicate_allZero 128).append (replicate_allZero 128))
  simp only [chanFilt, ola]
  generalize shiftedSpectrum bs _ = x at spectrum ⊢
  have output (g : Filter) : AllZero (fftInverse (maskedSpectrum act (cfg.band act.mode act.bw) g x).2) :=
    fftCore_allZero false 7 (maskedSpectrum_allZero act _ g spectrum)
  exact ⟨maskedSpectrum_last act _ _ x, ((output _).drop outE).toVec 64,
    overlapEmit_allZero (replicate_allZero 64) (output _)⟩

/-! ### Front end and CIC (41_frontend_iq R125, 40_cic R112) -/

theorem deinterleave_zero (cfg : Config) (swap : Bool) : deinterleave cfg swap 0 0 = IQ.zero := by
  have sample : adcSample cfg 0 = 0 := by simp [adcSample]
  simp only [deinterleave, sample]
  split <;> rfl

theorem dcRemove_zero (cfg : Config) : dcRemove cfg ⟨0, 0⟩ IQ.zero = (⟨0, 0⟩, IQ.zero) := by
  simp [dcRemove, iirTrack, IQ.zero]

/-- The corrector before any signal: empty sums and filters, the identity coefficients (10_state R62, 41_frontend_iq
R133). -/
structure IqCorr.Silent (u : IqCorr) : Prop where
  acc : u.acc1 = 0 ∧ u.acc2 = 0 ∧ u.acc3 = 0
  f : u.f1 = 0 ∧ u.f2 = 0 ∧ u.f3 = 0
  c : u.c1 = 0 ∧ u.c2 = 32768

/-- Without signal the estimate of the window's level is 0, and IQ_UPDATE falls back (41_frontend_iq R133). -/
theorem iqUpdate_silent {u : IqCorr} (h : u.Silent) : (iqUpdate u).Silent := by
  obtain ⟨⟨a1, a2, a3⟩, ⟨f1, f2, f3⟩, -⟩ := h
  have level : u.theta2 < 1 := by simp [IqCorr.theta2, iirTrack, a2, f2]
  obtain ⟨c1, c2, -⟩ := iqUpdate_of_fallback (.inl level)
  obtain ⟨g1, g2, g3, acc1, acc2, acc3, -⟩ := iqUpdate_filters u
  refine ⟨⟨acc1, acc2, acc3⟩, ⟨?_, ?_, ?_⟩, c1, c2⟩
  · simp [g1, f1, a1]
  · simp [g2, f2, a2]
  · simp [g3, f3, a3]

theorem iqEstimate_silent {u : IqCorr} (h : u.Silent) : (iqEstimate u IQ.zero).Silent := by
  obtain ⟨⟨a1, a2, a3⟩, f, c⟩ := h
  have summed (n : Nat) : IqCorr.Silent { u with
      acc1 := u.acc1 - sgn0 IQ.zero.re * IQ.zero.im
      acc2 := u.acc2 + absI IQ.zero.re
      acc3 := u.acc3 + absI IQ.zero.im
      n := n } := ⟨by simp [a1, a2, a3, IQ.zero, absI], f, c⟩
  simp only [iqEstimate]
  split
  · exact iqUpdate_silent (summed _)
  · exact summed _

theorem iqApply_zero (u : IqCorr) : iqApply u IQ.zero = IQ.zero := by
  simp [iqApply, IQ.zero]

theorem iqCorrect_silent (enable : Bool) {u : IqCorr} (h : u.Silent) :
    (iqCorrect enable u IQ.zero).1.Silent ∧ (iqCorrect enable u IQ.zero).2 = IQ.zero := by
  cases enable
  · exact ⟨h, rfl⟩
  · exact ⟨iqEstimate_silent h, iqApply_zero _⟩

theorem cicIntegrate_reset : cicIntegrate CicChannel.reset 0 = CicChannel.reset := by decide

theorem cicComb_reset : cicComb CicChannel.reset = (CicChannel.reset, 0) := by decide

theorem cicDecimate_silent (cfg : Config) {u : Cic} (hI : u.chI = CicChannel.reset) (hQ : u.chQ = CicChannel.reset) :
    (cicDecimate cfg u IQ.zero).1.chI = CicChannel.reset ∧ (cicDecimate cfg u IQ.zero).1.chQ = CicChannel.reset ∧
    ∀ x, (cicDecimate cfg u IQ.zero).2 = some x → x = IQ.zero := by
  have integrate : cicIntegrate CicChannel.reset IQ.zero.re = CicChannel.reset ∧
      cicIntegrate CicChannel.reset IQ.zero.im = CicChannel.reset := ⟨cicIntegrate_reset, cicIntegrate_reset⟩
  rcases cicDecimate_cases cfg u IQ.zero with ⟨-, waits⟩ | ⟨-, ready⟩
  · rw [waits, hI, hQ]
    exact ⟨integrate.1, integrate.2, nofun⟩
  · rw [ready, hI, hQ, integrate.1, integrate.2, cicComb_reset]
    refine ⟨rfl, rfl, fun x hx => ?_⟩
    rw [← Option.some.inj hx]
    simp [cicScale, IQ.zero]

/-! ### A SAMPLE step on zero words (48_commands R268) -/

theorem Regs.Silent.iq {r : Regs} (h : r.Silent) : r.iq.Silent := ⟨h.iqAcc, h.iqF, h.iqC⟩

theorem sampleInput_silent (cfg : Config) {r : Regs} (h : r.Silent) :
    (sampleInput cfg r 0 0).1.Silent ∧ ∀ x, (sampleInput cfg r 0 0).2 = some x → x = IQ.zero := by
  obtain ⟨corrected, through⟩ := iqCorrect_silent r.act.iqCorr h.iq
  have front : frontend cfg r.act r.dc r.iq 0 0 = (⟨0, 0⟩, (iqCorrect r.act.iqCorr r.iq IQ.zero).1, IQ.zero) := by
    simp only [frontend, h.dc, deinterleave_zero, dcRemove_zero, through]
  obtain ⟨chI, chQ, output⟩ := cicDecimate_silent cfg h.chI h.chQ
  simp only [sampleInput, front]
  exact ⟨{ h with
    dc := rfl
    chI := chI
    chQ := chQ
    iqAcc := corrected.acc
    iqF := corrected.f
    iqC := corrected.c }, output⟩

theorem fillInput_silent {r : Regs} (h : r.Silent) : (fillInput r IQ.zero).1.Silent := by
  have buf : r.fin.buf.setIfInBounds r.fin.cnt IQ.zero = Vector.replicate 128 IQ.zero := by
    rw [h.fin, Vector.setIfInBounds_replicate_self]
  simp only [fillInput]
  split
  · exact { h with fin := buf }
  · exact { h with fin := buf }

theorem sampleRegs_silent (cfg : Config) {r : Regs} (h : r.Silent) (j : Nat) : (sampleRegs cfg r j 0 0).Silent := by
  obtain ⟨input, output⟩ := sampleInput_silent cfg h
  simp only [sampleRegs]
  cases hx : (sampleInput cfg r 0 0).2 with
  | none => exact { input with }
  | some x =>
    obtain rfl := output x hx
    exact { fillInput_silent input with }

/-! ### A filter call (48_commands R268) -/

/-- The closed gate's sample is 0, whatever the demodulator gives (45_conditioner R218). -/
theorem audioSample_of_closed (cfg : Config) {r : Regs} (closed : r.cond.sqOpen = false) (x : IQ) :
    (audioSample cfg r x).2 = 0 :=
  gatedSamples_closed cfg [x] closed _ List.mem_cons_self

theorem volumeScale_zero (cfg : Config) (index : Nat) : volumeScale cfg index 0 = 0 := by
  simp [volumeScale]

theorem outputRegs_silent (cfg : Config) {r : Regs} (h : r.Silent) : (outputRegs cfg r IQ.zero).Silent := by
  have interpPrev : (outputRegs cfg r IQ.zero).stager.interpPrev = 0 := by
    simp only [outputRegs, audioSample_of_closed cfg h.sqOpen, volumeScale_zero]
  have magSum : (outputRegs cfg r IQ.zero).pub.magSum = 0 :=
    show r.pub.magSum + cordicMag 0 0 = 0 by rw [h.magSum, cordicMag_zero, add_zero]
  exact { h with
    sqOpen := (outputRegs_sqOpen cfg r IQ.zero).trans h.sqOpen
    interpPrev := interpPrev
    magSum := magSum }

theorem outputsRegs_silent (cfg : Config) {r : Regs} (h : r.Silent) {xs : List IQ} (hx : AllZero xs) :
    (outputsRegs cfg r xs).Silent := by
  induction xs generalizing r with
  | nil => exact h
  | cons x xs ih =>
    obtain ⟨rfl, hxs⟩ := List.forall_mem_cons.1 hx
    exact ih (outputRegs_silent cfg h) hxs

/-- A run between two zero samples is the midscale count throughout (46_output_stager R236, R238). -/
theorem runCounts_zero (cfg : Config) (pwm : Nat) : ∀ y ∈ runCounts cfg pwm 0 0, y = pwmCount pwm 0 := by
  refine List.forall_mem_map.2 fun y hy => ?_
  have between := interpolationRun_between cfg 0 0 y hy
  rw [show y = 0 by omega]

theorem outputsCounts_silent (cfg : Config) {r : Regs} (h : r.Silent) {xs : List IQ} (hx : AllZero xs) :
    ∀ y ∈ outputsCounts cfg r xs, y = pwmCount r.act.pwm 0 := by
  induction xs generalizing r with
  | nil => exact List.forall_mem_nil _
  | cons x xs ih =>
    obtain ⟨rfl, hxs⟩ := List.forall_mem_cons.1 hx
    refine List.forall_mem_append.2 ⟨?_, ih (outputRegs_silent cfg h) hxs⟩
    simp only [outputCounts, h.interpPrev, audioSample_of_closed cfg h.sqOpen, volumeScale_zero]
    exact runCounts_zero cfg r.act.pwm

/-- A filter call on zeros keeps the silence and sends nothing but midscale counts to AUDIO_OUT. -/
theorem filterCall_silent (cfg : Config) {r : Regs} (h : r.Silent) :
    (callRegs cfg r).Silent ∧ ∀ y ∈ callCounts cfg r, y = pwmCount r.act.pwm 0 := by
  obtain ⟨last, ola, zeros⟩ : (callFilter cfg r).1.last = Vector.replicate 128 IQ.zero ∧
      (callFilter cfg r).1.ola = Vector.replicate 64 IQ.zero ∧ AllZero (callFilter cfg r).2 := by
    rw [callFilter, h.fin]
    exact chanFilt_silent cfg r.act _ _ h.last h.ola
  have filtered : Regs.Silent { r with filt := (callFilter cfg r).1 } := { h with last := last, ola := ola }
  rw [callRegs, callCounts]
  exact ⟨outputsRegs_silent cfg filtered zeros, outputsCounts_silent cfg filtered zeros⟩

/-- 46_output_stager R238: the code of the audio value 0. -/
theorem pwmCount_zero (pwm : Nat) : BitVec.ofInt 24 (pwmCount pwm 0) = BitVec.ofNat 24 (32768 * pwm / 65536) := by
  have count : pwmCount pwm 0 = ((32768 * pwm / 65536 : Nat) : Int) := by
    simp only [pwmCount, clamp, asr_eq]
    omega
  rw [count, BitVec.ofInt_natCast]

/-- A run of one code leaves every entry as it was, or at that code. -/
theorem pushRun_read_of_const {m : Memory 24} (hm : m.wf) (k : Nat) {ps : List Int} {p : Int} (h : ∀ y ∈ ps, y = p)
    (a : Nat) : (pushRun m k ps).read a = m.read a ∨ (pushRun m k ps).read a = BitVec.ofInt 24 p := by
  by_cases inside : k ≤ a ∧ a < k + ps.length
  · obtain ⟨n, rfl⟩ := Nat.exists_eq_add_of_le inside.1
    have hn : n < ps.length := by omega
    rw [pushRun_read_inside hm hn, List.getD_eq_getElem _ _ hn, h _ (List.getElem_mem hn)]
    exact .inr rfl
  · exact .inl (pushRun_read_outside (by omega))

theorem sampleStep_silent {s t : State} {j : Nat} (go : sampleStep s j = .next t) (h : s.regs.Silent)
    (wf : s.audioOut.wf) (raw : ∀ k, s.raw.read k = 0) :
    t.regs.Silent ∧
    ∀ a, t.audioOut.read a = s.audioOut.read a ∨
      t.audioOut.read a = BitVec.ofNat 24 (32768 * s.regs.act.pwm / 65536) := by
  obtain ⟨-, h1⟩ := sampleStep_inv go
  rw [raw, raw] at h1
  have sampled := sampleRegs_silent s.cfg h j
  rcases h1 with ⟨-, ht⟩ | ⟨-, -, ht⟩
  · rw [ht]
    exact ⟨sampled, fun _ => .inl rfl⟩
  · obtain ⟨called, counts⟩ := filterCall_silent s.cfg sampled
    rw [sampleRegs_act] at counts
    rw [ht, filterCall_regs, filterCall_audioOut, ← pwmCount_zero]
    exact ⟨called, pushRun_read_of_const wf _ counts⟩

/-! ### Every step -/

/-- The squelch threshold is never negative, so that an estimate of 0 keeps the squelch closed (45_conditioner R217). -/
theorem beginRegs_silent (cfg : Config) {r : Regs} (h : r.Silent) : (beginRegs cfg r).Silent := by
  have closed : (beginRegs cfg r).cond.sqOpen = false := by
    simp only [beginRegs, h.sigEst, decide_eq_false_iff_not]
    omega
  exact { h with sqOpen := closed, magSum := rfl }

theorem endRegs_silent (cfg : Config) {r : Regs} (h : r.Silent) : (endRegs cfg r).Silent := by
  have sigEst : (endRegs cfg r).pub.sigEst = 0 := by
    simp only [endRegs, sigPublish, h.magSum, Int.zero_ediv]
  have sigDbm : (endRegs cfg r).pub.sigDbm = f32NegInf := by
    simp only [endRegs, sigPublish, h.magSum, Int.zero_ediv]
    rfl
  exact { h with sigEst := sigEst, sigDbm := sigDbm, pubSqOpen := h.sqOpen }

/-- Every command keeps a receiver silent whose RAW holds zeros. -/
theorem CommandEffect.silent {s t : State} {i : Instr} (h : CommandEffect s i t) (hs : s.regs.Silent)
    (wf : s.audioOut.wf) (raw : ∀ k, s.raw.read k = 0) : t.regs.Silent := by
  by_cases hi : i = .processBlock
  · subst hi
    rcases h.processBlock_cases with rfl | ⟨-, rfl⟩ | ⟨-, rfl⟩ | ⟨j, go⟩ | ⟨-, -, rfl⟩
    · exact hs
    · exact beginRegs_silent s.cfg { hs with }
    · exact beginRegs_silent s.cfg hs
    · exact (sampleStep_silent go hs wf raw).1
    · exact endRegs_silent s.cfg hs
  · rcases h.regs_of_ne_processBlock hi with ⟨-, reset⟩ | frame
    · rw [reset]
      exact Regs.reset_silent
    · rw [frame]
      exact { hs with }

/-- Settles O45: a step that runs no command leaves the datapath and AUDIO_OUT alone; a command keeps the silence, and
the only one that writes AUDIO_OUT, a SAMPLE step, writes midscale codes. -/
theorem silenceIsKept : Obligations.SilenceIsKept := by
  intro s t hs wf raw hstep
  obtain ⟨-, he⟩ := step_effect hstep
  cases he with
  | quiet => exact ⟨hs, fun _ => .inl rfl⟩
  | pass =>
    rw [State.tick_regs, State.tick_audioOut]
    exact ⟨hs, fun _ => .inl rfl⟩
  | write =>
    simp only [State.tick_regs, State.tick_audioOut]
    exact ⟨hs, fun _ => .inl trivial⟩
  | noCommand =>
    simp only [State.raiseErr_regs, State.raiseErr_audioOut, State.tick_regs, State.tick_audioOut]
    exact ⟨{ hs with }, fun _ => .inl trivial⟩
  | run p w i t turn fetched decoded ran =>
    have before := s.tick_storageFrame p
    rw [← s.tick_regs] at hs ⊢
    rw [← s.tick_audioOut] at wf ⊢
    have raw' : ∀ k, s.tick.raw.read k = 0 := by rwa [State.tick_raw]
    have effect := exec_effect ran
    refine ⟨effect.silent hs wf raw', ?_⟩
    rcases effect.storage_cases with frame | ⟨rfl, -, j, -, go⟩
    · rw [frame.audioOut]
      exact fun _ => .inl rfl
    · exact (sampleStep_silent go hs wf raw').2

end Sys2Proof.Machine

/-! The conditioner's squelch threshold (45_conditioner R216, R217) and AGC (R214). -/

namespace Sys2Proof.Machine

/-! ### The squelch threshold -/

theorem twentiethRoot_of_neg {d : Int} (h : d < 0) : twentiethRoot d = 0 := if_pos h

/-- 45_conditioner R216: the largest t with t^20 ≤ 10^d. -/
theorem twentiethRoot_bracket {d : Int} (h : 0 ≤ d) :
    twentiethRoot d ^ 20 ≤ 10 ^ d.toNat ∧ 10 ^ d.toNat < (twentiethRoot d + 1) ^ 20 := by
  rw [twentiethRoot, if_neg (Int.not_lt.2 h)]
  exact rootDigits_spec 20 _ _ 0 (Nat.zero_le _) (lt_twentieth_bound d.toNat)

/-- The decimal logarithm of an estimate compares with an integer as powers of ten do. -/
theorem lt_twenty_logb_iff {n : Nat} (hn : 1 ≤ n) (d : Nat) : (d : ℝ) < 20 * Real.logb 10 n ↔ 10 ^ d < n ^ 20 := by
  have pos : (0 : ℝ) < (n : ℝ) ^ 20 := by positivity
  have power : 20 * Real.logb 10 n = Real.logb 10 ((n : ℝ) ^ 20) := by rw [Real.logb_pow, Nat.cast_ofNat]
  rw [power, Real.lt_logb_iff_rpow_lt (by norm_num) pos, Real.rpow_natCast]
  exact_mod_cast Iff.rfl

/-- 45_conditioner R217: an integer amplitude exceeds the threshold exactly when its level exceeds d decibels. -/
theorem twentiethRoot_lt_iff {n : Nat} (hn : 1 ≤ n) (d : Int) : twentiethRoot d < n ↔ (d : ℝ) < 20 * Real.logb 10 n := by
  rcases Int.lt_or_le d 0 with neg | nonneg
  · have level : 0 ≤ Real.logb 10 n := Real.logb_nonneg (by norm_num) (by exact_mod_cast hn)
    have below : (d : ℝ) < 0 := by exact_mod_cast neg
    rw [twentiethRoot_of_neg neg]
    exact ⟨fun _ => by linarith, fun _ => hn⟩
  · obtain ⟨lower, upper⟩ := twentiethRoot_bracket nonneg
    have cast : (d : ℝ) = (d.toNat : ℝ) := by exact_mod_cast (Int.toNat_of_nonneg nonneg).symm
    rw [cast, lt_twenty_logb_iff hn]
    constructor
    · intro exceeds
      exact upper.trans_le (Nat.pow_le_pow_left exceeds 20)
    · intro exceeds
      exact lt_of_pow_lt_pow_left₀ 20 (Nat.zero_le n) (lower.trans_lt exceeds)

theorem sqDbm_getD {k : Nat} (h : k ≤ 12) : sqDbm.getD k 0 = squelchDbm k := by
  revert k
  decide

theorem sqThreshold_eq {k : Nat} (h : k ≤ 12) (g : Int) : sqThreshold k g = twentiethRoot (squelchDbm k + g) := by
  rw [sqThreshold, sqDbm_getD h]

/-- Settles O54: the threshold is the digit-by-digit root of 10^d, and comparing with it is comparing twentieth powers. -/
theorem squelchThresholdExact : Obligations.SquelchThresholdExact := by
  intro k g hk
  rw [sqThreshold_eq hk]
  refine ⟨twentiethRoot_of_neg, twentiethRoot_bracket, fun n hn => ?_⟩
  rw [twentiethRoot_lt_iff hn, Int.cast_add, lt_sub_iff_add_lt]

/-! ### AGC -/

theorem absI_eq_abs (v : Int) : absI v = |v| := Int.natCast_natAbs v

/-- An update's share of a gap is part of the gap (45_conditioner R214). -/
theorem ediv_two_pow_range {v : Int} (h : 0 ≤ v) (s : Nat) : 0 ≤ v / 2 ^ s ∧ v / 2 ^ s ≤ v := by
  rw [← asr_eq]
  exact ⟨asr_nonneg s h, asr_self_le s h⟩

theorem agcUpdate_attack {cfg : Config} {c : Cond} {x : Int} (p : AgcPreset) (h : c.agcHold < |x| * 2 ^ cfg.agcFrac) :
    agcUpdate cfg p c x =
      { c with agcHold := c.agcHold + (|x| * 2 ^ cfg.agcFrac - c.agcHold) / 2 ^ p.attack, agcHang := p.hang } := by
  simp only [agcUpdate, absI_eq_abs, shl_eq, asr_eq, if_pos h]

theorem agcUpdate_hang {cfg : Config} {c : Cond} {x : Int} (p : AgcPreset) (h : |x| * 2 ^ cfg.agcFrac ≤ c.agcHold)
    (hang : 0 < c.agcHang) : agcUpdate cfg p c x = { c with agcHang := c.agcHang - 1 } := by
  simp only [agcUpdate, absI_eq_abs, shl_eq, if_neg (Int.not_lt.2 h), if_pos hang]

theorem agcUpdate_decay {cfg : Config} {c : Cond} {x : Int} (p : AgcPreset) (h : |x| * 2 ^ cfg.agcFrac ≤ c.agcHold)
    (hang : c.agcHang = 0) : agcUpdate cfg p c x = { c with agcHold := c.agcHold - c.agcHold / 2 ^ p.decay } := by
  simp only [agcUpdate, absI_eq_abs, shl_eq, asr_eq, if_neg (Int.not_lt.2 h), hang, Nat.lt_irrefl, if_false]

/-- The AGC writes its own two registers only. -/
theorem agcUpdate_frame (cfg : Config) (p : AgcPreset) (c : Cond) (x : Int) :
    (agcUpdate cfg p c x).deX = c.deX ∧ (agcUpdate cfg p c x).deY = c.deY ∧
      (agcUpdate cfg p c x).sqOpen = c.sqOpen := by
  simp only [agcUpdate]
  split
  · exact ⟨rfl, rfl, rfl⟩
  · split
    · exact ⟨rfl, rfl, rfl⟩
    · exact ⟨rfl, rfl, rfl⟩

theorem agcGain_eq (cfg : Config) (hold : Int) :
    agcGain cfg hold = max 1 ((cfg.agcSetpoint : Int) / max (hold / 2 ^ cfg.agcFrac) cfg.agcEps) := by
  rw [agcGain, asr_eq]

theorem softClip_of_above {setpoint y : Int} (h : setpoint < y) : softClip setpoint y = setpoint + (y - setpoint) / 2 := by
  rw [softClip, if_pos h, asr_eq, pow_one]

theorem softClip_of_below {setpoint y : Int} (h0 : 0 ≤ setpoint) (h : y < -setpoint) :
    softClip setpoint y = -setpoint - (-setpoint - y) / 2 := by
  rw [softClip, if_neg (by omega), if_pos h, asr_eq, pow_one]

theorem softClip_of_within {setpoint y : Int} (h : |y| ≤ setpoint) : softClip setpoint y = y := by
  obtain ⟨lower, upper⟩ := abs_le.1 h
  rw [softClip, if_neg (by omega), if_neg (by omega)]

theorem sat16_eq_max_min (v : Int) : sat16 v = max (-32768) (min 32767 v) := clamp_eq_max_min v (by decide)

/-- The AGC's output from the product with the gain (45_conditioner R214). -/
theorem agc_snd (cfg : Config) (p : AgcPreset) (c : Cond) (x : Int) :
    (agc cfg p c x).2 =
      max (-32768) (min 32767 (softClip cfg.agcSetpoint (x * agcGain cfg (agc cfg p c x).1.agcHold))) :=
  sat16_eq_max_min _

/-- Settles O60: the phases by the update's three equations, the output by the soft clip's. -/
theorem agcPhases : Obligations.AgcPhases := by
  intro cfg p c x hold m c'
  obtain ⟨deX, deY, sqOpen⟩ := agcUpdate_frame cfg p c x
  have output := agc_snd cfg p c x
  refine ⟨fun attack => ?_, fun below hang => ?_, fun below hang => ?_, deX, deY, sqOpen,
    ⟨agcGain_eq cfg c'.agcHold, le_max_left _ _, fun within => ?_, fun above => ?_, fun below => ?_⟩, sat16_int16 _⟩
  · obtain ⟨nonneg, le⟩ := ediv_two_pow_range (Int.sub_nonneg_of_le attack.le) p.attack
    have update : c' = _ := agcUpdate_attack p attack
    rw [update]
    exact ⟨Int.le_add_of_nonneg_right nonneg, Int.add_le_of_le_sub_left le, rfl, rfl⟩
  · have update : c' = _ := agcUpdate_hang p below hang
    rw [update]
    exact ⟨rfl, rfl⟩
  · obtain ⟨-, le⟩ := ediv_two_pow_range hold p.decay
    have update : c' = _ := agcUpdate_decay p below hang
    rw [update]
    exact ⟨Int.sub_nonneg_of_le le, rfl, hang⟩
  · rw [output, agcGain_eq, softClip_of_within within]
  · rw [output, agcGain_eq, softClip_of_above above]
  · rw [output, agcGain_eq, softClip_of_below (Int.natCast_nonneg _) below]

end Sys2Proof.Machine

/-! sig_dbm (45_conditioner R221). First the decimal logarithm behind it: the digit loop keeps an interval around
x^(2^j) / 10^r, so that every digit it gives is a digit of log10 x. -/

namespace Sys2Proof.Machine

/-! ### The integer part of the logarithm, and the powers of ten -/

theorem log10Floor_eq {fuel x : Nat} (h : x < 2 ^ fuel) : log10Floor fuel x = Nat.log 10 x := by
  induction fuel generalizing x with
  | zero => rw [log10Floor, Nat.lt_one_iff.1 h, Nat.log_zero_right]
  | succ fuel ih =>
    rw [log10Floor]
    split
    · rw [Nat.log_of_lt ‹_›]
    · rw [Nat.pow_succ] at h
      rw [Nat.log_of_one_lt_of_le (n := x) (by decide) (by omega), ih (by omega)]

theorem log10Floor_log2 (x : Nat) : log10Floor (Nat.log2 x + 1) x = Nat.log 10 x := log10Floor_eq Nat.lt_log2_self

theorem isPowerOfTen_iff (x : Nat) : isPowerOfTen x = true ↔ ∃ c, x = 10 ^ c := by
  rw [isPowerOfTen, log10Floor_log2, decide_eq_true_iff]
  constructor
  · exact fun h => ⟨_, h.symm⟩
  · rintro ⟨c, rfl⟩
    rw [Nat.log_pow (by decide)]

/-- Only powers of ten have a power that is one: the exponent of 2 shows the root. -/
theorem exists_eq_ten_pow_of_pow_eq {n a b : Nat} (ha : a ≠ 0) (h : n ^ a = 10 ^ b) : ∃ c, n = 10 ^ c := by
  have exponent : a * n.factorization 2 = b * (10 : Nat).factorization 2 := by
    simpa using congrArg (fun x : Nat => x.factorization 2) h
  have ten : (10 : Nat).factorization 2 = 1 := by
    rw [show 10 = 2 * 5 from rfl, Nat.factorization_mul (by decide) (by decide)]
    simp [Nat.Prime.factorization Nat.prime_two, Nat.factorization_eq_zero_of_not_dvd]
  rw [ten, mul_one] at exponent
  rw [← exponent, mul_comm, Nat.pow_mul] at h
  exact ⟨_, Nat.pow_left_injective ha h⟩

/-! ### One digit -/

/-- The interval [lo, hi) around P·y / t, squared. -/
theorem sq_enclosed {P lo hi y t : Nat} (hP : 0 < P) (lower : lo * t ≤ P * y) (upper : P * y < hi * t) :
    lo * lo / P * t ^ 2 ≤ P * y ^ 2 ∧ P * y ^ 2 < (hi * hi / P + 1) * t ^ 2 := by
  constructor
  · refine Nat.le_of_mul_le_mul_left ?_ hP
    calc P * (lo * lo / P * t ^ 2) = lo * lo / P * P * t ^ 2 := by ring
      _ ≤ lo * lo * t ^ 2 := Nat.mul_le_mul_right _ (Nat.div_mul_le_self _ _)
      _ = (lo * t) ^ 2 := by ring
      _ ≤ (P * y) ^ 2 := Nat.pow_le_pow_left lower 2
      _ = P * (P * y ^ 2) := by ring
  · refine Nat.lt_of_mul_lt_mul_left (a := P) ?_
    calc P * (P * y ^ 2) = (P * y) ^ 2 := by ring
      _ < (hi * t) ^ 2 := Nat.pow_lt_pow_left upper (by decide)
      _ = hi * hi * t ^ 2 := by ring
      _ ≤ P * (hi * hi / P + 1) * t ^ 2 := Nat.mul_le_mul_right _ (Nat.lt_mul_div_succ _ hP).le
      _ = P * ((hi * hi / P + 1) * t ^ 2) := by ring

/-- The interval divided by ten. -/
theorem tenth_enclosed {lo hi y t : Nat} (lower : lo * t ≤ y) (upper : y < hi * t) :
    lo / 10 * (t * 10) ≤ y ∧ y < (hi / 10 + 1) * (t * 10) := by
  constructor
  · calc lo / 10 * (t * 10) = lo / 10 * 10 * t := by ring
      _ ≤ lo * t := Nat.mul_le_mul_right _ (Nat.div_mul_le_self _ _)
      _ ≤ y := lower
  · calc y < hi * t := upper
      _ ≤ 10 * (hi / 10 + 1) * t := Nat.mul_le_mul_right _ (Nat.lt_mul_div_succ _ (by decide)).le
      _ = (hi / 10 + 1) * (t * 10) := by ring

/-- lo and hi enclose 2^logPrec · x^(2^j) / 10^r. -/
structure LogEnclosed (x j r lo hi : Nat) : Prop where
  lower : lo * 10 ^ r ≤ 2 ^ logPrec * x ^ 2 ^ j
  upper : 2 ^ logPrec * x ^ 2 ^ j < hi * 10 ^ r

/-- r is floor(2^j · log10 x). -/
def LogDigits (x j r : Nat) : Prop := 10 ^ r ≤ x ^ 2 ^ j ∧ x ^ 2 ^ j < 10 ^ (r + 1)

theorem LogEnclosed.square {x j r lo hi : Nat} (h : LogEnclosed x j r lo hi) :
    LogEnclosed x (j + 1) (2 * r) (lo * lo / 2 ^ logPrec) (hi * hi / 2 ^ logPrec + 1) := by
  obtain ⟨lower, upper⟩ := sq_enclosed (Nat.two_pow_pos logPrec) h.lower h.upper
  rw [← Nat.pow_mul, ← Nat.pow_mul, ← Nat.pow_succ, mul_comm r 2] at lower upper
  exact ⟨lower, upper⟩

theorem LogEnclosed.tenth {x j r lo hi : Nat} (h : LogEnclosed x j r lo hi) :
    LogEnclosed x j (r + 1) (lo / 10) (hi / 10 + 1) := by
  obtain ⟨lower, upper⟩ := tenth_enclosed h.lower h.upper
  rw [← Nat.pow_succ] at lower upper
  exact ⟨lower, upper⟩

/-- The digit is right, whether the interval decides it or the exact comparison. -/
theorem logDigit_iff {x j r lo hi : Nat} (h : LogEnclosed x (j + 1) (2 * r) lo hi) :
    logDigit x j r lo hi = true ↔ 10 ^ (2 * r + 1) ≤ x ^ 2 ^ (j + 1) := by
  obtain ⟨lower, upper⟩ := h
  have hP : 0 < 2 ^ logPrec := Nat.two_pow_pos logPrec
  rw [logDigit, Nat.pow_succ 10]
  generalize 2 ^ logPrec = P at *
  generalize 10 ^ (2 * r) = t at *
  split
  · rename_i above
    refine iff_of_true rfl (Nat.le_of_mul_le_mul_left ?_ hP)
    calc P * (t * 10) = 10 * P * t := by ring
      _ ≤ lo * t := Nat.mul_le_mul_right t above
      _ ≤ _ := lower
  · split
    · rename_i below
      refine iff_of_false (by decide) (Nat.not_le.2 (Nat.lt_of_mul_lt_mul_left (a := P) ?_))
      calc P * x ^ 2 ^ (j + 1) < hi * t := upper
        _ ≤ 10 * P * t := Nat.mul_le_mul_right t below
        _ = P * (t * 10) := by ring
    · exact decide_eq_true_iff

/-- The next value of r is 2r or 2r + 1, by the digit. -/
theorem LogDigits.next {x j r : Nat} (h : LogDigits x j r) :
    (10 ^ (2 * r + 1) ≤ x ^ 2 ^ (j + 1) → LogDigits x (j + 1) (2 * r + 1)) ∧
    (¬ 10 ^ (2 * r + 1) ≤ x ^ 2 ^ (j + 1) → LogDigits x (j + 1) (2 * r)) := by
  obtain ⟨le, lt⟩ := h
  have square : x ^ 2 ^ (j + 1) = (x ^ 2 ^ j) ^ 2 := by rw [← Nat.pow_mul, ← Nat.pow_succ]
  constructor
  · intro digit
    refine ⟨digit, ?_⟩
    rw [square, show 2 * r + 1 + 1 = (r + 1) * 2 by ring, Nat.pow_mul]
    exact Nat.pow_lt_pow_left lt (by decide)
  · intro digit
    refine ⟨?_, Nat.lt_of_not_le digit⟩
    rw [square, mul_comm, Nat.pow_mul]
    exact Nat.pow_le_pow_left le 2

theorem logLoop_digits {x n j r lo hi : Nat} (digits : LogDigits x j r) (enclosed : LogEnclosed x j r lo hi) :
    LogDigits x (j + n) (logLoop x n j r lo hi) := by
  induction n generalizing j r lo hi with
  | zero => exact digits
  | succ n ih =>
    have squared := enclosed.square
    have digit := logDigit_iff squared
    obtain ⟨one, zero⟩ := digits.next
    rw [logLoop, show j + (n + 1) = j + 1 + n by ring]
    split
    · exact ih (one (digit.1 ‹_›)) squared.tenth
    · exact ih (zero (mt digit.2 ‹_›)) squared

/-- log10Scaled x bits is floor(2^bits · log10 x). -/
theorem log10Scaled_digits {x : Nat} (hx : 1 ≤ x) (bits : Nat) : LogDigits x bits (log10Scaled x bits) := by
  have start : LogDigits x 0 (Nat.log 10 x) := by
    rw [LogDigits, Nat.pow_zero, Nat.pow_one]
    exact ⟨Nat.pow_log_le_self 10 (by omega), Nat.lt_pow_succ_log_self (by decide) x⟩
  have enclosed : LogEnclosed x 0 (Nat.log 10 x) (x * 2 ^ logPrec / 10 ^ Nat.log 10 x)
      (x * 2 ^ logPrec / 10 ^ Nat.log 10 x + 1) := by
    constructor <;> rw [Nat.pow_zero, Nat.pow_one, mul_comm (2 ^ logPrec)]
    · exact Nat.div_mul_le_self _ _
    · rw [mul_comm _ (10 ^ _)]
      exact Nat.lt_mul_div_succ _ (Nat.pow_pos (by decide))
  have digits := logLoop_digits (n := bits) start enclosed
  rw [Nat.zero_add] at digits
  rwa [log10Scaled, log10Floor_log2]

/-! ### The logarithm over the reals -/

theorem two_pow_mul_logb (x bits : Nat) : (2 : ℝ) ^ bits * Real.logb 10 x = Real.logb 10 ((x ^ 2 ^ bits : Nat) : ℝ) := by
  push_cast
  rw [Real.logb_pow]
  push_cast
  rfl

theorem log10Scaled_bracket {x : Nat} (hx : 1 ≤ x) (bits : Nat) :
    (log10Scaled x bits : ℝ) ≤ 2 ^ bits * Real.logb 10 x ∧ 2 ^ bits * Real.logb 10 x < log10Scaled x bits + 1 := by
  obtain ⟨le, lt⟩ := log10Scaled_digits hx bits
  have pos : (0 : ℝ) < ((x ^ 2 ^ bits : Nat) : ℝ) := by exact_mod_cast Nat.pow_pos hx
  rw [two_pow_mul_logb]
  constructor
  · rw [Real.le_logb_iff_rpow_le (by norm_num) pos, Real.rpow_natCast]
    exact_mod_cast le
  · rw [← Nat.cast_succ, Real.logb_lt_iff_lt_rpow (by norm_num) pos, Real.rpow_natCast]
    exact_mod_cast lt

theorem logb_ten_pow (c : Nat) : Real.logb 10 ((10 ^ c : Nat) : ℝ) = c := by
  push_cast
  rw [Real.logb_pow, Real.logb_self_eq_one (by norm_num), mul_one]

/-- The value is cut off nowhere exactly for the powers of a power of ten. -/
theorem log10Scaled_exact_iff {n a : Nat} (hn : 1 ≤ n) (ha : a ≠ 0) (bits : Nat) :
    (log10Scaled (n ^ a) bits : ℝ) = 2 ^ bits * Real.logb 10 ((n ^ a : Nat) : ℝ) ↔ ∃ c, n = 10 ^ c := by
  have hx : 1 ≤ n ^ a := Nat.pow_pos hn
  constructor
  · intro whole
    rw [two_pow_mul_logb, ← logb_ten_pow] at whole
    have pos (y : Nat) (hy : 0 < y) : (y : ℝ) ∈ Set.Ioi 0 := Set.mem_Ioi.2 (Nat.cast_pos.2 hy)
    have powers := Real.logb_injOn_pos (by norm_num) (pos _ (Nat.pow_pos (by decide))) (pos _ (Nat.pow_pos hx)) whole
    rw [Nat.cast_inj, ← Nat.pow_mul] at powers
    exact exists_eq_ten_pow_of_pow_eq (by positivity) powers.symm
  · rintro ⟨c, rfl⟩
    obtain ⟨le, lt⟩ := log10Scaled_bracket hx bits
    have whole : (2 : ℝ) ^ bits * Real.logb 10 (((10 ^ c) ^ a : Nat) : ℝ) = ((2 ^ bits * (c * a) : Nat) : ℝ) := by
      rw [← Nat.pow_mul, logb_ten_pow]
      push_cast
      rfl
    rw [whole] at le lt ⊢
    norm_cast at le lt ⊢
    omega

end Sys2Proof.Machine

/-! Rounding to binary32 (00_scope R18). The finite values are integers below 2^24 times powers of two; among them only
the multiples of the result's last place can be as near as the nearest such multiple, to which `roundEven` rounds. -/

namespace Sys2Proof.Machine

/-! ### Rounding to a multiple of 2^sh -/

/-- m is y with its fraction cut off, and `sticky` says whether there was one. -/
structure Truncates (m : Nat) (sticky : Bool) (y : ℝ) : Prop where
  le : (m : ℝ) ≤ y
  lt : y < m + 1
  sticky_iff : sticky = true ↔ (m : ℝ) < y

/-- Rounding goes up past the half of the place H, and at it if the number is more than m or the result would be odd. -/
theorem roundEven_cases {m sh H : Nat} (hH : 2 ^ sh = 2 * H) (sticky : Bool) :
    (roundEven m sh sticky = m / 2 ^ sh + 1 ∧
      (H < m % 2 ^ sh ∨ m % 2 ^ sh = H ∧ (sticky = true ∨ m / 2 ^ sh % 2 = 1))) ∨
    (roundEven m sh sticky = m / 2 ^ sh ∧
      (m % 2 ^ sh < H ∨ m % 2 ^ sh = H ∧ ¬ sticky = true ∧ m / 2 ^ sh % 2 = 0)) := by
  rw [roundEven, hH]
  generalize m / (2 * H) = q
  generalize m % (2 * H) = r
  split
  · exact .inl ⟨rfl, by grind⟩
  · exact .inr ⟨rfl, by grind⟩

/-- The rounded multiple is off by half a place at most, and even where it is off by that. -/
theorem roundEven_error {m sh : Nat} {sticky : Bool} {y : ℝ} (h : Truncates m sticky y) (hsh : 1 ≤ sh) :
    2 * |(roundEven m sh sticky : ℝ) * 2 ^ sh - y| ≤ 2 ^ sh ∧
    (2 * |(roundEven m sh sticky : ℝ) * 2 ^ sh - y| = 2 ^ sh → roundEven m sh sticky % 2 = 0) := by
  obtain ⟨H, hH⟩ : ∃ H, 2 ^ sh = 2 * H :=
    ⟨2 ^ (sh - 1), by rw [← Nat.pow_succ', Nat.succ_eq_add_one, Nat.sub_add_cancel hsh]⟩
  have hM : (2 : ℝ) ^ sh = 2 * H := by exact_mod_cast hH
  have parts : (m : ℝ) = (m / 2 ^ sh : Nat) * (2 * H) + (m % 2 ^ sh : Nat) := by
    rw [← hM]
    exact_mod_cast (Nat.div_add_mod' m (2 ^ sh)).symm
  have rest : m % 2 ^ sh < 2 * H := hH ▸ Nat.mod_lt m (Nat.two_pow_pos sh)
  have rounded := roundEven_cases (m := m) hH sticky
  obtain ⟨le, lt, sticky_iff⟩ := h
  rw [parts] at le lt sticky_iff
  rw [hM]
  generalize m / 2 ^ sh = q at *
  generalize m % 2 ^ sh = r at *
  rcases rounded with ⟨up, past⟩ | ⟨down, short⟩
  · have half : (H : ℝ) ≤ r := by exact_mod_cast (show H ≤ r by omega)
    have place : (r : ℝ) + 1 ≤ 2 * H := by exact_mod_cast rest
    have size : |((q + 1 : Nat) : ℝ) * (2 * H) - y| = (q + 1) * (2 * H) - y := by
      push_cast
      exact abs_of_nonneg (by linarith)
    rw [up, size]
    refine ⟨by linarith, fun tie => ?_⟩
    have at_half : r = H := le_antisymm (by exact_mod_cast (show (r : ℝ) ≤ H by linarith)) (by omega)
    have whole : ¬ sticky = true := fun s => by linarith [sticky_iff.1 s]
    rcases past with past | ⟨-, s | odd⟩
    · omega
    · exact absurd s whole
    · omega
  · have size : |(q : ℝ) * (2 * H) - y| = y - q * (2 * H) := by
      rw [abs_sub_comm]
      exact abs_of_nonneg (by linarith [(Nat.cast_nonneg r : (0 : ℝ) ≤ r)])
    rw [down, size]
    rcases short with short | ⟨rfl, whole, even⟩
    · have short' : (r : ℝ) + 1 ≤ H := by exact_mod_cast short
      exact ⟨by linarith, fun tie => by linarith⟩
    · have at_half : y ≤ q * (2 * r) + r := not_lt.1 (mt sticky_iff.2 whole)
      exact ⟨by linarith, fun _ => even⟩

/-- The value a, q in its last place, is no worse a rounding of y than x: at least as near; and if x is another value and
as near, q is even (00_scope R18). -/
def Beats (q : Nat) (a y x : ℝ) : Prop := |a - y| ≤ |x - y| ∧ (|x - y| = |a - y| → x ≠ a → q % 2 = 0)

/-- Among the multiples of M, one that is off by half of M at most is a nearest. -/
theorem beats_multiple {q : Nat} {M y : ℝ} (hM : 0 < M) (error : 2 * |q * M - y| ≤ M)
    (tie : 2 * |q * M - y| = M → q % 2 = 0) (z : Int) : Beats q (q * M) y (z * M) := by
  rcases eq_or_ne z q with rfl | ne
  · exact ⟨le_of_eq (by push_cast; rfl), fun _ same => absurd (by push_cast; rfl) same⟩
  · have apart : M ≤ |z * M - q * M| := by
      have one : (1 : ℝ) ≤ |(z : ℝ) - q| := by
        exact_mod_cast Int.one_le_abs (sub_ne_zero.2 ne)
      rw [← sub_mul, abs_mul, abs_of_pos hM]
      exact le_mul_of_one_le_left hM.le one
    have triangle : |z * M - q * M| ≤ |z * M - y| + |q * M - y| := by
      rw [abs_sub_comm (q * M) y]
      exact abs_sub_le _ _ _
    exact ⟨by linarith, fun same _ => tie (by linarith)⟩

/-! ### The finite values -/

/-- Reals of the form z·2^s / 2^149 with |z| < 2^24: all finite binary32 values are. -/
def F32Grid (x : ℝ) : Prop := ∃ (z : Int) (s : Nat), |z| < 16777216 ∧ x = z * 2 ^ s / 2 ^ 149

theorem F32Grid.neg {x : ℝ} (h : F32Grid x) : F32Grid (-x) := by
  obtain ⟨z, s, hz, rfl⟩ := h
  exact ⟨-z, s, by rwa [abs_neg], by push_cast; ring⟩

/-- A pattern of exponent field e (one more if q has its 24th bit, two more if its 25th) and last place 2^e / 2^149. -/
theorem f32Value_of_parts {w : Word} {e q : Nat} (hw : w.toNat = e * 8388608 + q) (hq : q ≤ 16777216)
    (norm : e = 0 ∨ 8388608 ≤ q) (finite : e * 8388608 + q < 2139095040) : F32Finite w ∧ f32Value w = q * 2 ^ e / 2 ^ 149 := by
  have sign : w.toNat < 2147483648 := by omega
  rcases Nat.lt_or_ge q 8388608 with small | large
  · obtain rfl : e = 0 := by omega
    have field : w.toNat / 8388608 % 256 = 0 := by omega
    have fraction : w.toNat % 8388608 = q := by omega
    simp [F32Finite, f32Value, sign, field, fraction]
  rcases Nat.lt_or_ge q 16777216 with mid | top
  · have field : w.toNat / 8388608 % 256 = e + 1 := by omega
    have fraction : 8388608 + w.toNat % 8388608 = q := by omega
    refine ⟨by rw [F32Finite, field]; omega, ?_⟩
    simp only [f32Value, if_pos sign, field, fraction, Nat.succ_ne_zero, if_false]
    ring
  · obtain rfl : q = 16777216 := by omega
    have field : w.toNat / 8388608 % 256 = e + 2 := by omega
    have fraction : 8388608 + w.toNat % 8388608 = 8388608 := by omega
    refine ⟨by rw [F32Finite, field]; omega, ?_⟩
    simp only [f32Value, if_pos sign, field, fraction, Nat.succ_ne_zero, if_false]
    push_cast
    ring

/-- The sign bit negates the value. -/
theorem f32Value_neg {w v : Word} (h : w.toNat = 2147483648 + v.toNat) :
    f32Value w = -f32Value v ∧ (F32Finite w ↔ F32Finite v) := by
  have bound := w.isLt
  have field : w.toNat / 8388608 % 256 = v.toNat / 8388608 % 256 := by omega
  have fraction : w.toNat % 8388608 = v.toNat % 8388608 := by omega
  have negative : ¬ w.toNat < 2147483648 := by omega
  have positive : v.toNat < 2147483648 := by omega
  simp only [f32Value, F32Finite, field, fraction, if_neg negative, if_pos positive, true_and]

theorem f32Value_grid_of_positive {v : Word} (finite : F32Finite v) (h : v.toNat < 2147483648) :
    F32Grid (f32Value v : ℝ) := by
  have below : v.toNat < 2139095040 := by
    unfold F32Finite at finite
    omega
  obtain ⟨e, q, parts, hq, norm⟩ : ∃ e q, v.toNat = e * 8388608 + q ∧ q < 16777216 ∧ (e = 0 ∨ 8388608 ≤ q) := by
    rcases Nat.eq_zero_or_pos (v.toNat / 8388608) with zero | pos
    · exact ⟨0, v.toNat, by omega, by omega, .inl rfl⟩
    · exact ⟨v.toNat / 8388608 - 1, 8388608 + v.toNat % 8388608, by omega, by omega, .inr (by omega)⟩
  obtain ⟨-, value⟩ := f32Value_of_parts parts hq.le norm (parts ▸ below)
  refine ⟨q, e, by rw [Nat.abs_cast]; exact_mod_cast hq, ?_⟩
  rw [value]
  push_cast
  rfl

theorem f32Value_grid {v : Word} (finite : F32Finite v) : F32Grid (f32Value v : ℝ) := by
  rcases Nat.lt_or_ge v.toNat 2147483648 with positive | negative
  · exact f32Value_grid_of_positive finite positive
  · have bound := v.isLt
    have sign : v.toNat = 2147483648 + (BitVec.ofNat 32 (v.toNat - 2147483648)).toNat := by
      rw [BitVec.toNat_ofNat, Nat.mod_eq_of_lt (by omega)]
      omega
    obtain ⟨value, same⟩ := f32Value_neg sign
    rw [value, Rat.cast_neg]
    refine (f32Value_grid_of_positive (same.1 finite) ?_).neg
    omega

/-! ### The magnitude bits -/

/-- The last place of the result is that of the smallest values, or the number has 24 bits or more from it on. -/
theorem f32Shift_spec (m k : Nat) :
    k - 149 ≤ f32Shift m k ∧ (f32Shift m k = k - 149 ∨ 8388608 * 2 ^ f32Shift m k ≤ m) ∧
    m < 16777216 * 2 ^ f32Shift m k := by
  refine ⟨le_max_right _ _, ?_, ?_⟩
  · rcases Nat.lt_or_ge (k - 149) (Nat.log2 m - 23) with large | small
    · right
      rw [f32Shift, max_eq_left large.le, show 8388608 = 2 ^ 23 from rfl, ← Nat.pow_add,
        show 23 + (Nat.log2 m - 23) = Nat.log2 m by omega]
      refine Nat.log2_self_le ?_
      rintro rfl
      simp at large
    · exact .inl (max_eq_right small)
  · rw [f32Shift, show 16777216 = 2 ^ 24 from rfl, ← Nat.pow_add]
    exact Nat.lt_log2_self.trans_le (Nat.pow_le_pow_right (by decide) (by omega))

theorem roundEven_zero (sh : Nat) (sticky : Bool) : roundEven 0 sh sticky = 0 := by
  have place := Nat.two_pow_pos sh
  simp [roundEven, place.ne]

theorem f32Magnitude_eq {k : Nat} (hk : 150 ≤ k) (m : Nat) (sticky : Bool) :
    f32Magnitude m k sticky =
      min ((f32Shift m k + 149 - k) * 8388608 + roundEven m (f32Shift m k) sticky) 0x7F800000 := by
  rw [f32Magnitude]
  split
  · rename_i zero
    subst zero
    have shift : f32Shift 0 k = k - 149 := by simp [f32Shift]
    rw [shift, roundEven_zero, Nat.sub_add_cancel (by omega), Nat.sub_self]
    rfl
  · rfl

theorem Beats.of_mul {q : Nat} {a y x c : ℝ} (hc : 0 < c) (h : Beats q (a * c) (y * c) (x * c)) : Beats q a y x := by
  obtain ⟨le, tie⟩ := h
  simp only [← sub_mul, abs_mul, abs_of_pos hc] at le tie
  exact ⟨le_of_mul_le_mul_right le hc, fun same ne => tie (by rw [same]) (fun e => ne (mul_right_cancel₀ hc.ne' e))⟩

/-- The value the magnitude bits stand for: the rounded multiple of the last place. -/
noncomputable def roundedValue (m k : Nat) (sticky : Bool) : ℝ :=
  (roundEven m (f32Shift m k) sticky : ℝ) * 2 ^ (f32Shift m k + 149 - k) / 2 ^ 149

/-- A value in units of 2^-k. -/
theorem grid_mul_two_pow {k i j : Nat} (a : ℝ) (h : i + k = j + 149) : a * 2 ^ i / 2 ^ 149 * 2 ^ k = a * 2 ^ j := by
  have powers : (2 : ℝ) ^ i * 2 ^ k = 2 ^ j * 2 ^ 149 := by rw [← pow_add, ← pow_add, h]
  rw [div_mul_eq_mul_div, mul_assoc, powers, ← mul_assoc, mul_div_cancel_right₀ _ (by positivity)]

/-- A candidate with a finer last place lies below 2^23 coarse ones; where the number lies above, that multiple is
nearer. -/
theorem beats_of_finer {q s sh : Nat} {z : Int} {y : ℝ} (finer : s < sh) (hz : |z| < 16777216)
    (above : 8388608 * 2 ^ sh ≤ y) (multiple : Beats q (q * 2 ^ sh) y (8388608 * 2 ^ sh)) :
    Beats q (q * 2 ^ sh) y (z * 2 ^ s) := by
  have half : (2 : ℝ) * 2 ^ s ≤ 2 ^ sh := by
    rw [← pow_succ']
    exact pow_le_pow_right₀ (by norm_num) finer
  have small : (z : ℝ) < 16777216 := by exact_mod_cast (abs_lt.1 hz).2
  have below : (z : ℝ) * 2 ^ s < 8388608 * 2 ^ sh := by
    calc (z : ℝ) * 2 ^ s < 16777216 * 2 ^ s := mul_lt_mul_of_pos_right small (by positivity)
      _ ≤ 8388608 * 2 ^ sh := by linarith
  obtain ⟨nearer, -⟩ := multiple
  rw [abs_of_nonpos (sub_nonpos.2 above)] at nearer
  rw [Beats, abs_of_nonpos (sub_nonpos.2 (below.le.trans above))]
  exact ⟨by linarith, fun same => by linarith⟩

/-- No finite value rounds better: scaled by 2^k, a candidate is a multiple of the last place or has a finer one. -/
theorem roundedValue_beats {m k : Nat} {sticky : Bool} {y x : ℝ} (hk : 150 ≤ k) (h : Truncates m sticky (y * 2 ^ k))
    (hx : F32Grid x) : Beats (roundEven m (f32Shift m k) sticky) (roundedValue m k sticky) y x := by
  obtain ⟨z, s, hz, rfl⟩ := hx
  obtain ⟨least, large, -⟩ := f32Shift_spec m k
  obtain ⟨error, tie⟩ := roundEven_error h (show 1 ≤ f32Shift m k by omega)
  have multiples := beats_multiple (show (0 : ℝ) < 2 ^ f32Shift m k by positivity) error tie
  refine Beats.of_mul (c := 2 ^ k) (by positivity) ?_
  rw [roundedValue, grid_mul_two_pow _ (show _ = f32Shift m k + 149 by omega),
    grid_mul_two_pow _ (show _ = s + (k - 149) + 149 by omega)]
  rcases Nat.lt_or_ge (s + (k - 149)) (f32Shift m k) with finer | coarser
  · have above : 8388608 * 2 ^ f32Shift m k ≤ m := by omega
    refine beats_of_finer finer hz (le_trans (by exact_mod_cast above) h.le) ?_
    exact_mod_cast multiples 8388608
  · obtain ⟨d, hd⟩ := Nat.exists_eq_add_of_le coarser
    have multiple := multiples (z * 2 ^ d)
    push_cast at multiple
    rwa [mul_assoc, ← pow_add, add_comm d, ← hd] at multiple

end Sys2Proof.Machine

/-! The signal strength (45_conditioner R221): its pattern is the rounding of the exact decibel value. -/

namespace Sys2Proof.Machine

/-! ### The pattern of a rounded number -/

theorem roundEven_range (m sh : Nat) (sticky : Bool) :
    m / 2 ^ sh ≤ roundEven m sh sticky ∧ roundEven m sh sticky ≤ m / 2 ^ sh + 1 := by
  simp only [roundEven]
  split
  · exact ⟨Nat.le_succ _, le_refl _⟩
  · exact ⟨le_refl _, Nat.le_succ _⟩

/-- Below 2^100 nothing overflows: the pattern with these bits is finite and has the rounded value. -/
theorem f32Value_of_magnitude {w : Word} {m k : Nat} {sticky : Bool} (hk : 150 ≤ k) (hm : m < 2 ^ (k + 100))
    (hw : w.toNat = f32Magnitude m k sticky) :
    F32Finite w ∧ (f32Value w : ℝ) = roundedValue m k sticky ∧
    w.toNat % 2 = roundEven m (f32Shift m k) sticky % 2 := by
  obtain ⟨least, large, lt⟩ := f32Shift_spec m k
  obtain ⟨lower, upper⟩ := roundEven_range m (f32Shift m k) sticky
  have quotient : m / 2 ^ f32Shift m k < 16777216 := Nat.div_lt_of_lt_mul (by rwa [mul_comm])
  have norm : f32Shift m k + 149 - k = 0 ∨ 8388608 ≤ roundEven m (f32Shift m k) sticky := by
    rcases large with least | large
    · exact .inl (by omega)
    · exact .inr (((Nat.le_div_iff_mul_le (Nat.two_pow_pos _)).2 large).trans lower)
  have shift : f32Shift m k ≤ k + 76 := by
    rcases large with least | large
    · omega
    · have powers : 2 ^ (23 + f32Shift m k) < 2 ^ (k + 100) := by
        rw [Nat.pow_add]
        exact large.trans_lt hm
      have := (Nat.pow_lt_pow_iff_right (by decide)).1 powers
      omega
  rw [f32Magnitude_eq hk, Nat.min_eq_left (by omega)] at hw
  obtain ⟨finite, value⟩ := f32Value_of_parts hw (by omega) norm (by omega)
  refine ⟨finite, ?_, by omega⟩
  rw [value, roundedValue]
  push_cast
  rfl

theorem Truncates.lt_two_pow {m k : Nat} {sticky : Bool} {y : ℝ} (h : Truncates m sticky (y * 2 ^ k))
    (hy : y < 2 ^ 100) : m < 2 ^ (k + 100) := by
  have scaled : y * 2 ^ k < 2 ^ (k + 100) := by
    rw [pow_add, mul_comm]
    exact mul_lt_mul_of_pos_left hy (by positivity)
  exact_mod_cast h.le.trans_lt scaled

/-- The pattern of the magnitude bits is the nearest to the number they were made from (00_scope R18). -/
theorem nearestF32_of_magnitude {w : Word} {m k : Nat} {sticky : Bool} {y : ℝ} (hk : 150 ≤ k)
    (h : Truncates m sticky (y * 2 ^ k)) (hy : y < 2 ^ 100) (hw : w.toNat = f32Magnitude m k sticky) :
    NearestF32 w y := by
  obtain ⟨finite, value, parity⟩ := f32Value_of_magnitude hk (h.lt_two_pow hy) hw
  refine ⟨finite, fun zero => ?_, fun v hv => ?_⟩
  · have cut : m = 0 := by
      have le := h.le
      rw [zero, zero_mul] at le
      exact_mod_cast le_antisymm le (Nat.cast_nonneg m)
    exact BitVec.eq_of_toNat_eq (by rw [hw, cut]; rfl)
  · obtain ⟨le, tie⟩ := roundedValue_beats hk h (f32Value_grid hv)
    rw [value, parity]
    refine ⟨le, fun same ne => tie same fun e => ne ?_⟩
    rw [← value] at e
    exact_mod_cast e

/-- With the sign bit set it is the nearest to the negated number, which is not 0: the pattern of 0 has no sign. -/
theorem nearestF32_of_signed_magnitude {w : Word} {m k : Nat} {sticky : Bool} {y : ℝ} (hk : 150 ≤ k) (pos : 0 < y)
    (h : Truncates m sticky (y * 2 ^ k)) (hy : y < 2 ^ 100) (hw : w.toNat = 2147483648 + f32Magnitude m k sticky) :
    NearestF32 w (-y) := by
  have bound := w.isLt
  have bits : (BitVec.ofNat 32 (f32Magnitude m k sticky)).toNat = f32Magnitude m k sticky := by
    rw [BitVec.toNat_ofNat, Nat.mod_eq_of_lt (by omega)]
  obtain ⟨finite, value, parity⟩ := f32Value_of_magnitude hk (h.lt_two_pow hy) bits
  obtain ⟨negated, same_finite⟩ := f32Value_neg (w := w) (hw.trans (by rw [bits]))
  have rounded : (f32Value w : ℝ) = -roundedValue m k sticky := by rw [negated, Rat.cast_neg, value]
  refine ⟨same_finite.2 finite, fun zero => absurd zero (by linarith), fun v hv => ?_⟩
  obtain ⟨le, tie⟩ := roundedValue_beats hk h (f32Value_grid hv).neg
  have flip (a : ℝ) : |(-a) - y| = |a - -y| := by rw [← abs_neg, neg_sub, sub_neg_eq_add, sub_neg_eq_add, add_comm]
  have mirrored : |roundedValue m k sticky - y| = |(f32Value w : ℝ) - -y| := by rw [rounded, ← flip, neg_neg]
  rw [flip, mirrored] at le tie
  refine ⟨le, fun same ne => ?_⟩
  have even := tie same fun e => ne (Rat.cast_injective (α := ℝ) (by rw [rounded, ← e, neg_neg]))
  omega

/-! ### The level in decibels -/

/-- floor(2^logBits · (20·log10(n) - g)), from which the pattern is made. -/
def dbmScaled (n : Nat) (g : Int) : Int := (log10Scaled (n ^ 20) logBits : Int) - g * ((2 ^ logBits : Nat) : Int)

/-- The level 20·log10(n) - g (45_conditioner R221). -/
noncomputable def dbmLevel (n : Nat) (g : Int) : ℝ := 20 * Real.logb 10 n - g

theorem signalDbm_zero (g : Int) : signalDbm 0 g = f32NegInf := rfl

/-- The three roundings of R221's value: from above 0, and from below it without and with a fraction. -/
theorem signalDbm_cases {n : Nat} (hn : 1 ≤ n) (g : Int) :
    (0 ≤ dbmScaled n g ∧
      signalDbm n g = BitVec.ofNat 32 (f32Magnitude (dbmScaled n g).toNat logBits (!isPowerOfTen n))) ∨
    (dbmScaled n g < 0 ∧ isPowerOfTen n = true ∧
      signalDbm n g = BitVec.ofNat 32 (2147483648 + f32Magnitude (-dbmScaled n g).toNat logBits false)) ∨
    (dbmScaled n g < 0 ∧ isPowerOfTen n = false ∧
      signalDbm n g = BitVec.ofNat 32 (2147483648 + f32Magnitude (-dbmScaled n g - 1).toNat logBits true)) := by
  have unfolded : signalDbm n g =
      if 0 ≤ dbmScaled n g then BitVec.ofNat 32 (f32Magnitude (dbmScaled n g).toNat logBits (!isPowerOfTen n))
      else if isPowerOfTen n then BitVec.ofNat 32 (2147483648 + f32Magnitude (-dbmScaled n g).toNat logBits false)
      else BitVec.ofNat 32 (2147483648 + f32Magnitude (-dbmScaled n g - 1).toNat logBits true) :=
    if_neg (by omega)
  rw [unfolded]
  split
  · exact .inl ⟨‹_›, rfl⟩
  · split
    · exact .inr (.inl ⟨by omega, ‹_›, rfl⟩)
    · exact .inr (.inr ⟨by omega, Bool.eq_false_iff.2 ‹_›, rfl⟩)

theorem dbmScaled_bracket {n : Nat} (hn : 1 ≤ n) (g : Int) :
    (dbmScaled n g : ℝ) ≤ dbmLevel n g * 2 ^ logBits ∧ dbmLevel n g * 2 ^ logBits < dbmScaled n g + 1 ∧
    (isPowerOfTen n = true ↔ (dbmScaled n g : ℝ) = dbmLevel n g * 2 ^ logBits) := by
  obtain ⟨le, lt⟩ := log10Scaled_bracket (x := n ^ 20) (Nat.pow_pos hn) logBits
  have exact_iff := log10Scaled_exact_iff hn (a := 20) (by decide) logBits
  have power : Real.logb 10 ((n ^ 20 : Nat) : ℝ) = 20 * Real.logb 10 n := by
    push_cast
    rw [Real.logb_pow, Nat.cast_ofNat]
  rw [power] at le lt exact_iff
  have scaled : (dbmScaled n g : ℝ) = log10Scaled (n ^ 20) logBits - g * 2 ^ logBits := by
    rw [dbmScaled]
    push_cast
    rfl
  have level : dbmLevel n g * 2 ^ logBits = 2 ^ logBits * (20 * Real.logb 10 n) - g * 2 ^ logBits := by
    rw [dbmLevel, sub_mul, mul_comm (2 ^ logBits)]
  rw [isPowerOfTen_iff, ← exact_iff, scaled, level, sub_left_inj, sub_add_eq_add_sub]
  exact ⟨sub_le_sub_right le _, sub_lt_sub_right lt _, Iff.rfl⟩

theorem dbmLevel_neg {n : Nat} {g : Int} (hn : 1 ≤ n) (neg : dbmScaled n g < 0) : dbmLevel n g < 0 := by
  obtain ⟨-, lt, -⟩ := dbmScaled_bracket hn g
  have below : (dbmScaled n g : ℝ) + 1 ≤ 0 := by exact_mod_cast neg
  exact neg_of_mul_neg_left (lt.trans_le below) (by positivity)

/-- Every level in range is far from overflow. -/
theorem abs_dbmLevel_lt {n : Nat} {g : Int} (hn : 1 ≤ n) (le : n ≤ 46341) (lo : -255 ≤ g) (hi : g ≤ 255) :
    |dbmLevel n g| < 2 ^ 100 := by
  have nonneg : 0 ≤ Real.logb 10 n := Real.logb_nonneg (by norm_num) (by exact_mod_cast hn)
  have five : Real.logb 10 n ≤ 5 := by
    rw [Real.logb_le_iff_le_rpow (by norm_num) (by exact_mod_cast hn)]
    have : (n : ℝ) ≤ 46341 := by exact_mod_cast le
    norm_num
    linarith
  have lo' : (-255 : ℝ) ≤ g := by exact_mod_cast lo
  have hi' : (g : ℝ) ≤ 255 := by exact_mod_cast hi
  rw [dbmLevel, abs_lt]
  constructor <;> linarith

theorem Truncates.of_int {v : Int} {sticky : Bool} {y : ℝ} (nonneg : 0 ≤ v) (le : (v : ℝ) ≤ y) (lt : y < v + 1)
    (sticky_iff : sticky = true ↔ (v : ℝ) < y) : Truncates v.toNat sticky y := by
  have cast : ((v.toNat : Nat) : ℝ) = v := by exact_mod_cast Int.toNat_of_nonneg nonneg
  constructor <;> rwa [cast]

theorem f32Magnitude_le (m k : Nat) (sticky : Bool) : f32Magnitude m k sticky ≤ 2139095040 := by
  rw [f32Magnitude]
  split
  · decide
  · exact Nat.min_le_right _ _

theorem toNat_ofNat_of_lt {x : Nat} (h : x < 4294967296) : (BitVec.ofNat 32 x).toNat = x := by
  rw [BitVec.toNat_ofNat, Nat.mod_eq_of_lt h]

theorem nearestF32_of_dbmLevel_neg {n m : Nat} {g : Int} {sticky : Bool} (small : |dbmLevel n g| < 2 ^ 100)
    (neg : dbmLevel n g < 0) (cut : Truncates m sticky (-dbmLevel n g * 2 ^ logBits))
    (pattern : signalDbm n g = BitVec.ofNat 32 (2147483648 + f32Magnitude m logBits sticky)) :
    NearestF32 (signalDbm n g) (dbmLevel n g) := by
  have bits := f32Magnitude_le m logBits sticky
  rw [← neg_neg (dbmLevel n g)]
  refine nearestF32_of_signed_magnitude (by decide) (neg_pos.2 neg) cut (by rwa [← abs_of_neg neg]) ?_
  rw [pattern, toNat_ofNat_of_lt (by omega)]

/-- The pattern is the nearest to the level: its magnitude bits are made from the level's, cut off towards 0. -/
theorem nearestF32_signalDbm {n : Nat} {g : Int} (hn : 1 ≤ n) (small : |dbmLevel n g| < 2 ^ 100) :
    NearestF32 (signalDbm n g) (dbmLevel n g) := by
  obtain ⟨le, lt, exact_iff⟩ := dbmScaled_bracket hn g
  rcases signalDbm_cases hn g with ⟨nonneg, pattern⟩ | ⟨neg, ten, pattern⟩ | ⟨neg, fraction, pattern⟩
  · have cut : Truncates (dbmScaled n g).toNat (!isPowerOfTen n) (dbmLevel n g * 2 ^ logBits) := by
      refine .of_int nonneg le lt ?_
      rw [Bool.not_eq_true', ← Bool.not_eq_true, exact_iff, le.lt_iff_ne]
    refine nearestF32_of_magnitude (by decide) cut (lt_of_abs_lt small) ?_
    rw [pattern, toNat_ofNat_of_lt ((f32Magnitude_le _ _ _).trans_lt (by decide))]
  · refine nearestF32_of_dbmLevel_neg small (dbmLevel_neg hn neg) ?_ pattern
    rw [neg_mul, ← exact_iff.1 ten, ← Int.cast_neg]
    exact .of_int (by omega) (le_refl _) (lt_add_one _) (iff_of_false nofun (lt_irrefl _))
  · refine nearestF32_of_dbmLevel_neg small (dbmLevel_neg hn neg) ?_ pattern
    have strict := le.lt_of_ne (mt exact_iff.2 (Bool.eq_false_iff.1 fraction))
    rw [neg_mul]
    generalize dbmLevel n g * 2 ^ logBits = y at *
    refine .of_int (by omega) ?_ ?_ (iff_of_true rfl ?_) <;> push_cast <;> linarith

/-- Settles O55: the digits of the logarithm are exact, and the rounding of what they truncate is the nearest. -/
theorem signalDbmNearest : Obligations.SignalDbmNearest :=
  ⟨signalDbm_zero, fun _ _ hn le lo hi => nearestF32_signalDbm hn (abs_dbmLevel_lt hn le lo hi)⟩

end Sys2Proof.Machine

/-! The output stager. The interpolated run is a line stepper's (46_output_stager R236, R237): the stepper's error is the
remainder the run's floor leaves. The ring buffer holds the most recent bytes (R243, R246): a push appends its byte, and
into a full buffer it is a pop of one byte first. -/

namespace Sys2Proof.Machine

/-! ### The line stepper (46_output_stager R236, R237) -/

/-- One more d, divided by L: quotients and remainders add up, and the remainders carry once they reach L. -/
theorem ediv_emod_mul_succ {L : Int} (hL : 0 < L) (d : Int) (k : Nat) :
    d * (k + 1 : Nat) / L = d * k / L + d / L + (if L ≤ d * k % L + d % L then 1 else 0) ∧
    d * (k + 1 : Nat) % L = d * k % L + d % L - (if L ≤ d * k % L + d % L then L else 0) := by
  have steps := Int.emod_add_mul_ediv (d * k) L
  have one := Int.emod_add_mul_ediv d L
  have expand : d * (k + 1 : Nat) = d * k + d := by push_cast; ring
  have steps_lt := Int.emod_lt_of_pos (d * k) hL
  have one_lt := Int.emod_lt_of_pos d hL
  have steps_nonneg := Int.emod_nonneg (d * k) (Int.ne_of_gt hL)
  have one_nonneg := Int.emod_nonneg d (Int.ne_of_gt hL)
  rw [Int.ediv_emod_unique hL]
  split <;> exact ⟨by linarith, by omega, by omega⟩

/-- From point k on, with the error that is left there, the stepper gives the floors from k on. -/
theorem bresenham_eq_map {L : Int} (hL : 0 < L) (prev d : Int) (n k : Nat) :
    bresenham L (d / L) (d % L) n (prev + d * k / L) (d * k % L) =
      (List.range' k n).map fun i : Nat => prev + d * i / L := by
  induction n generalizing k with
  | zero => rfl
  | succ n ih =>
    obtain ⟨quotient, remainder⟩ := ediv_emod_mul_succ hL d k
    rw [bresenham, List.range'_succ, List.map_cons, ← ih (k + 1), quotient, remainder]
    split <;> simp only [Int.add_assoc, Int.add_zero, Int.sub_zero]

theorem interpolationRun_eq_bresenham (cfg : Config) (prev v : Int) (h : 1 ≤ cfg.interpL) :
    interpolationRun cfg prev v =
      bresenham cfg.interpL ((v - prev) / cfg.interpL) ((v - prev) % cfg.interpL) cfg.interpL prev 0 := by
  have start := bresenham_eq_map (Int.natCast_pos.2 h) prev (v - prev) cfg.interpL 0
  simp only [Int.natCast_zero, Int.mul_zero, Int.zero_ediv, Int.zero_emod, Int.add_zero] at start
  rw [interpolationRun, List.range_eq_range', start]

theorem interpolationRun_head (cfg : Config) (prev v : Int) (h : 1 ≤ cfg.interpL) :
    (interpolationRun cfg prev v).head? = some prev := by
  obtain ⟨n, hn⟩ := Nat.exists_eq_add_of_le' h
  simp [interpolationRun, hn, List.range_succ_eq_map]

/-- Settles O56: the stepper's points are the run's floors, by induction on the points that are left. -/
theorem interpolationIsBresenham : Obligations.InterpolationIsBresenham := fun cfg prev v h =>
  ⟨interpolationRun_eq_bresenham cfg prev v h, interpolationRun_head cfg prev v h, interpolationRun_between cfg prev v⟩

/-! ### The ring buffer's contents (46_output_stager R243, R244, R246) -/

@[simp] theorem Ring.contents_length (cap : Nat) (r : Ring) : (r.contents cap).length = r.count := by
  simp [Ring.contents]

/-- A pop removes the oldest bytes. -/
theorem rbPop_contents (cap : Nat) (r : Ring) (n : Nat) :
    (rbPop cap r n).1.contents cap = (r.contents cap).drop (min n r.count) := by
  refine List.ext_getElem (by simp [rbPop]) fun k _ _ => ?_
  simp [Ring.contents, rbPop, Nat.add_assoc]

theorem rbPush_of_room {cap : Nat} {r : Ring} (room : r.count < cap) (b : Byte) :
    rbPush cap r b = { r with data := r.data.write ((r.head + r.count) % cap) b, count := r.count + 1 } := by
  simp [rbPush, Nat.ne_of_lt room]

/-- A push into a full ring drops the oldest byte, then finds room. -/
theorem rbPush_of_full {cap : Nat} (hc : 0 < cap) {r : Ring} (full : r.count = cap) (b : Byte) :
    rbPush cap r b = rbPush cap (rbPop cap r 1).1 b := by
  have one : min 1 cap = 1 := Nat.min_eq_left hc
  have popped : cap - 1 ≠ cap := by omega
  simp [rbPush, rbPop, full, one, popped]

theorem rbPush_count {cap : Nat} (hc : 0 < cap) {r : Ring} (h : r.count ≤ cap) (b : Byte) :
    (rbPush cap r b).count = min cap (r.count + 1) := by
  simp only [rbPush]
  split
  · simp only
    omega
  · omega

/-- Fewer than cap places after the head, no two are the same entry. -/
theorem ringIndex_ne {cap head k n : Nat} (hk : k < n) (hn : n < cap) : (head + k) % cap ≠ (head + n) % cap := fun same =>
  hk.ne ((Nat.ModEq.add_left_cancel' head same).eq_of_lt_of_lt (hk.trans hn) hn)

theorem rbPush_contents_of_room {cap : Nat} {r : Ring} (room : r.count < cap) (wf : r.data.wf) (b : Byte) :
    (rbPush cap r b).contents cap = r.contents cap ++ [b] := by
  have older : ∀ k ∈ List.range r.count,
      (r.data.write ((r.head + r.count) % cap) b).read ((r.head + k) % cap) = r.data.read ((r.head + k) % cap) :=
    fun k hk => Memory.read_write_other _ _ (ringIndex_ne (List.mem_range.1 hk) room)
  rw [rbPush_of_room room, Ring.contents, Ring.contents, List.range_succ, List.map_append, List.map_congr_left older,
    List.map_singleton, Memory.read_write_same _ wf]

/-- A push appends its byte, and drops what is then beyond the capacity. -/
theorem rbPush_contents {cap : Nat} (hc : 0 < cap) {r : Ring} (h : r.count ≤ cap) (wf : r.data.wf) (b : Byte) :
    (rbPush cap r b).contents cap = (r.contents cap ++ [b]).drop (r.count + 1 - cap) := by
  rcases Nat.lt_or_eq_of_le h with room | full
  · rw [rbPush_contents_of_room room wf, Nat.sub_eq_zero_of_le room, List.drop_zero]
  · have room : (rbPop cap r 1).1.count < cap := by simp only [rbPop]; omega
    rw [rbPush_of_full hc full, rbPush_contents_of_room room wf, rbPop_contents, full, Nat.min_eq_left hc,
      Nat.add_sub_cancel_left, List.drop_append_of_le_length (by simp; omega)]

theorem rbPush_wf (cap : Nat) {r : Ring} (wf : r.data.wf) (b : Byte) : (rbPush cap r b).data.wf := by
  obtain ⟨k, hk⟩ := rbPush_data cap r b
  rw [hk]
  exact Memory.wf_write _ wf _ _

theorem foldl_rbPush_ok {cap : Nat} (hc : 0 < cap) (bs : List Byte) {r : Ring} (h : r.Ok cap) :
    (bs.foldl (rbPush cap) r).Ok cap := by
  induction bs generalizing r with
  | nil => exact h
  | cons b bs ih => exact ih (rbPush_ok hc h b)

theorem foldl_rbPush_count {cap : Nat} (hc : 0 < cap) (bs : List Byte) {r : Ring} (h : r.Ok cap) :
    (bs.foldl (rbPush cap) r).count = min cap (r.count + bs.length) := by
  induction bs generalizing r with
  | nil => exact (Nat.min_eq_right h.2).symm
  | cons b bs ih =>
    rw [List.foldl_cons, ih (rbPush_ok hc h b), rbPush_count hc h.2, List.length_cons]
    omega

theorem foldl_rbPush_contents {cap : Nat} (hc : 0 < cap) (bs : List Byte) {r : Ring} (h : r.Ok cap) (wf : r.data.wf) :
    (bs.foldl (rbPush cap) r).contents cap = (r.contents cap ++ bs).drop (r.count + bs.length - cap) := by
  induction bs generalizing r with
  | nil =>
    rw [List.foldl_nil, List.length_nil, Nat.add_zero, Nat.sub_eq_zero_of_le h.2, List.drop_zero, List.append_nil]
  | cons b bs ih =>
    have le : r.count + 1 - cap ≤ (r.contents cap ++ [b]).length := by simp
    have dropped : r.count + 1 - cap + (min cap (r.count + 1) + bs.length - cap) = r.count + (bs.length + 1) - cap := by
      have := h.2
      omega
    rw [List.foldl_cons, ih (rbPush_ok hc h b) (rbPush_wf cap wf b), rbPush_contents hc h.2 wf, rbPush_count hc h.2,
      ← List.drop_append_of_le_length le, List.drop_drop, dropped, List.append_assoc, List.singleton_append,
      List.length_cons]

/-- Settles O57: by induction on the bytes pushed, each of which is appended and keeps at most the capacity. -/
theorem ringKeepsTheMostRecent : Obligations.RingKeepsTheMostRecent := fun cap r bs hc h wf => by
  have beyond : r.count + bs.length - min cap (r.count + bs.length) = r.count + bs.length - cap := by omega
  refine ⟨foldl_rbPush_count hc bs h, foldl_rbPush_ok hc bs h, ?_⟩
  rw [foldl_rbPush_count hc bs h, beyond, foldl_rbPush_contents hc bs h wf]

end Sys2Proof.Machine

/-! The sequencer (48_commands R266 to R271). Its counters are functions of the number of pairs the block has consumed:
`Regs.CountersAt` says which, a SAMPLE step takes it from j pairs to j + 1, and END stands at the block's P pairs. -/

namespace Sys2Proof.Machine

/-! ### Pairs and filter calls of a block (00_scope R8) -/

theorem Config.one_le_cicR {cfg : Config} (h : cfg.Admissible) : 1 ≤ cfg.cicR := h.1.1

theorem Config.pairs_pos {cfg : Config} (h : cfg.Admissible) : 0 < cfg.pairs := by
  obtain ⟨rates, -⟩ := h
  rw [Config.pairs]
  omega

theorem Config.calls_mul {cfg : Config} (h : cfg.Admissible) : cfg.calls * (cfg.cicR * fftH) = cfg.pairs :=
  Nat.div_mul_cancel (Nat.dvd_of_mod_eq_zero h.1.2.2.2.2.2.1)

/-- Every pair of a block falls into one of its filter calls. -/
theorem Config.div_lt_calls {cfg : Config} (h : cfg.Admissible) {j : Nat} (hj : j < cfg.pairs) :
    j / (cfg.cicR * fftH) < cfg.calls :=
  Nat.div_lt_of_lt_mul (by rwa [mul_comm, Config.calls_mul h])

/-- One more pair: the remainder moves on, or starts over and the quotient moves on. -/
theorem succ_div_mod {R : Nat} (hR : 1 ≤ R) (j : Nat) :
    (j % R + 1 < R ∧ (j + 1) / R = j / R ∧ (j + 1) % R = j % R + 1) ∨
    (j % R + 1 = R ∧ (j + 1) / R = j / R + 1 ∧ (j + 1) % R = 0) := by
  have split := Nat.mod_add_div j R
  have small := Nat.mod_lt j hR
  by_cases h : j % R + 1 < R
  · exact .inl ⟨h, (Nat.div_mod_unique hR).2 ⟨by omega, h⟩⟩
  · refine .inr ⟨by omega, (Nat.div_mod_unique hR).2 ⟨?_, hR⟩⟩
    rw [Nat.mul_add]
    omega

/-! ### The counters -/

/-- The counters after j pairs of a block (48_commands R268, R271): those of the CIC and the filter input, and the
magnitudes and AUDIO_OUT entries the filter calls so far have made. -/
structure Regs.CountersAt (cfg : Config) (r : Regs) (j : Nat) : Prop where
  cicCnt : r.cic.cnt = j % cfg.cicR
  finCnt : r.fin.cnt = j / cfg.cicR % fftH
  magCnt : r.pub.magCnt = j / (cfg.cicR * fftH) * outE
  outIdx : r.stager.outIdx = j / (cfg.cicR * fftH) * outE * cfg.interpL

theorem Regs.seqOk_iff_of_idle {cfg : Config} {r : Regs} (h : r.seq = .idle) :
    r.SeqOk cfg ↔ r.cic.cnt = 0 ∧ r.fin.cnt = 0 := by
  rw [Regs.SeqOk, h]

theorem Regs.seqOk_iff_of_sample {cfg : Config} {r : Regs} {j : Nat} (h : r.seq = .sample j) :
    r.SeqOk cfg ↔ j < cfg.pairs ∧ r.CountersAt cfg j := by
  rw [Regs.SeqOk, h]
  exact ⟨fun ⟨lt, cic, fin, mag, out⟩ => ⟨lt, cic, fin, mag, out⟩,
    fun ⟨lt, c⟩ => ⟨lt, c.cicCnt, c.finCnt, c.magCnt, c.outIdx⟩⟩

/-- After all P pairs every filter call is made, and the CIC and the filter input are empty. -/
theorem Regs.countersAt_pairs {cfg : Config} (adm : cfg.Admissible) (r : Regs) :
    r.CountersAt cfg cfg.pairs ↔
      r.cic.cnt = 0 ∧ r.fin.cnt = 0 ∧ r.pub.magCnt = cfg.samples ∧ r.stager.outIdx = cfg.expanded := by
  have calls : cfg.pairs / (cfg.cicR * fftH) = cfg.calls := rfl
  have outputs : cfg.pairs / cfg.cicR = cfg.calls * fftH := by
    rw [← Config.calls_mul adm, mul_comm cfg.cicR, ← mul_assoc, Nat.mul_div_cancel _ (Config.one_le_cicR adm)]
  have phase : cfg.pairs % cfg.cicR = 0 := by
    rw [← Config.calls_mul adm, mul_comm cfg.cicR, ← mul_assoc, Nat.mul_mod_left]
  have filled : cfg.pairs / cfg.cicR % fftH = 0 := by rw [outputs, Nat.mul_mod_left]
  constructor
  · rintro ⟨cic, fin, mag, out⟩
    rw [phase] at cic
    rw [filled] at fin
    exact ⟨cic, fin, mag, out⟩
  · rintro ⟨cic, fin, mag, out⟩
    exact ⟨cic.trans phase.symm, fin.trans filled.symm, mag, out⟩

theorem Regs.seqOk_iff_of_ending {cfg : Config} (adm : cfg.Admissible) {r : Regs} (h : r.seq = .ending) :
    r.SeqOk cfg ↔ r.CountersAt cfg cfg.pairs := by
  rw [Regs.countersAt_pairs adm, Regs.SeqOk, h]

theorem Regs.SeqOk.not_begun {cfg : Config} {r : Regs} (h : r.SeqOk cfg) : r.seq ≠ .begun := by
  intro begun
  rw [Regs.SeqOk, begun] at h
  exact h

/-- In step, a filter call that is due has room for its outputs in AUDIO_OUT (20_memory R72). -/
theorem Regs.CountersAt.room {cfg : Config} (adm : cfg.Admissible) {r : Regs} {j : Nat} (h : r.CountersAt cfg j)
    (hj : j < cfg.pairs) : r.stager.outIdx + 64 * cfg.interpL ≤ cfg.expanded := by
  rw [h.outIdx, Config.expanded, Config.samples, ← Nat.add_mul, ← Nat.succ_mul]
  exact Nat.mul_le_mul_right _ (Nat.mul_le_mul_right _ (Config.div_lt_calls adm hj))

/-- A SAMPLE step consumes one pair: it waits for the CIC, or it fills the filter input, or it fills it up and runs a
filter call. -/
theorem sampleStep_countersAt {s t : State} {j : Nat} (hR : 1 ≤ s.cfg.cicR) (h : s.regs.CountersAt s.cfg j)
    (go : sampleStep s j = .next t) : t.regs.CountersAt s.cfg (j + 1) := by
  obtain ⟨cic, fin, mag, out⟩ := h
  rw [← Nat.div_div_eq_div_mul] at mag out
  have output := succ_div_mod (R := fftH) (by decide) (j / s.cfg.cicR)
  rcases sampleStep_effect s j (sampleStep_inv go).1 with ⟨wait, u, hu, -, quiet⟩ | ⟨⟨ready, full⟩, -, u, hu, -, call⟩ |
    ⟨-, -, stop⟩
  · obtain rfl : u = t := Host.Outcome.next.inj (hu.symm.trans go)
    have cnt := quiet.cicCnt
    have fill := quiet.finCnt
    rw [cic] at cnt fill
    rw [fin] at fill
    rw [← quiet.pub] at mag
    rw [← quiet.stager] at out
    rcases succ_div_mod hR j with ⟨more, quotient, remainder⟩ | ⟨last, quotient, remainder⟩
    · rw [if_pos more] at cnt fill
      constructor
      · rw [cnt, remainder]
      · rw [fill, quotient]
      · rw [← Nat.div_div_eq_div_mul, quotient, mag]
      · rw [← Nat.div_div_eq_div_mul, quotient, out]
    · rw [if_neg (by omega)] at cnt fill
      obtain ⟨-, same, more⟩ := output.resolve_right fun filled => wait ⟨by omega, by rw [fin]; exact filled.1⟩
      constructor
      · rw [cnt, remainder]
      · rw [quotient, fill, more]
      · rw [← Nat.div_div_eq_div_mul, quotient, same, mag]
      · rw [← Nat.div_div_eq_div_mul, quotient, same, out]
  · obtain rfl : u = t := Host.Outcome.next.inj (hu.symm.trans go)
    rw [cic] at ready
    rw [fin] at full
    obtain ⟨-, quotient, remainder⟩ := (succ_div_mod hR j).resolve_left fun more => ready more.1
    obtain ⟨-, calls, filled⟩ := output.resolve_left fun more => more.1.ne full
    constructor
    · rw [call.cicCnt, remainder]
    · rw [call.finCnt, quotient, filled]
    · rw [call.magCnt, ← Nat.div_div_eq_div_mul, quotient, calls, Nat.add_mul, Nat.one_mul, mag]
    · rw [call.outIdx, ← Nat.div_div_eq_div_mul, quotient, calls, Nat.add_mul, Nat.add_mul, Nat.one_mul, out]
  · exact nomatch stop.symm.trans go

/-! ### Every step -/

/-- Where PROCESS_BLOCK takes a step of the block in progress, the sequencer says which (48_commands R266). -/
theorem CommandEffect.processBlock_steps {s t : State} (h : CommandEffect s .processBlock t) :
    t = s ∨ (s.regs.seq = .idle ∧ t = beginStep s.started) ∨ (s.regs.seq = .begun ∧ t = beginStep s) ∨
    (∃ j, s.regs.seq = .sample j ∧ sampleStep s j = .next t) ∨
    (s.regs.seq = .ending ∧ t = (endStep s).respond []) := by
  cases h with
  | answer _ _ other => exact absurd rfl other
  | raise _ _ other => exact absurd rfl other
  | setter _ _ _ other => exact absurd rfl other
  | hold => exact .inl rfl
  | start idle => exact .inr (.inl ⟨idle, rfl⟩)
  | begin own begun => exact .inr (.inr (.inl ⟨begun, rfl⟩))
  | sample j t own at_j go => exact .inr (.inr (.inr (.inl ⟨j, at_j, go⟩)))
  | finish own ending => exact .inr (.inr (.inr (.inr ⟨ending, rfl⟩)))

theorem nextSeq_of_lt {cfg : Config} {j : Nat} (h : j + 1 < cfg.pairs) : nextSeq cfg j = .sample (j + 1) := if_pos h

theorem nextSeq_of_last {cfg : Config} {j : Nat} (h : j + 1 = cfg.pairs) : nextSeq cfg j = .ending :=
  if_neg (Nat.not_lt.2 h.ge)

/-- A SAMPLE step moves on to the next pair, or to END after the last. -/
theorem sampleStep_seqOk {s t : State} {j : Nat} (adm : s.cfg.Admissible) (hj : j < s.cfg.pairs)
    (h : s.regs.CountersAt s.cfg j) (go : sampleStep s j = .next t) : t.regs.SeqOk s.cfg := by
  have counters := sampleStep_countersAt (Config.one_le_cicR adm) h go
  have seq := sampleStep_seq go
  rcases Nat.lt_or_eq_of_le hj with more | last
  · rw [nextSeq_of_lt more] at seq
    exact (Regs.seqOk_iff_of_sample seq).2 ⟨more, counters⟩
  · rw [nextSeq_of_last last] at seq
    exact (Regs.seqOk_iff_of_ending adm seq).2 (last ▸ counters)

/-- BEGIN leaves the block at its first pair, from empty input counters. -/
theorem beginStep_seqOk {s : State} (adm : s.cfg.Admissible) (cic : s.regs.cic.cnt = 0) (fin : s.regs.fin.cnt = 0) :
    (beginStep s).regs.SeqOk s.cfg := by
  refine (Regs.seqOk_iff_of_sample rfl).2 ⟨Config.pairs_pos adm, ?_⟩
  constructor <;> simp [beginRegs, cic, fin]

theorem CommandEffect.seqOk {s t : State} {i : Instr} (h : CommandEffect s i t) (adm : s.cfg.Admissible)
    (hs : s.regs.SeqOk s.cfg) : t.regs.SeqOk t.cfg := by
  rw [h.cfg]
  by_cases hi : i = .processBlock
  · subst hi
    rcases h.processBlock_steps with rfl | ⟨idle, rfl⟩ | ⟨begun, -⟩ | ⟨j, at_j, go⟩ | ⟨ending, rfl⟩
    · exact hs
    · obtain ⟨cic, fin⟩ := (Regs.seqOk_iff_of_idle idle).1 hs
      exact beginStep_seqOk (s := s.started) adm cic fin
    · exact absurd begun hs.not_begun
    · obtain ⟨hj, counters⟩ := (Regs.seqOk_iff_of_sample at_j).1 hs
      exact sampleStep_seqOk adm hj counters go
    · obtain ⟨cic, fin, -⟩ := (Regs.countersAt_pairs adm _).1 ((Regs.seqOk_iff_of_ending adm ending).1 hs)
      exact (Regs.seqOk_iff_of_idle rfl).2 ⟨cic, fin⟩
  · rcases h.regs_of_ne_processBlock hi with ⟨-, reset⟩ | frame
    · rw [reset]
      exact ⟨rfl, rfl⟩
    · rw [frame]
      exact hs

/-- Settles O33: the invariant is about the parameters and the registers only, no error touches a counter, and every
command keeps it. -/
theorem sequencerStaysInStep : Obligations.SequencerStaysInStep := fun _ _ hs hstep =>
  step_invariant_of_regs (P := fun s => s.regs.SeqOk s.cfg) hstep hs
    (congr := fun h cfg regs => by rwa [cfg, regs]) (raise := fun _ _ h => h)
    (run := fun _ _ _ adm h effect => effect.seqOk adm h)

/-! ### The machine never stops (60_exceptions R314, R315) -/

theorem execProcessBlock_of_sample {s : State} {j : Nat} (own : s.regs.seqPort = s.cur) (at_j : s.regs.seq = .sample j) :
    exec .processBlock s = sampleStep s j := by
  simp only [exec, execProcessBlock, at_j, if_pos own]

/-- In step, SAMPLE(j) finds its RAW entries, and room where a filter call is due. -/
theorem sampleStep_goes {s : State} {j : Nat} (adm : s.cfg.Admissible) (hj : j < s.cfg.pairs)
    (h : s.regs.CountersAt s.cfg j) : ∃ t, sampleStep s j = .next t := by
  have entries : 2 * j + 1 < s.cfg.blockSize := by
    rw [Config.pairs] at hj
    omega
  rcases sampleStep_effect s j entries with ⟨-, t, go, -⟩ | ⟨-, -, t, go, -⟩ | ⟨-, full, -⟩
  · exact ⟨t, go⟩
  · exact ⟨t, go⟩
  · exact absurd (h.room adm hj) (Nat.not_le.2 full)

/-- Only a SAMPLE step can stop. -/
theorem exec_goes {i : Instr} {s : State} (h : ∀ j, s.regs.seq = .sample j → ∃ t, sampleStep s j = .next t) :
    ∃ t, exec i s = .next t := by
  cases i with
  | processBlock =>
    simp only [exec, execProcessBlock]
    split
    · exact ⟨_, rfl⟩
    · split <;> exact ⟨_, rfl⟩
    · split
      · exact h _ ‹_›
      · exact ⟨_, rfl⟩
    · split <;> exact ⟨_, rfl⟩
  | setMode mode bw =>
    simp only [exec, execSetMode]
    split <;> exact ⟨_, rfl⟩
  | specAcquire =>
    simp only [exec, execSpecAcquire]
    split
    · exact ⟨_, rfl⟩
    · split <;> exact ⟨_, rfl⟩
  | specRead =>
    simp only [exec, execSpecRead]
    split <;> exact ⟨_, rfl⟩
  | specRelease =>
    simp only [exec, execSpecRelease]
    split <;> exact ⟨_, rfl⟩
  | _ => exact ⟨_, rfl⟩

/-- The acquisition source stops only at a RAW entry that does not exist. -/
theorem acquire_goes {s : State} (h : ∀ c ∈ s.acq, c.1 < s.cfg.blockSize) : ∃ t, acquire s = .next t := by
  simp only [acquire]
  split
  · rename_i k v rest _ todo
    exact ⟨_, if_pos (h (k, v) (todo ▸ List.mem_cons_self))⟩
  · exact ⟨_, rfl⟩

/-- Settles O37: the parameters are admitted, and neither a command in step nor a legal RAW write stops. -/
theorem machineNeverStops : Obligations.MachineNeverStops := by
  intro s adm hs hacq
  simp only [step, not_not.2 adm, if_false]
  split
  · exact ⟨_, rfl⟩
  · split
    · refine acquire_goes ?_
      rwa [State.tick_acq, State.tick_cfg]
    · split
      · exact ⟨_, rfl⟩
      · split
        · refine exec_goes fun j at_j => ?_
          simp only [State.tick_regs] at at_j
          obtain ⟨hj, counters⟩ := (Regs.seqOk_iff_of_sample at_j).1 hs
          refine sampleStep_goes ?_ ?_ ?_ <;> simpa only [State.tick_cfg, State.tick_regs]
        · exact ⟨_, rfl⟩

end Sys2Proof.Machine

/-! Recorded errors, the capture lock and the datapath's frame (60_exceptions R310, R312; 47_spectrum R256 to R260;
48_commands R273): which commands move the lock, and what that leaves consistent. -/

namespace Sys2Proof.Machine

/-! ### STATUS[7:0] by its fields (10_state R60, 60_exceptions R310) -/

theorem firstErr_toNat (st : BitVec 8) : (firstErr st).toNat = st.toNat / 16 := by
  rw [firstErr, BitVec.extractLsb'_toNat, Nat.shiftRight_eq_div_pow]
  omega

theorem firstErr_or (a b : BitVec 8) : firstErr (a ||| b) = firstErr a ||| firstErr b := BitVec.extractLsb'_or

theorem Err.code_range (e : Err) : 1 ≤ e.code ∧ e.code ≤ 4 := by
  cases e <;> decide

/-- An error's mask is its sticky bit. -/
theorem stickyMask_getLsbD (e : Err) : ∀ k < 8, (stickyMask e).getLsbD k = decide (k + 1 = e.code) := by
  cases e <;> decide

theorem firstErr_stickyMask (e : Err) : firstErr (stickyMask e) = 0#4 := by
  cases e <;> rfl

/-- An error's code, written to FIRST_ERR. -/
def codeField (e : Err) : BitVec 8 := BitVec.ofNat 8 e.code <<< 4

theorem firstErr_codeField (e : Err) : firstErr (codeField e) = BitVec.ofNat 4 e.code := by
  cases e <;> rfl

theorem codeField_getLsbD {k : Nat} (hk : k < 4) (e : Err) : (codeField e).getLsbD k = false := by
  simp [codeField, hk]

/-- The two cases of R312: an error recorded earlier stays the first. -/
theorem recordBits_cases (st : BitVec 8) (e : Err) :
    (firstErr st = 0 ∧ recordBits st e = st ||| stickyMask e ||| codeField e) ∨
    (firstErr st ≠ 0 ∧ recordBits st e = st ||| stickyMask e) := by
  have kept : firstErr (st ||| stickyMask e) = firstErr st := by
    rw [firstErr_or, firstErr_stickyMask, BitVec.or_zero]
  simp only [recordBits, kept]
  split
  · exact .inl ⟨‹_›, rfl⟩
  · exact .inr ⟨‹_›, rfl⟩

theorem recordBits_sticky (st : BitVec 8) (e : Err) {k : Nat} (hk : k < 4) :
    (recordBits st e).getLsbD k = (st.getLsbD k || decide (k + 1 = e.code)) := by
  have mask := stickyMask_getLsbD e k (by omega)
  rcases recordBits_cases st e with ⟨-, bits⟩ | ⟨-, bits⟩
  · rw [bits, BitVec.getLsbD_or, BitVec.getLsbD_or, mask, codeField_getLsbD hk, Bool.or_false]
  · rw [bits, BitVec.getLsbD_or, mask]

theorem recordBits_firstErr (st : BitVec 8) (e : Err) :
    firstErr (recordBits st e) = if firstErr st = 0 then BitVec.ofNat 4 e.code else firstErr st := by
  rcases recordBits_cases st e with ⟨first, bits⟩ | ⟨later, bits⟩
  · rw [bits, firstErr_or, firstErr_or, firstErr_stickyMask, firstErr_codeField, BitVec.or_zero, if_pos first, first]
    exact BitVec.zero_or
  · rw [bits, firstErr_or, firstErr_stickyMask, BitVec.or_zero, if_neg later]

theorem Err.code_toNat (e : Err) : (BitVec.ofNat 4 e.code).toNat = e.code := by
  cases e <;> rfl

/-- Settles O8: the sticky bits and FIRST_ERR are disjoint fields, and recording writes each as R312 says. -/
theorem recordedErrorBits : Obligations.RecordedErrorBits := by
  intro st e
  refine ⟨fun k hk => recordBits_sticky st e hk, ?_, rfl, rfl, rfl, rfl⟩
  have zero : firstErr st = 0 ↔ st.toNat / 16 = 0 := by
    rw [← firstErr_toNat, ← BitVec.toNat_inj]
    rfl
  rw [← firstErr_toNat, recordBits_firstErr]
  simp only [zero]
  split
  · exact e.code_toNat
  · exact firstErr_toNat st

/-- Recording an error keeps FIRST_ERR the name of a recorded one (60_exceptions R312). -/
theorem statusOk_recordBits {st : BitVec 8} (h : statusOk st) (e : Err) : statusOk (recordBits st e) := by
  obtain ⟨le, -, named⟩ := h
  obtain ⟨code_pos, code_le⟩ := e.code_range
  have recorded : (recordBits st e).getLsbD (e.code - 1) = true := by
    rw [recordBits_sticky st e (by omega), Nat.sub_add_cancel code_pos, decide_eq_true rfl, Bool.or_true]
  have code_ne : BitVec.ofNat 4 e.code ≠ 0 := by
    rw [Ne, ← BitVec.toNat_inj, e.code_toNat]
    exact Nat.ne_of_gt code_pos
  have sticky_ne : (recordBits st e).extractLsb' 0 4 ≠ 0 := by
    intro clear
    have bit : ((recordBits st e).extractLsb' 0 4).getLsbD (e.code - 1) = true := by
      rw [BitVec.getLsbD_extractLsb', Nat.zero_add, recorded, Bool.and_true]
      exact decide_eq_true (by omega)
    simp [clear] at bit
  rw [statusOk, recordBits_firstErr]
  split
  · rw [e.code_toNat]
    exact ⟨code_le, iff_of_false code_ne sticky_ne, fun _ => recorded⟩
  · rename_i later
    exact ⟨le, iff_of_false later sticky_ne, fun _ => recordBits_keeps_set e (named later)⟩

theorem statusOk_recordIf {st : BitVec 8} (h : statusOk st) (b : Bool) (e : Err) :
    statusOk (if b then recordBits st e else st) := by
  split
  · exact statusOk_recordBits h e
  · exact h

theorem statusOk_zero : statusOk 0 := by
  decide

/-- Every command keeps STATUS[7:0] consistent. -/
theorem CommandEffect.statusOk {s t : State} {i : Instr} (h : CommandEffect s i t) (hs : statusOk s.regs.status) :
    Machine.statusOk t.regs.status := by
  by_cases hi : i = .processBlock
  · subst hi
    rwa [h.status_of_processBlock]
  cases h with
  | answer | mute | pop | acquire | release | hold => exact hs
  | raise _ e => exact statusOk_recordBits hs e
  | setter _ _ b =>
    rw [State.setPend_regs]
    exact statusOk_recordIf hs b .clamped
  | usbVolume _ _ b =>
    rw [State.respond_regs, State.recordIf_regs]
    exact statusOk_recordIf hs b .clamped
  | clear | reset => exact statusOk_zero
  | start | begin | sample | finish => exact absurd rfl hi

/-! ### The capture lock -/

/-- SPEC_TRY_ACQUIRE takes a free lock, and else leaves it (47_spectrum R256). -/
theorem specTryAcquire_cases (u : Spectrum) :
    (u.lock = .free ∧ specTryAcquire u = { u with lock := .producer, blkCapture := true }) ∨
    (u.lock ≠ .free ∧ specTryAcquire u = { u with blkCapture := false }) := by
  by_cases h : u.lock = .free
  · exact .inl ⟨h, if_pos h⟩
  · exact .inr ⟨h, if_neg h⟩

/-- END accumulates and releases where the block captured, and else leaves the spectrum unit alone (47_spectrum R258). -/
theorem endRegs_spec_cases (cfg : Config) (r : Regs) :
    (r.spec.blkCapture = true ∧ (endRegs cfg r).spec = specAccumulate cfg.specAlphaShift r.filt.cap r.spec) ∨
    (r.spec.blkCapture = false ∧ (endRegs cfg r).spec = r.spec) := by
  cases h : r.spec.blkCapture with
  | true => exact .inl ⟨rfl, if_pos h⟩
  | false => exact .inr ⟨rfl, if_neg (Bool.eq_false_iff.1 h)⟩

/-- The moves of the lock by a command (47_spectrum R260): from `l` to `l'`, the command on port p. -/
inductive LockMove (r : Regs) (p : Port) : Instr → Lock → Lock → Prop
  | stay (i : Instr) (l : Lock) : LockMove r p i l l
  | start (idle : r.seq = .idle) : LockMove r p .processBlock .free .producer
  | finish (ending : r.seq = .ending) : LockMove r p .processBlock .producer .free
  | acquire : LockMove r p .specAcquire .free (.consumer p)
  | release : LockMove r p .specRelease (.consumer p) .free
  | reset (l : Lock) : LockMove r p .reset l .free

theorem CommandEffect.lockMove {s t : State} {i : Instr} (h : CommandEffect s i t) (begun : s.regs.seq ≠ .begun)
    (hs : s.regs.LockOk) : LockMove s.regs s.cur i s.regs.spec.lock t.regs.spec.lock := by
  by_cases hi : i = .processBlock
  · subst hi
    rcases h.processBlock_steps with rfl | ⟨idle, rfl⟩ | ⟨at_begun, -⟩ | ⟨j, -, go⟩ | ⟨ending, rfl⟩
    · exact .stay _ _
    · show LockMove s.regs s.cur _ _ (specTryAcquire s.regs.spec).lock
      rcases specTryAcquire_cases s.regs.spec with ⟨free, taken⟩ | ⟨-, left⟩
      · rw [taken, free]
        exact .start idle
      · rw [left]
        exact .stay _ _
    · exact absurd at_begun begun
    · rw [(sampleStep_frame go).spec]
      exact .stay _ _
    · show LockMove s.regs s.cur _ _ (endRegs s.cfg s.regs).spec.lock
      rcases endRegs_spec_cases s.cfg s.regs with ⟨captured, freed⟩ | ⟨-, left⟩
      · rw [freed, hs.1.2 captured]
        exact .finish ending
      · rw [left]
        exact .stay _ _
  cases h with
  | answer | clear | raise | mute | pop | hold => exact .stay _ _
  | setter =>
    rw [State.setPend_regs]
    exact .stay _ _
  | usbVolume =>
    rw [State.respond_regs, State.recordIf_regs]
    exact .stay _ _
  | acquire free =>
    rw [free]
    exact .acquire
  | release held =>
    rw [held]
    exact .release
  | reset => exact .reset _
  | start | begin | sample | finish => exact absurd rfl hi

/-- The accumulator changes by END of a block that captured, so that the producer holds the lock, and by RESET
(47_spectrum R258, R260). -/
theorem CommandEffect.specAcc_cases {s t : State} {i : Instr} (h : CommandEffect s i t) (hs : s.regs.LockOk) :
    t.regs.spec.acc = s.regs.spec.acc ∨ s.regs.spec.lock = .producer ∨ i = .reset := by
  by_cases hi : i = .processBlock
  · subst hi
    have tried (u : Spectrum) : (specTryAcquire u).acc = u.acc := by
      rcases specTryAcquire_cases u with ⟨-, same⟩ | ⟨-, same⟩ <;> rw [same]
    rcases h.processBlock_steps with rfl | ⟨-, rfl⟩ | ⟨-, rfl⟩ | ⟨j, -, go⟩ | ⟨-, rfl⟩
    · exact .inl rfl
    · exact .inl (tried _)
    · exact .inl (tried _)
    · exact .inl (by rw [(sampleStep_frame go).spec])
    · rcases endRegs_spec_cases s.cfg s.regs with ⟨captured, -⟩ | ⟨-, left⟩
      · exact .inr (.inl (hs.1.2 captured))
      · exact .inl (congrArg Spectrum.acc left)
  · rcases h.regs_of_ne_processBlock hi with ⟨reset, -⟩ | frame
    · exact .inr (.inr reset)
    · exact .inl (by rw [frame])

/-- Settles O41: by what a step does to the registers, and a command to the lock and to the accumulator. -/
theorem lockTransitions : Obligations.LockTransitions := by
  intro s t begun hs hstep
  rcases step_regs hstep with same | ⟨e, recorded, -⟩ | ⟨u, i, runs, hu, effect⟩
  · rw [same]
    exact ⟨.inl rfl, .inl rfl⟩
  · rw [recorded]
    exact ⟨.inl rfl, .inl rfl⟩
  · rw [← hu] at begun hs ⊢
    constructor
    · have move := effect.lockMove begun hs
      generalize u.regs.spec.lock = l at move ⊢
      generalize t.regs.spec.lock = l' at move ⊢
      cases move with
      | stay => exact .inl rfl
      | start idle => exact .inr (.inl ⟨rfl, rfl, idle, u.cur, runs⟩)
      | finish ending => exact .inr (.inr (.inl ⟨rfl, rfl, ending, u.cur, runs⟩))
      | acquire => exact .inr (.inr (.inr (.inl ⟨u.cur, rfl, rfl, runs⟩)))
      | release => exact .inr (.inr (.inr (.inr (.inl ⟨u.cur, rfl, rfl, runs⟩))))
      | reset => exact .inr (.inr (.inr (.inr (.inr ⟨rfl, u.cur, runs⟩))))
    · rcases effect.specAcc_cases hs with same | held | rfl
      · exact .inl same
      · exact .inr (.inl held)
      · exact .inr (.inr ⟨u.cur, runs⟩)

/-! ### Lock and capture flag agree (47_spectrum R256) -/

theorem Regs.LockOk.not_capturing {r : Regs} (h : r.LockOk) (other : r.spec.lock ≠ .producer) :
    r.spec.blkCapture = false := Bool.eq_false_iff.2 (mt h.1.2 other)

theorem Regs.lockOk_of_not_capturing {r : Regs} (other : r.spec.lock ≠ .producer) (off : r.spec.blkCapture = false) :
    r.LockOk :=
  ⟨iff_of_false other (Bool.eq_false_iff.1 off), fun held => absurd held other⟩

theorem Regs.lockOk_of_capturing {r : Regs} (held : r.spec.lock = .producer) (on : r.spec.blkCapture = true)
    (busy : r.seq ≠ .idle) : r.LockOk :=
  ⟨iff_of_true held on, fun _ => busy⟩

theorem nextSeq_busy (cfg : Config) (j : Nat) : nextSeq cfg j ≠ .idle ∧ nextSeq cfg j ≠ .begun := by
  rw [nextSeq]
  split <;> exact ⟨nofun, nofun⟩

/-- From IDLE the producer holds no lock, and BEGIN's try sets lock and flag alike. -/
theorem beginRegs_lockOk (cfg : Config) {r : Regs} (h : r.spec.lock ≠ .producer) : (beginRegs cfg r).LockOk := by
  rcases specTryAcquire_cases r.spec with ⟨-, taken⟩ | ⟨-, left⟩
  · exact Regs.lockOk_of_capturing (by simp only [beginRegs, taken]) (by simp only [beginRegs, taken]) nofun
  · exact Regs.lockOk_of_not_capturing (by simpa only [beginRegs, left]) (by simp only [beginRegs, left])

theorem endRegs_lockOk (cfg : Config) {r : Regs} (h : r.LockOk) : (endRegs cfg r).LockOk := by
  rcases endRegs_spec_cases cfg r with ⟨-, freed⟩ | ⟨off, left⟩
  · exact Regs.lockOk_of_not_capturing (by rw [freed]; exact nofun) (by rw [freed]; rfl)
  · refine Regs.lockOk_of_not_capturing (left ▸ fun held => ?_) (left ▸ off)
    exact absurd (h.1.1 held) (Bool.eq_false_iff.1 off)

/-- Every command keeps lock and flag in agreement, and none leaves seq at BEGIN (log 12). -/
theorem CommandEffect.lockOk {s t : State} {i : Instr} (h : CommandEffect s i t) (begun : s.regs.seq ≠ .begun)
    (hs : s.regs.LockOk) : t.regs.seq ≠ .begun ∧ t.regs.LockOk := by
  by_cases hi : i = .processBlock
  · subst hi
    rcases h.processBlock_steps with rfl | ⟨idle, rfl⟩ | ⟨at_begun, -⟩ | ⟨j, -, go⟩ | ⟨-, rfl⟩
    · exact ⟨begun, hs⟩
    · exact ⟨nofun, beginRegs_lockOk s.cfg (r := s.started.regs) fun held => hs.2 held idle⟩
    · exact absurd at_begun begun
    · obtain ⟨busy, moved⟩ := nextSeq_busy s.cfg j
      rw [← sampleStep_seq go] at busy moved
      rw [Regs.LockOk, (sampleStep_frame go).spec]
      exact ⟨moved, hs.1, fun _ => busy⟩
    · exact ⟨nofun, endRegs_lockOk s.cfg hs⟩
  cases h with
  | answer | clear | raise | mute | pop | hold => exact ⟨begun, hs⟩
  | setter =>
    rw [State.setPend_regs]
    exact ⟨begun, hs⟩
  | usbVolume =>
    rw [State.respond_regs, State.recordIf_regs]
    exact ⟨begun, hs⟩
  | acquire free => exact ⟨begun, Regs.lockOk_of_not_capturing nofun (hs.not_capturing (free ▸ nofun))⟩
  | release held => exact ⟨begun, Regs.lockOk_of_not_capturing nofun (hs.not_capturing (held ▸ nofun))⟩
  | reset => exact ⟨nofun, Regs.lockOk_of_not_capturing nofun rfl⟩
  | start | begin | sample | finish => exact absurd rfl hi

/-- Settles O34: no error touches the sequencer or the lock, and every command keeps both conditions. -/
theorem lockAndStatusStayConsistent : Obligations.LockAndStatusStayConsistent := fun _ _ begun lock status hstep =>
  and_assoc.1 (step_invariant_of_regs (P := fun s => (s.regs.seq ≠ .begun ∧ s.regs.LockOk) ∧ statusOk s.regs.status) hstep
    ⟨⟨begun, lock⟩, status⟩ (congr := fun h _ regs => by rwa [regs])
    (raise := fun _ e ⟨h, st⟩ => ⟨h, statusOk_recordBits st e⟩)
    (run := fun _ _ _ _ ⟨⟨begun, lock⟩, st⟩ effect => ⟨effect.lockOk begun lock, effect.statusOk st⟩))

/-! ### The datapath's frame (48_commands R273) -/

/-- A step that runs neither PROCESS_BLOCK nor RESET writes the pending and the shared USB registers, the ring, the
capture lock and STATUS, and no other register. -/
theorem step_regs_frame {s t : State} (h : step s = .next t) :
    (∃ p, s.Runs p .processBlock) ∨ (∃ p, s.Runs p .reset) ∨
    t.regs = { s.regs with
      pend := t.regs.pend
      usb := { s.regs.usb with mute := t.regs.usb.mute, vol := t.regs.usb.vol }
      ring := t.regs.ring
      spec := { s.regs.spec with lock := t.regs.spec.lock }
      status := t.regs.status } := by
  rcases step_regs h with same | ⟨e, recorded, -⟩ | ⟨u, i, runs, hu, effect⟩
  · exact .inr (.inr (by rw [same]))
  · exact .inr (.inr (by rw [recorded]))
  · by_cases hi : i = .processBlock
    · exact .inl ⟨u.cur, hi ▸ runs⟩
    · rcases effect.regs_of_ne_processBlock hi with ⟨rfl, -⟩ | frame
      · exact .inr (.inl ⟨u.cur, runs⟩)
      · exact .inr (.inr (hu ▸ frame))

/-- Settles O40: no register of the datapath is among those that any other step writes. -/
theorem datapathChangesOnlyByBlocks : Obligations.DatapathChangesOnlyByBlocks := by
  intro s t hstep
  rcases step_regs_frame hstep with block | reset | frame
  · exact .inl block
  · exact .inr (.inl reset)
  · rw [frame]
    exact .inr (.inr ⟨rfl, rfl, rfl, rfl, rfl, rfl, rfl, rfl, rfl, rfl, rfl, rfl, rfl, rfl, rfl, rfl⟩)

end Sys2Proof.Machine

/-! The commands other than PROCESS_BLOCK, one by one (48_commands R272 to R302, 70_reset_and_hazards R330): each decodes
from the word the spec writes out, changes the registers its rule names, and completes on its port. -/

namespace Sys2Proof.Machine

/-! ### A step that runs a command (48_commands R265) -/

theorem step_of_command {s : State} {p : Port} {w : Word} {i : Instr} (adm : s.cfg.Admissible)
    (turn : s.nextAgent = .port p) (fetched : s.fetch p = some w) (decoded : decode w = .ok i) :
    step s = exec i { s.tick with cur := p } := by
  simp only [step, not_not.2 adm, State.quiet_eq_false_of_fetch fetched, turn, fetched, decoded, Bool.false_eq_true,
    if_false]

/-- Settles O5: the step spends the turn, selects the port and runs the command. -/
theorem stepRunsDecoded : Obligations.StepRunsDecoded := by
  intro s p w i adm turn head decoded
  rw [step_of_command adm turn head decoded, State.tick_eq]

/-! ### Completion -/

/-- A setter changes the registers at once, and responds. -/
theorem State.setPend_eq (s : State) (x : Controls) (b : Bool) :
    s.setPend x b =
      { s with regs := { s.regs with
          pend := x
          status := if b then recordBits s.regs.status .clamped else s.regs.status } }.respond [] := by
  cases b <;> rfl

theorem State.setPend_completes (s : State) (x : Controls) (b : Bool) : Completes s (s.setPend x b) [] := by
  rw [State.setPend_eq]
  exact s.respond_completes _ []

theorem State.raiseErr_completes (s : State) (e : Err) : Completes s (s.raiseErr e) [] := s.respond_completes _ []

/-- A command that raises: its registers and its completion. -/
theorem exec_raises {i : Instr} {s : State} {e : Err} (h : exec i s = .next (s.raiseErr e)) :
    ∃ t, exec i s = .next t ∧ Completes s t [] ∧ t.regs = { s.regs with status := recordBits s.regs.status e } :=
  ⟨_, h, s.raiseErr_completes e, rfl⟩

/-! ### Clamped values and words with a byte operand -/

theorem clampNat_value (u hi : Nat) : (clampNat u hi).1 = if hi < u then hi else u := by
  rw [clampNat]
  split <;> rfl

theorem clampInt_value (v : Int) {lo hi : Int} (h : lo ≤ hi) :
    (clampInt v lo hi).1 = if hi < v then hi else if v < lo then lo else v := by
  rw [clampInt_fst]
  split
  · omega
  · split <;> omega

/-- A setter completes, and records CLAMPED exactly when its operand exceeds the bound (30_encoding R98). -/
theorem clampNat_setter {i : Instr} {s : State} {x : Controls} {u hi : Nat}
    (h : exec i s = .next (s.setPend x (clampNat u hi).2)) :
    ∃ t, exec i s = .next t ∧ Completes s t [] ∧ t.regs = { s.regs with
      pend := x
      status := if hi < u then recordBits s.regs.status .clamped else s.regs.status } := by
  refine ⟨_, h, s.setPend_completes _ _, ?_⟩
  rw [State.setPend_regs, clampNat_snd]
  simp only [decide_eq_true_eq]

theorem clampInt_setter {i : Instr} {s : State} {x : Controls} {v lo hi : Int} (range : lo ≤ hi)
    (h : exec i s = .next (s.setPend x (clampInt v lo hi).2)) :
    ∃ t, exec i s = .next t ∧ Completes s t [] ∧ t.regs = { s.regs with
      pend := x
      status := if hi < v ∨ v < lo then recordBits s.regs.status .clamped else s.regs.status } := by
  refine ⟨_, h, s.setPend_completes _ _, ?_⟩
  rw [State.setPend_regs, clampInt_snd _ _ _ range]
  simp only [decide_eq_true_eq, or_comm]

/-- 30_encoding R93: two's complement. -/
theorem sext24_eq (v : BitVec 24) : sext24 v = if v.getLsbD 23 then (v.toNat : Int) - 16777216 else v.toNat := by
  rw [sext24, BitVec.toInt_eq_msb_cond, BitVec.msb_eq_getLsbD_last]
  rfl

/-- The word of op and reserved-zero bits followed by a byte. -/
theorem append_byte (op : BitVec 8) (u : BitVec 8) :
    ((op ++ (0 : BitVec 16)) ++ u : BitVec 32) = commandWord op (operandU8 u) := BitVec.append_assoc

/-! ### Setters (48_commands R275 to R286) -/

theorem Mode.number_le (md : Mode) : md.number ≤ 5 := by
  cases md <;> decide

theorem modeOf_of_number {m : BitVec 4} {md : Mode} (h : md.number = m.toNat) : modeOf m = some md := by
  rw [modeOf, ← h]
  cases md <;> rfl

theorem modeOf_of_reserved {m : BitVec 4} (h : 5 < m.toNat) : modeOf m = none := by
  rcases modeOf_cases m with ⟨-, none⟩ | ⟨md, number, -⟩
  · exact none
  · have := Mode.number_le md
    omega

theorem decode_setMode_reserved {mode : BitVec 4} (h : 5 < mode.toNat) (bw : BitVec 4) :
    decode (commandWord 0x10 (operandM mode bw)) = .error .reserved := by
  have field : (operandM mode bw).extractLsb' 0 4 = mode := by
    rw [operandM, BitVec.extractLsb'_append_eq_of_add_le (by omega)]
    exact BitVec.extractLsb'_append_eq_right
  rw [decode_commandWord]
  exact (formatM_eq_reserved_iff _ _).2 (.inr (by rwa [field]))

/-- Settles O13: the mode field names a mode, or is refused in decoding and by the command. -/
theorem setModeSets : Obligations.SetModeSets := by
  intro mode bw s
  rw [show ((0x100000#24 : BitVec 24) ++ (bw ++ mode) : BitVec 32) = commandWord 0x10 (operandM mode bw) from
    append_byte 0x10 (bw ++ mode)]
  constructor
  · intro md number
    have legal : mode.toNat ≤ 5 := number ▸ Mode.number_le md
    refine ⟨decodeOfEncode (.setMode mode bw) (decide_eq_true legal), ?_⟩
    rw [← clampNat_fst]
    refine clampNat_setter ?_
    simp only [exec, execSetMode, modeOf_of_number number]
    rfl
  · intro reserved
    refine ⟨decode_setMode_reserved reserved bw, exec_raises ?_⟩
    simp only [exec, execSetMode, modeOf_of_reserved reserved]

/-- Settles O14: the operand, read as two's complement, is clamped. -/
theorem setShiftSets : Obligations.SetShiftSets := by
  intro v s hz lim
  refine ⟨decodeOfEncode (.setShift v) rfl, ?_⟩
  have range : -lim ≤ lim := by omega
  rw [← clampInt_value _ range, ← show sext24 v = hz from sext24_eq v]
  exact clampInt_setter range rfl

/-- Settles O15: the operand, read as two's complement, is clamped. -/
theorem setGainCalSets : Obligations.SetGainCalSets := by
  intro v s db
  refine ⟨decodeOfEncode (.setGainCal v) rfl, ?_⟩
  have range : (-255 : Int) ≤ 255 := by decide
  rw [← clampInt_value _ range, ← show sext24 v = db from sext24_eq v]
  exact clampInt_setter range rfl

/-- Settles O17: each word is its command's, and its operand is clamped. -/
theorem indexSettersSet : Obligations.IndexSettersSet := by
  intro u s
  simp only [← clampNat_value]
  exact ⟨⟨(congrArg decode (append_byte 0x14 u)).trans (decodeOfEncode (.setDeemph u) rfl), clampNat_setter rfl⟩,
    ⟨(congrArg decode (append_byte 0x15 u)).trans (decodeOfEncode (.setAgcSpeed u) rfl), clampNat_setter rfl⟩,
    ⟨(congrArg decode (append_byte 0x18 u)).trans (decodeOfEncode (.setVolume u) rfl), clampNat_setter rfl⟩,
    ⟨(congrArg decode (append_byte 0x19 u)).trans (decodeOfEncode (.setSquelch u) rfl), clampNat_setter rfl⟩⟩

/-- Settles O18: the operand is clamped. -/
theorem setSidetoneSets : Obligations.SetSidetoneSets := by
  intro u s
  rw [← clampNat_value]
  exact ⟨decodeOfEncode (.setSidetone u) rfl, clampNat_setter rfl⟩

/-- Settles O19: nothing is clamped, so that no error is recorded. -/
theorem setPwmScaleSets : Obligations.SetPwmScaleSets := fun u s =>
  ⟨decodeOfEncode (.setPwmScale u) rfl, _, rfl, s.setPend_completes _ _, rfl⟩

/-- With the notch off CHANFILT leaves its counter and its last peak alone (42_channel_filter R160). -/
theorem callFilter_of_notch_off (cfg : Config) {r : Regs} (off : r.act.notch = false) :
    (callFilter cfg r).1.confirm = r.filt.confirm ∧ (callFilter cfg r).1.lastPeakBin = r.filt.lastPeakBin := by
  simp only [callFilter, chanFilt, maskedSpectrum_of_notch_off off, and_self]

theorem sampleStep_of_notch_off {s t : State} {j : Nat} (off : s.regs.act.notch = false)
    (go : sampleStep s j = .next t) :
    t.regs.filt.confirm = s.regs.filt.confirm ∧ t.regs.filt.lastPeakBin = s.regs.filt.lastPeakBin := by
  rcases sampleStep_inv go with ⟨-, ⟨-, ht⟩ | ⟨-, -, ht⟩⟩
  · simp only [ht, sampleRegs_filt, and_self]
  · have filt := callFilter_of_notch_off s.cfg
      (r := sampleRegs s.cfg s.regs j (s.raw.read (2 * j)) (s.raw.read (2 * j + 1))) (by rwa [sampleRegs_act])
    rw [sampleRegs_filt] at filt
    rwa [ht, filterCall_regs, callRegs_filt]

/-- Settles O16: each flag is written as it is, and a SAMPLE step with the notch off does not reach the notch. -/
theorem flagSettersSet : Obligations.FlagSettersSet := by
  intro b s
  refine ⟨⟨?_, _, rfl, s.setPend_completes _ _, rfl⟩, ⟨?_, _, rfl, s.setPend_completes _ _, rfl⟩,
    ⟨?_, _, rfl, s.setPend_completes _ _, rfl⟩, ?_⟩
  · cases b <;> rfl
  · cases b <;> rfl
  · cases b <;> rfl
  · intro off j t at_j ran
    rcases (exec_effect ran).processBlock_steps with rfl | ⟨idle, -⟩ | ⟨begun, -⟩ | ⟨k, -, go⟩ | ⟨ending, -⟩
    · exact ⟨rfl, rfl⟩
    · exact nomatch at_j.symm.trans idle
    · exact nomatch at_j.symm.trans begun
    · exact sampleStep_of_notch_off off go
    · exact nomatch at_j.symm.trans ending

/-! ### STATUS and RESET -/

theorem toNat_append_eq {m n : Nat} (x : BitVec m) (y : BitVec n) : (x ++ y).toNat = x.toNat * 2 ^ n + y.toNat := by
  rw [BitVec.toNat_append, ← Nat.shiftLeft_add_eq_or_of_lt y.isLt, Nat.shiftLeft_eq]

/-- STATUS by its fields' weights (10_state R60). -/
theorem statusWord_toNat (r : Regs) :
    (statusWord r).toNat = r.status.toNat + (if r.pub.sqOpen then 256 else 0) + (if r.seq = .idle then 0 else 512) +
      (if r.iq.fallback then 1024 else 0) +
      (match r.spec.lock with | .free => 0 | .producer => 2048 | .consumer _ => 4096) := by
  have bit (b : Bool) : (BitVec.ofBool b).toNat = if b then 1 else 0 := by cases b <;> rfl
  have lock : (lockCode r.spec.lock).toNat * 2048 =
      (match r.spec.lock with | .free => 0 | .producer => 2048 | .consumer _ => 4096) := by
    cases r.spec.lock <;> simp [lockCode]
  have top : (0 : BitVec 19).toNat = 0 := rfl
  rw [← lock, statusWord]
  simp only [toNat_append_eq, bit, top, decide_eq_true_eq, ne_eq, ite_not, Nat.reducePow]
  clear lock top
  generalize (lockCode r.spec.lock).toNat = l
  generalize r.status.toNat = st
  split <;> split <;> split <;> omega

/-- Settles O9: the STATUS word read as a number, field by field. -/
theorem getStatusAnswers : Obligations.GetStatusAnswers :=
  ⟨decodeOfEncode .getStatus rfl, fun s => ⟨_, _, rfl, s.respond_completes s.regs _, rfl, statusWord_toNat s.regs⟩⟩

/-- Settles O10: the one register write is to STATUS[7:0]. -/
theorem clrStatusClears : Obligations.ClrStatusClears :=
  ⟨decodeOfEncode .clrStatus rfl, fun s => ⟨_, rfl, s.respond_completes _ [], rfl⟩⟩

/-- The ports after RESET: its own command completes, and that of the block it ends (70_reset_and_hazards R331, log
13). -/
theorem abortBlock_respond_get (s : State) (p : Port) :
    ((s.abortBlock.respond []).ports).get p =
      if p = s.cur ∨ (s.regs.seq ≠ .idle ∧ p = s.regs.seqPort) then (s.ports.get p).finish [] else s.ports.get p := by
  rw [State.respond_ports, State.abortBlock_cur, State.abortBlock_ports]
  by_cases own : p = s.cur
  · subst own
    rw [Ports.get_set_same, if_pos (show s.cur = s.cur ∨ _ from .inl rfl)]
    by_cases aborts : s.regs.seq ≠ .idle ∧ s.regs.seqPort ≠ s.cur
    · rw [if_pos aborts, Ports.get_set_other _ _ (Ne.symm aborts.2)]
    · rw [if_neg aborts]
  · rw [Ports.get_set_other _ _ own]
    by_cases aborted : s.regs.seq ≠ .idle ∧ p = s.regs.seqPort
    · obtain ⟨busy, rfl⟩ := aborted
      rw [if_pos ⟨busy, own⟩, if_pos (.inr ⟨busy, rfl⟩), Ports.get_set_same]
    · rw [if_neg (not_or.2 ⟨own, aborted⟩)]
      split
      · rename_i other
        exact Ports.get_set_other _ _ fun same => aborted ⟨other.1, same⟩
      · rfl

/-- Settles O11: the registers are the reset ones, and of the rest RESET touches the ports of the commands it completes
only. -/
theorem resetResets : Obligations.ResetResets :=
  ⟨decodeOfEncode .reset rfl, fun s => ⟨_, rfl, rfl, s.abortBlock_cfg,
    fun k => congrArg (Memory.read · k) s.abortBlock_raw, fun k => congrArg (Memory.read · k) s.abortBlock_audioOut,
    s.abortBlock_cur, s.abortBlock_sched, s.abortBlock_turn, s.abortBlock_acq, abortBlock_respond_get s⟩⟩

/-! ### Getters and USB commands (48_commands R290 to R295) -/

/-- Settles O20: each getter responds with its word, and writes no register. -/
theorem gettersAnswer : Obligations.GettersAnswer := fun s =>
  ⟨⟨decodeOfEncode .getSignalDbm rfl, _, rfl, s.respond_completes s.regs _, rfl⟩,
    ⟨decodeOfEncode .getSquelch rfl, _, rfl, s.respond_completes s.regs _, rfl⟩,
    ⟨decodeOfEncode .getUsbFill rfl, _, rfl, s.respond_completes s.regs _, rfl⟩⟩

theorem execProcessBlock_of_idle {s : State} (idle : s.regs.seq = .idle) :
    exec .processBlock s = .next (beginStep s.started) := by
  simp only [exec, execProcessBlock, idle, State.started]

/-- A change of registers that may record an error, then the response. -/
theorem State.recordIf_respond (s : State) (r : Regs) (b : Bool) (e : Err) (ws : List Word) :
    ({ s with regs := r }.recordIf b e).respond ws =
      { s with regs := { r with status := if b then recordBits r.status e else r.status } }.respond ws := by
  cases b <;> rfl

/-- Settles O21: both write their shared register only; BEGIN copies the mute flag. -/
theorem usbSettersSet : Obligations.UsbSettersSet := by
  intro s
  constructor
  · intro b
    refine ⟨by cases b <;> rfl, _, rfl, s.respond_completes _ [], rfl, fun idle p => ?_⟩
    exact ⟨_, execProcessBlock_of_idle idle, rfl⟩
  · intro u
    refine ⟨decodeOfEncode (.usbSetVolume u) rfl, _, rfl, ?_, ?_⟩
    · rw [State.recordIf_respond]
      exact s.respond_completes _ []
    · rw [State.recordIf_respond, clampNat_value, clampNat_snd]
      simp only [State.respond_regs, decide_eq_true_eq]
      rfl

/-! #### The packed response (30_encoding R94) -/

theorem packBytes_length (bs : List Byte) : (packBytes bs).length = (bs.length + 3) / 4 := by
  fun_induction packBytes bs with
  | case1 | case2 | case3 | case4 => simp only [List.length_cons, List.length_nil]
  | case5 a b c d rest ih =>
    simp only [List.length_cons, ih]
    omega

theorem dataByte_nil (n : Nat) : dataByte [] n = 0 := by
  simp [dataByte]

theorem dataByte_cons_add_four (w : Word) (ws : List Word) (n : Nat) : dataByte (w :: ws) (n + 4) = dataByte ws n := by
  simp [dataByte]

/-- A word's four bytes come first, the low one first of all (20_memory R76). -/
theorem dataByte_packWord {ws : List Word} {bs : List Byte} (h : ∀ n, dataByte ws n = bs.getD n 0) (b0 b1 b2 b3 : Byte)
    (n : Nat) : dataByte (packWord b0 b1 b2 b3 :: ws) n = (b0 :: b1 :: b2 :: b3 :: bs).getD n 0 := by
  match n with
  | 0 => exact BitVec.extractLsb'_append_eq_right
  | 1 => exact (BitVec.extractLsb'_append_eq_of_le (by decide)).trans BitVec.extractLsb'_append_eq_right
  | 2 =>
    exact (BitVec.extractLsb'_append_eq_of_le (by decide)).trans
      ((BitVec.extractLsb'_append_eq_of_le (by decide)).trans BitVec.extractLsb'_append_eq_right)
  | 3 =>
    exact (BitVec.extractLsb'_append_eq_of_le (by decide)).trans
      ((BitVec.extractLsb'_append_eq_of_le (by decide)).trans BitVec.extractLsb'_append_eq_left)
  | n + 4 => exact (dataByte_cons_add_four _ ws n).trans (h n)

/-- Zeros behind a list do not show. -/
theorem getD_append_zeros (bs : List Byte) (k n : Nat) : (bs ++ List.replicate k 0).getD n 0 = bs.getD n 0 := by
  rcases Nat.lt_or_ge n bs.length with inside | beyond
  · exact List.getD_append _ _ _ _ inside
  · rw [List.getD_append_right _ _ _ _ beyond, List.getD_eq_default _ _ beyond, List.getD_eq_getElem?_getD,
      List.getElem?_getD_replicate_default_eq]

/-- Byte n of the packed words is byte n of the list, and 0 past its end. -/
theorem dataByte_packBytes (bs : List Byte) (n : Nat) : dataByte (packBytes bs) n = bs.getD n 0 := by
  fun_induction packBytes bs generalizing n with
  | case1 => exact dataByte_nil n
  | case2 a => exact (dataByte_packWord dataByte_nil a 0 0 0 n).trans (getD_append_zeros [a] 3 n)
  | case3 a b => exact (dataByte_packWord dataByte_nil a b 0 0 n).trans (getD_append_zeros [a, b] 2 n)
  | case4 a b c => exact (dataByte_packWord dataByte_nil a b c 0 n).trans (getD_append_zeros [a, b, c] 1 n)
  | case5 a b c d rest ih => exact dataByte_packWord ih a b c d n

/-- The bytes a pop returns are the first of the contents. -/
theorem rbPop_bytes (cap : Nat) (r : Ring) (n : Nat) : (rbPop cap r n).2 = (r.contents cap).take (min n r.count) := by
  rw [Ring.contents, ← List.map_take, List.take_range, Nat.min_assoc, Nat.min_self]
  rfl

/-- Settles O22: the packed words hold the popped bytes, which are the first of the ring's contents. -/
theorem usbPopPops : Obligations.UsbPopPops := by
  intro u s m
  have bytes : (rbPop s.cfg.rbCap s.regs.ring u.toNat).2 = (s.regs.ring.contents s.cfg.rbCap).take m := rbPop_bytes _ _ _
  have taken : ((s.regs.ring.contents s.cfg.rbCap).take m).length = m := by
    rw [List.length_take, Ring.contents_length]
    omega
  refine ⟨decodeOfEncode (.usbPop u) rfl, _, packBytes (rbPop s.cfg.rbCap s.regs.ring u.toNat).2, rfl, ?_, ?_, ?_, ?_,
    rfl, rbPop_contents _ _ _⟩
  · rw [show m = (rbPop s.cfg.rbCap s.regs.ring u.toNat).2.length by rw [bytes, taken]]
    exact s.respond_completes _ _
  · rw [packBytes_length, bytes, taken]
  · intro n hn
    rw [dataByte_packBytes, bytes, List.getD_eq_getElem?_getD, List.getElem?_take_of_lt hn, List.getD_eq_getElem?_getD]
  · intro n hn
    rw [dataByte_packBytes, bytes, List.getD_eq_default _ _ (taken.symm ▸ hn)]

/-! ### Spectrum commands (48_commands R296 to R298) -/

/-- Settles O23: by the lock's state. -/
theorem specAcquireTakes : Obligations.SpecAcquireTakes := by
  refine ⟨decodeOfEncode .specAcquire rfl, fun s => ⟨fun held => exec_raises (if_pos held), fun free => ?_,
    fun other taken => (if_neg other).trans (if_neg taken)⟩⟩
  have other : s.regs.spec.lock ≠ .consumer s.cur := free ▸ nofun
  exact ⟨_, (if_neg other).trans (if_pos free), s.respond_completes _ [], rfl⟩

/-- Settles O25: by the lock's state. -/
theorem specReleaseFrees : Obligations.SpecReleaseFrees :=
  ⟨decodeOfEncode .specRelease rfl, fun s =>
    ⟨fun held => ⟨_, if_pos held, s.respond_completes _ [], rfl⟩, fun other => exec_raises (if_neg other)⟩⟩

end Sys2Proof.Machine

/-! PROCESS_BLOCK (48_commands R266 to R271): its BEGIN, SAMPLE and END steps and its hold, and the run of a whole block,
by what holds after j of its SAMPLE steps (`BlockRun`). -/

namespace Sys2Proof.Machine

/-! ### BEGIN, END and the hold -/

/-- A demodulator that stays active keeps its state (44_demodulators R205). -/
theorem beginRegs_demod (cfg : Config) (r : Regs) :
    (beginRegs cfg r).demod = if r.pend.mode = r.act.mode then r.demod else modeChangeZero r.pend.mode r.demod := by
  by_cases h : r.pend.mode = r.act.mode
  · exact (if_neg (not_not.2 h)).trans (if_pos h).symm
  · exact (if_pos h).trans (if_neg h).symm

theorem beginRegs_eq (cfg : Config) (r : Regs) :
    beginRegs cfg r = { beginRegs cfg r with
      demod := if r.pend.mode = r.act.mode then r.demod else modeChangeZero r.pend.mode r.demod } := by
  rw [← beginRegs_demod]

/-- Settles O26: BEGIN's registers are those of R267. -/
theorem blockBegins : Obligations.BlockBegins := by
  refine ⟨decodeOfEncode .processBlock rfl, fun s idle => ⟨_, execProcessBlock_of_idle idle,
    ⟨rfl, fun _ => rfl, rfl, rfl, rfl, rfl, rfl⟩, fun _ => rfl, ?_⟩⟩
  rw [beginStep_regs, beginRegs_eq]
  rfl

theorem execProcessBlock_of_ending {s : State} (own : s.regs.seqPort = s.cur) (ending : s.regs.seq = .ending) :
    exec .processBlock s = .next ((endStep s).respond []) := by
  simp only [exec, execProcessBlock, ending, if_pos own]

theorem execProcessBlock_of_other {s : State} (busy : s.regs.seq ≠ .idle) (other : s.regs.seqPort ≠ s.cur) :
    exec .processBlock s = .next s := by
  simp only [exec, execProcessBlock]
  split
  · exact absurd ‹_› busy
  all_goals exact if_neg other

/-- An accumulator entry after END (47_spectrum R258). -/
theorem specAccumulate_acc (shift : Nat) (cap : Vector IQ 256) (u : Spectrum) {j : Nat} (h : j < 256) :
    (specAccumulate shift cap u).acc[j] = u.acc[j] +
      (cordicMag (cap[(j + 128) % 256]'(Nat.mod_lt _ (by decide))).re
        (cap[(j + 128) % 256]'(Nat.mod_lt _ (by decide))).im * 65536 - u.acc[j]) / 2 ^ shift := by
  simp only [specAccumulate, Vector.getElem_ofFn, specBlend, asr_eq, shl_eq]
  rfl

/-- Settles O28: END's registers are those of R269, the accumulator's entries by the blend. -/
theorem blockEnds : Obligations.BlockEnds := fun s ending own _ =>
  ⟨_, (specAccumulate s.cfg.specAlphaShift s.regs.filt.cap s.regs.spec).acc, execProcessBlock_of_ending own ending,
    s.respond_completes _ [], fun _ h => specAccumulate_acc _ _ _ h, rfl⟩

/-- Settles O29: the block in progress is another port's. -/
theorem secondBlockHolds : Obligations.SecondBlockHolds := fun _ busy other => execProcessBlock_of_other busy other

/-! ### SAMPLE -/

/-- Every entry of a run of legal counts is one. -/
theorem pushRun_read_le {m : Memory 24} (hm : m.wf) {k a b : Nat} {ps : List Int}
    (h : ∀ y ∈ ps, (BitVec.ofInt 24 y).toNat ≤ b) (lo : k ≤ a) (hi : a < k + ps.length) :
    ((pushRun m k ps).read a).toNat ≤ b := by
  obtain ⟨n, rfl⟩ := Nat.exists_eq_add_of_le lo
  have hn : n < ps.length := by omega
  rw [pushRun_read_inside hm hn, List.getD_eq_getElem _ _ hn]
  exact h _ (List.getElem_mem hn)

theorem conditioned_eq (cfg : Config) (volume : Nat) (prev : Int) (xs : List Int) (m : Nat) :
    conditioned cfg volume prev xs m = if m = 0 then prev else xs.getD (m - 1) 0 * cfg.volume volume / 256 := by
  simp only [conditioned, volumeScale, asr_eq]
  rfl

theorem pwmCount_eq (pwm : Nat) (y : Int) : pwmCount pwm y = max 0 (min (pwm : Int) ((y + 32768) * pwm / 65536)) := by
  rw [pwmCount, clamp_eq_max_min _ (by omega), asr_eq]
  rfl

theorem SampleFrame.sameHost {s t : State} (h : SampleFrame s t) : SameHost s t :=
  ⟨h.cfg, fun _ => by rw [h.raw], h.ports, h.cur, h.sched, h.turn, h.acq⟩

theorem Regs.callDue_iff (cfg : Config) (r : Regs) :
    r.CallDue cfg ↔ cfg.cicR ≤ r.cic.cnt + 1 ∧ r.fin.cnt + 1 = 128 := by
  rw [Regs.CallDue, Nat.not_lt]

/-- What a filter call writes to AUDIO_OUT: 64 runs of INTERP_L counts from out_idx on (46_output_stager R236, R238,
R239). -/
theorem SampleCall.audio {s t : State} {j : Nat} (h : SampleCall s t j) (wf : s.audioOut.wf) :
    (∀ a, a < s.regs.stager.outIdx ∨ s.regs.stager.outIdx + 64 * s.cfg.interpL ≤ a →
      t.audioOut.read a = s.audioOut.read a) ∧
    (∀ a, s.regs.stager.outIdx ≤ a → a < s.regs.stager.outIdx + 64 * s.cfg.interpL →
      (t.audioOut.read a).toNat ≤ s.regs.act.pwm) ∧
    (∀ m k, m < 64 → k < s.cfg.interpL →
      t.audioOut.read (s.regs.stager.outIdx + m * s.cfg.interpL + k) = BitVec.ofInt 24 (pwmCount s.regs.act.pwm
        (conditioned s.cfg s.regs.act.volume s.regs.stager.interpPrev (s.callSamples j) m +
          (conditioned s.cfg s.regs.act.volume s.regs.stager.interpPrev (s.callSamples j) (m + 1) -
            conditioned s.cfg s.regs.act.volume s.regs.stager.interpPrev (s.callSamples j) m) * k /
            s.cfg.interpL))) := by
  obtain ⟨ps, len, le, points, audioOut⟩ := h.run
  rw [audioOut]
  refine ⟨fun a ha => pushRun_read_outside (by rwa [len]), fun a lo hi => pushRun_read_le wf le lo (by rwa [len]),
    fun m k hm hk => ?_⟩
  have inside : m * s.cfg.interpL + k < ps.length := by
    have := Nat.mul_le_mul_right s.cfg.interpL (Nat.succ_le_of_lt hm)
    rw [Nat.succ_mul] at this
    omega
  rw [Nat.add_assoc, pushRun_read_inside wf inside, points m k hm hk]

/-- Settles O27: by the outcomes of a SAMPLE step with RAW entries to read, and by a filter call's effect on AUDIO_OUT. -/
theorem blockSamples : Obligations.BlockSamples := by
  intro s j at_j own due room
  rw [execProcessBlock_of_sample own at_j]
  refine ⟨fun past => sampleStep_fault s j (by omega), fun entries hdue full => ?_, fun entries fits wf => ?_⟩
  · have hdue := (Regs.callDue_iff _ _).2 hdue
    rcases sampleStep_effect s j entries with ⟨wait, -⟩ | ⟨-, space, -⟩ | ⟨-, -, stop⟩
    · exact absurd hdue wait
    · exact absurd space full
    · exact stop
  · rcases sampleStep_effect s j entries with ⟨wait, t, go, frame, quiet⟩ | ⟨hdue, space, t, go, frame, call⟩ |
      ⟨hdue, full, -⟩
    · rw [Regs.callDue_iff] at wait
      refine ⟨t, go, frame.sameHost, sampleStep_seq go, frame.seqPort, frame.pend, frame.act, frame.latched, frame.usb,
        frame.spec, frame.status, by rw [quiet.cond], by rw [quiet.pub], by rw [quiet.pub], by rw [quiet.pub],
        quiet.cicCnt, fun _ => ?_, fun hdue => absurd hdue wait⟩
      exact ⟨quiet.audioOut, quiet.stager, quiet.ring, quiet.filt, quiet.demod, quiet.cond, quiet.pub, quiet.finCnt⟩
    · obtain ⟨sigEst, sigDbm, sqOpen⟩ := sampleStep_published go
      obtain ⟨outside, inside, points⟩ := call.audio wf
      refine ⟨t, go, frame.sameHost, sampleStep_seq go, frame.seqPort, frame.pend, frame.act, frame.latched, frame.usb,
        frame.spec, frame.status, call.sqOpen, sigEst, sigDbm, sqOpen, by rw [call.cicCnt, if_neg hdue.1],
        fun wait => absurd ((Regs.callDue_iff _ _).1 hdue) wait, fun _ => ?_⟩
      simp only [conditioned_eq, pwmCount_eq] at points
      exact ⟨call.outIdx, call.magCnt, call.finCnt, outside, inside, call.gated, call.closed, points,
        call.interpPrev.trans (conditioned_eq _ _ _ _ _), call.ring⟩
    · exact absurd (fits ((Regs.callDue_iff _ _).1 hdue)) (Nat.not_le.2 full)

/-! ### A whole block -/

theorem runSteps_succ {s t : State} (h : step s = .next t) (n : Nat) : runSteps (n + 1) s = runSteps n t := by
  rw [runSteps, h]

/-- A port's turn with PROCESS_BLOCK at the head of its list. -/
theorem step_of_processBlock {s : State} {p : Port} {rest : List Agent} {ws : List Word} (adm : s.cfg.Admissible)
    (sched : s.sched = .port p :: rest) (cmds : (s.ports.get p).cmds = 0x02000000 :: ws) :
    step s = exec .processBlock { s with sched := rest, cur := p } := by
  have turn : s.nextAgent = .port p := by rw [State.nextAgent, sched]
  have fetched : s.fetch p = some 0x02000000 := by rw [State.fetch, cmds, List.head?_cons]
  rw [step_of_command adm turn fetched (decodeOfEncode .processBlock rfl), State.tick_eq, sched]
  rfl

/-- AUDIO_OUT within a block of `s` that has come to `u`: the entries below out_idx are at most the PWM maximum, the
others as they were. -/
structure AudioSoFar (s u : State) (pwm : Nat) : Prop where
  wf : u.audioOut.wf
  written : ∀ a, a < u.regs.stager.outIdx → (u.audioOut.read a).toNat ≤ pwm
  unwritten : ∀ a, u.regs.stager.outIdx ≤ a → u.audioOut.read a = s.audioOut.read a

/-- A SAMPLE step writes from out_idx on what it adds to out_idx. -/
theorem AudioSoFar.sample {s u v : State} {j pwm : Nat} (h : AudioSoFar s u pwm) (act : u.regs.act.pwm = pwm)
    (go : sampleStep u j = .next v) : AudioSoFar s v pwm := by
  have wf := sampleStep_audio_wf go h.wf
  rcases sampleStep_effect u j (sampleStep_inv go).1 with ⟨-, t, ht, -, quiet⟩ | ⟨-, -, t, ht, -, call⟩ | ⟨-, -, stop⟩
  · obtain rfl : t = v := Host.Outcome.next.inj (ht.symm.trans go)
    refine ⟨wf, ?_, ?_⟩ <;> rw [quiet.stager, quiet.audioOut]
    · exact h.written
    · exact h.unwritten
  · obtain rfl : t = v := Host.Outcome.next.inj (ht.symm.trans go)
    obtain ⟨outside, inside, -⟩ := call.audio h.wf
    refine ⟨wf, ?_, ?_⟩ <;> rw [call.outIdx] <;> intro a ha
    · rcases Nat.lt_or_ge a u.regs.stager.outIdx with before | new
      · rw [outside a (.inl before)]
        exact h.written a before
      · exact act ▸ inside a new ha
    · rw [outside a (.inr ha)]
      exact h.unwritten a (by omega)
  · exact nomatch stop.symm.trans go

/-- The state u that p's block, begun in s, has come to after BEGIN and j SAMPLE steps; p has the next n turns. -/
structure BlockRun (s : State) (p : Port) (more : List Agent) (n j : Nat) (u : State) : Prop where
  cfg : u.cfg = s.cfg
  raw : u.raw = s.raw
  acq : u.acq = s.acq
  turn : u.turn = s.turn
  ports : u.ports = s.ports
  cur : u.cur = p
  sched : u.sched = List.replicate n (.port p) ++ more
  seq : u.regs.seq = if j < s.cfg.pairs then .sample j else .ending
  seqPort : u.regs.seqPort = p
  counters : u.regs.CountersAt s.cfg j
  pend : u.regs.pend = s.regs.pend
  act : u.regs.act = s.regs.pend
  status : u.regs.status = s.regs.status
  audio : AudioSoFar s u s.regs.pend.pwm

theorem BlockRun.own {s u : State} {p : Port} {more : List Agent} {n j : Nat} (h : BlockRun s p more n j u) :
    u.regs.seqPort = u.cur := h.seqPort.trans h.cur.symm

/-- BEGIN takes the first of the block's turns. -/
theorem BlockRun.begin {s : State} {p : Port} {ws : List Word} {more : List Agent} {n : Nat} (adm : s.cfg.Admissible)
    (idle : s.regs.seq = .idle) (cic : s.regs.cic.cnt = 0) (fin : s.regs.fin.cnt = 0) (wf : s.audioOut.wf)
    (cmds : (s.ports.get p).cmds = 0x02000000 :: ws) (sched : s.sched = List.replicate (n + 1) (.port p) ++ more) :
    ∃ u, step s = .next u ∧ BlockRun s p more n 0 u := by
  rw [List.replicate_succ, List.cons_append] at sched
  refine ⟨_, (step_of_processBlock adm sched cmds).trans (execProcessBlock_of_idle idle), ?_⟩
  exact
    { cfg := rfl
      raw := rfl
      acq := rfl
      turn := rfl
      ports := rfl
      cur := rfl
      sched := rfl
      seq := (if_pos (Config.pairs_pos adm)).symm
      seqPort := rfl
      counters := by constructor <;> simp [beginRegs, State.started, cic, fin]
      pend := rfl
      act := rfl
      status := rfl
      audio := ⟨wf, fun _ h => absurd h (Nat.not_lt_zero _), fun _ _ => rfl⟩ }

/-- A turn within the block runs PROCESS_BLOCK again. -/
theorem BlockRun.turn_eq {s u : State} {p : Port} {ws : List Word} {more : List Agent} {n j : Nat}
    (h : BlockRun s p more (n + 1) j u) (adm : s.cfg.Admissible) (cmds : (s.ports.get p).cmds = 0x02000000 :: ws) :
    ∃ v, step u = exec .processBlock v ∧ BlockRun s p more n j v := by
  have sched := h.sched
  rw [List.replicate_succ, List.cons_append] at sched
  exact ⟨_, step_of_processBlock (h.cfg ▸ adm) sched (h.ports ▸ cmds),
    { h with cur := rfl, sched := rfl, audio := ⟨h.audio.wf, h.audio.written, h.audio.unwritten⟩ }⟩

/-- SAMPLE(j), within the turn it has taken. -/
theorem BlockRun.sample {s u : State} {p : Port} {more : List Agent} {n j : Nat} (h : BlockRun s p more n j u)
    (adm : s.cfg.Admissible) (hj : j < s.cfg.pairs) :
    ∃ v, exec .processBlock u = .next v ∧ BlockRun s p more n (j + 1) v := by
  have at_j := h.seq
  have counters := h.counters
  rw [if_pos hj] at at_j
  rw [← h.cfg] at adm hj counters
  obtain ⟨v, go⟩ := sampleStep_goes adm hj counters
  have seq := sampleStep_seq go
  have counted := sampleStep_countersAt (Config.one_le_cicR adm) counters go
  have frame := sampleStep_frame go
  rw [h.cfg] at seq counted
  refine ⟨v, (execProcessBlock_of_sample h.own at_j).trans go, ?_⟩
  exact
    { cfg := frame.cfg.trans h.cfg
      raw := frame.raw.trans h.raw
      acq := frame.acq.trans h.acq
      turn := frame.turn.trans h.turn
      ports := frame.ports.trans h.ports
      cur := frame.cur.trans h.cur
      sched := frame.sched.trans h.sched
      seq := seq
      seqPort := frame.seqPort.trans h.seqPort
      counters := counted
      pend := frame.pend.trans h.pend
      act := frame.act.trans h.act
      status := frame.status.trans h.status
      audio := h.audio.sample (congrArg Controls.pwm h.act) go }

/-- The SAMPLE steps that are left take as many turns. -/
theorem BlockRun.samples {s : State} {p : Port} {ws : List Word} {more : List Agent} (adm : s.cfg.Admissible)
    (cmds : (s.ports.get p).cmds = 0x02000000 :: ws) {m : Nat} (n : Nat) {u : State} {j : Nat}
    (h : BlockRun s p more (m + n) j u) (hn : j + n = s.cfg.pairs) :
    ∃ v, BlockRun s p more m s.cfg.pairs v ∧ runSteps (m + n) u = runSteps m v := by
  induction n generalizing u j with
  | zero => exact ⟨u, hn ▸ h, rfl⟩
  | succ n ih =>
    obtain ⟨v, turn, taken⟩ := BlockRun.turn_eq (n := m + n) h adm cmds
    obtain ⟨w, go, next⟩ := taken.sample adm (by omega)
    obtain ⟨last, at_end, runs⟩ := ih next (by omega)
    exact ⟨last, at_end, (runSteps_succ (turn.trans go) (m + n)).trans runs⟩

/-- Settles O30: BEGIN, then the SAMPLE steps by induction, then END. -/
theorem blockRunsToEnd : Obligations.BlockRunsToEnd := by
  intro s p ws more adm idle cic fin wf cmds sched
  rw [Nat.add_comm, show 2 + s.cfg.pairs = 1 + s.cfg.pairs + 1 by omega] at sched ⊢
  obtain ⟨u, began, start⟩ := BlockRun.begin adm idle cic fin wf cmds sched
  obtain ⟨v, sampled, runs⟩ := start.samples adm cmds s.cfg.pairs (Nat.zero_add _)
  obtain ⟨w, turn, last⟩ := sampled.turn_eq adm cmds
  have ending := last.seq
  rw [if_neg (Nat.lt_irrefl _)] at ending
  have ended := turn.trans (execProcessBlock_of_ending last.own ending)
  have run : runSteps (1 + s.cfg.pairs + 1) s = .next ((endStep w).respond []) := by
    rw [runSteps_succ began, runs, runSteps_succ ended]
    rfl
  obtain ⟨cicCnt, finCnt, magCnt, outIdx⟩ := (Regs.countersAt_pairs adm _).1 last.counters
  have written := last.audio.written
  have unwritten := last.audio.unwritten
  rw [outIdx] at written unwritten
  refine ⟨_, run, rfl, last.cfg, last.raw, last.acq, last.turn, last.sched, last.cur, ?_, last.pend, last.act,
    last.status, cicCnt, finCnt, magCnt, outIdx, written, unwritten⟩
  rw [State.respond_ports, endStep_ports, endStep_cur, last.ports, last.cur, PortState.finish, cmds, List.tail_cons]

end Sys2Proof.Machine

/-! Noninterference of the capture lock (47_spectrum R261, 70_reset_and_hazards R345): PROCESS_BLOCK commutes with a
replacement of the spectrum unit and the capture buffer, unit by unit up to the step. -/

namespace Sys2Proof.Machine

/-- Another capture buffer in the filter. -/
def Filter.withCap (f : Filter) (cap : Vector IQ 256) : Filter := { f with cap := cap }

/-- Another spectrum unit and another capture buffer. -/
def Regs.withCapture (r : Regs) (sp : Spectrum) (cap : Vector IQ 256) : Regs :=
  { r with spec := sp, filt := r.filt.withCap cap }

theorem State.withCapture_eq (s : State) (sp : Spectrum) (cap : Vector IQ 256) :
    s.withCapture sp cap = { s with regs := s.regs.withCapture sp cap } := rfl

/-! ### The filter -/

theorem maskedSpectrum_withCap (act : Controls) (b : Band) (f : Filter) (cap : Vector IQ 256) (x : List IQ) :
    maskedSpectrum act b (f.withCap cap) x =
      ((maskedSpectrum act b f x).1.withCap cap, (maskedSpectrum act b f x).2) := by
  simp only [maskedSpectrum]
  split <;> rfl

/-- CHANFILT writes the capture buffer, and reads neither it nor the capture flag for anything else. -/
theorem chanFilt_withCap (cfg : Config) (act : Controls) (bs : Int) (on on' : Bool) (f : Filter) (cap : Vector IQ 256)
    (n : Vector IQ 128) :
    ∃ cap', chanFilt cfg act bs on' (f.withCap cap) n =
      ((chanFilt cfg act bs on f n).1.withCap cap', (chanFilt cfg act bs on f n).2) := by
  have masked (c c' : Vector IQ 256) (x : List IQ) := maskedSpectrum_withCap act (cfg.band act.mode act.bw)
    { f with last := n, cap := c } c' x
  simp only [Filter.withCap] at masked
  simp only [chanFilt, Filter.withCap]
  generalize shiftedSpectrum bs _ = x
  rw [masked (if on then toVec 256 IQ.zero x else f.cap)]
  exact ⟨_, rfl⟩

theorem callFilter_withCapture (cfg : Config) (r : Regs) (sp : Spectrum) (cap : Vector IQ 256) :
    ∃ cap', callFilter cfg (r.withCapture sp cap) =
      ((callFilter cfg r).1.withCap cap', (callFilter cfg r).2) := by
  simp only [callFilter]
  exact chanFilt_withCap _ _ _ _ _ _ _ _

/-! ### The outputs of a filter call -/

theorem outputRegs_withCapture (cfg : Config) (r : Regs) (sp : Spectrum) (cap : Vector IQ 256) (x : IQ) :
    outputRegs cfg (r.withCapture sp cap) x = (outputRegs cfg r x).withCapture sp cap := rfl

theorem outputCounts_withCapture (cfg : Config) (r : Regs) (sp : Spectrum) (cap : Vector IQ 256) (x : IQ) :
    outputCounts cfg (r.withCapture sp cap) x = outputCounts cfg r x := rfl

theorem outputsRegs_withCapture (cfg : Config) (r : Regs) (sp : Spectrum) (cap : Vector IQ 256) (xs : List IQ) :
    outputsRegs cfg (r.withCapture sp cap) xs = (outputsRegs cfg r xs).withCapture sp cap := by
  induction xs generalizing r with
  | nil => rfl
  | cons x xs ih => exact ih (outputRegs cfg r x)

theorem outputsCounts_withCapture (cfg : Config) (r : Regs) (sp : Spectrum) (cap : Vector IQ 256) (xs : List IQ) :
    outputsCounts cfg (r.withCapture sp cap) xs = outputsCounts cfg r xs := by
  induction xs generalizing r with
  | nil => rfl
  | cons x xs ih => rw [outputsCounts, outputsCounts, outputCounts_withCapture, outputRegs_withCapture, ih]

/-- A filter call gives the same outputs, and leaves the same registers but for what the lock guards. -/
theorem filterCall_withCapture (s : State) (sp : Spectrum) (cap : Vector IQ 256) :
    ∃ cap', filterCall (s.withCapture sp cap) = (filterCall s).withCapture sp cap' := by
  obtain ⟨cap', filter⟩ := callFilter_withCapture s.cfg s.regs sp cap
  have filtered : ({ s.regs.withCapture sp cap with filt := (callFilter s.cfg s.regs).1.withCap cap' } : Regs) =
      ({ s.regs with filt := (callFilter s.cfg s.regs).1 } : Regs).withCapture sp cap' := rfl
  have regs : callRegs s.cfg (s.regs.withCapture sp cap) = (callRegs s.cfg s.regs).withCapture sp cap' := by
    rw [callRegs, callRegs, filter, filtered, outputsRegs_withCapture]
  have counts : callCounts s.cfg (s.regs.withCapture sp cap) = callCounts s.cfg s.regs := by
    rw [callCounts, callCounts, filter, filtered, outputsCounts_withCapture]
  refine ⟨cap', ?_⟩
  simp only [filterCall_eq, State.withCapture_eq, regs, counts]
  rfl

/-! ### The SAMPLE step -/

theorem sampleInput_withCapture (cfg : Config) (r : Regs) (sp : Spectrum) (cap : Vector IQ 256) (w0 w1 : BitVec 16) :
    sampleInput cfg (r.withCapture sp cap) w0 w1 =
      ((sampleInput cfg r w0 w1).1.withCapture sp cap, (sampleInput cfg r w0 w1).2) := rfl

theorem fillInput_withCapture (r : Regs) (sp : Spectrum) (cap : Vector IQ 256) (x : IQ) :
    fillInput (r.withCapture sp cap) x = ((fillInput r x).1.withCapture sp cap, (fillInput r x).2) := by
  by_cases full : r.fin.cnt + 1 = fftH
  · exact (if_pos full).trans (by rw [fillInput, if_pos full]; rfl)
  · exact (if_neg full).trans (by rw [fillInput, if_neg full]; rfl)

theorem sampleFull_withCapture (cfg : Config) (r : Regs) (sp : Spectrum) (cap : Vector IQ 256) (w0 w1 : BitVec 16) :
    sampleFull cfg (r.withCapture sp cap) w0 w1 = sampleFull cfg r w0 w1 := by
  simp only [sampleFull, sampleInput_withCapture, fillInput_withCapture]

theorem sampleRegs_withCapture (cfg : Config) (r : Regs) (sp : Spectrum) (cap : Vector IQ 256) (j : Nat)
    (w0 w1 : BitVec 16) :
    sampleRegs cfg (r.withCapture sp cap) j w0 w1 = (sampleRegs cfg r j w0 w1).withCapture sp cap := by
  simp only [sampleRegs, sampleInput_withCapture, fillInput_withCapture]
  cases (sampleInput cfg r w0 w1).2 <;> rfl

theorem sampleWords_withCapture {s t : State} {j : Nat} {w0 w1 : BitVec 16} (go : sampleWords s j w0 w1 = .next t)
    (sp : Spectrum) (cap : Vector IQ 256) :
    ∃ cap', sampleWords (s.withCapture sp cap) j w0 w1 = .next (t.withCapture sp cap') := by
  have full : sampleFull s.cfg (s.withCapture sp cap).regs w0 w1 = sampleFull s.cfg s.regs w0 w1 :=
    sampleFull_withCapture _ _ _ _ _ _
  have regs : sampleRegs s.cfg (s.withCapture sp cap).regs j w0 w1 =
      (sampleRegs s.cfg s.regs j w0 w1).withCapture sp cap := sampleRegs_withCapture _ _ _ _ _ _ _
  have cfg : (s.withCapture sp cap).cfg = s.cfg := rfl
  have stager : (s.withCapture sp cap).regs.stager = s.regs.stager := rfl
  obtain ⟨cap', call⟩ := filterCall_withCapture { s with regs := sampleRegs s.cfg s.regs j w0 w1 } sp cap
  rw [sampleWords_eq] at go ⊢
  rw [cfg, stager, full, regs]
  split at go
  · split at go
    · obtain rfl := Host.Outcome.next.inj go
      exact ⟨cap', (if_pos ‹_›).trans ((if_pos ‹_›).trans (congrArg _ call))⟩
    · cases go
  · obtain rfl := Host.Outcome.next.inj go
    exact ⟨cap, if_neg ‹_›⟩

theorem readRaw_withCapture (s : State) (sp : Spectrum) (cap : Vector IQ 256) (k : Nat) :
    (s.withCapture sp cap).readRaw k = s.readRaw k := rfl

theorem sampleStep_withCapture {s t : State} {j : Nat} (go : sampleStep s j = .next t) (sp : Spectrum)
    (cap : Vector IQ 256) : ∃ cap', sampleStep (s.withCapture sp cap) j = .next (t.withCapture sp cap') := by
  simp only [sampleStep, readRaw_withCapture] at go ⊢
  split at go
  · exact sampleWords_withCapture go sp cap
  · cases go
  · cases go

/-! ### PROCESS_BLOCK -/

theorem beginStep_withCapture (s : State) (sp : Spectrum) (cap : Vector IQ 256) :
    beginStep (s.withCapture sp cap) = (beginStep s).withCapture (specTryAcquire sp) cap := rfl

theorem endStep_withCapture (s : State) (sp : Spectrum) (cap : Vector IQ 256) :
    ∃ sp', (endStep (s.withCapture sp cap)).respond [] = ((endStep s).respond []).withCapture sp' cap := ⟨_, rfl⟩

/-- Settles O44: by the state of the sequencer, which does not depend on what the lock guards. -/
theorem captureDoesNotAffectAudio : Obligations.CaptureDoesNotAffectAudio := by
  intro s t sp cap ran
  have unit : (s.withCapture sp cap).regs.seq = s.regs.seq := rfl
  have port : (s.withCapture sp cap).regs.seqPort = s.regs.seqPort := rfl
  have cur : (s.withCapture sp cap).cur = s.cur := rfl
  simp only [exec, execProcessBlock, unit, port, cur] at ran ⊢
  split at ran
  · cases ran
    exact ⟨_, cap, congrArg _ (beginStep_withCapture s.started sp cap)⟩
  · split at ran <;> cases ran
    · exact ⟨_, cap, (if_pos ‹_›).trans (congrArg _ (beginStep_withCapture s sp cap))⟩
    · exact ⟨sp, cap, if_neg ‹_›⟩
  · split at ran
    · obtain ⟨cap', go⟩ := sampleStep_withCapture ran sp cap
      exact ⟨sp, cap', (if_pos ‹_›).trans go⟩
    · cases ran
      exact ⟨sp, cap, if_neg ‹_›⟩
  · split at ran <;> cases ran
    · obtain ⟨sp', ended⟩ := endStep_withCapture s sp cap
      exact ⟨sp', cap, (if_pos ‹_›).trans (congrArg _ ended)⟩
    · exact ⟨sp, cap, if_neg ‹_›⟩

end Sys2Proof.Machine

/-! SPEC_READ (48_commands R297, 47_spectrum R259). The pattern of n / 2^k is made from 24 more bits of n, so that even a
small n has a full significand; scaled to the smallest values' place it is a rounding of the kind 00_scope R18 describes. -/

namespace Sys2Proof.Machine

/-! ### Scaling by a power of two -/

theorem log2_mul_two_pow {m : Nat} (hm : m ≠ 0) (d : Nat) : Nat.log2 (m * 2 ^ d) = Nat.log2 m + d := by
  induction d with
  | zero => simp
  | succ d ih =>
    rw [Nat.pow_succ, ← Nat.mul_assoc, Nat.mul_comm _ 2, Nat.log2_two_mul (by positivity), ih, Nat.add_assoc]

/-- Of a number with 24 significant bits or more the shift leaves 24, wherever its point is. -/
theorem f32Shift_mul_two_pow {m k : Nat} (hm : 16777216 ≤ m) (hk : k ≤ 149) (d : Nat) :
    f32Shift (m * 2 ^ d) (k + d) = f32Shift m k + d := by
  have bits : 24 ≤ Nat.log2 m := (Nat.le_log2 (by omega)).2 hm
  rw [f32Shift, f32Shift, log2_mul_two_pow (by omega)]
  omega

theorem roundEven_mul_two_pow (m sh d : Nat) : roundEven (m * 2 ^ d) (sh + d) false = roundEven m sh false := by
  have place := Nat.two_pow_pos d
  have above (a b : Nat) : a * 2 ^ d < b * 2 ^ d * 2 ↔ a < b * 2 := by
    rw [Nat.mul_right_comm, Nat.mul_lt_mul_right place]
  have tie (a b : Nat) : b * 2 ^ d * 2 = a * 2 ^ d ↔ b * 2 = a := by
    rw [Nat.mul_right_comm, Nat.mul_left_inj place.ne']
  simp only [roundEven, Nat.pow_add, Nat.mul_div_mul_right _ _ place, Nat.mul_mod_mul_right, above, tie]

theorem f32Magnitude_mul_two_pow {m k : Nat} (hm : m = 0 ∨ 16777216 ≤ m) (hk : k ≤ 149) (d : Nat) :
    f32Magnitude (m * 2 ^ d) (k + d) false = f32Magnitude m k false := by
  rcases hm with rfl | hm
  · rw [Nat.zero_mul, f32Magnitude, f32Magnitude, if_pos rfl, if_pos rfl]
  · have place := Nat.two_pow_pos d
    have nonzero : m * 2 ^ d ≠ 0 := by positivity
    rw [f32Magnitude, f32Magnitude, if_neg nonzero, if_neg (by omega), f32Shift_mul_two_pow hm hk,
      roundEven_mul_two_pow, show f32Shift m k + d + 149 - (k + d) = f32Shift m k + 149 - k by omega]

/-! ### The response words -/

theorem Truncates.of_eq {m : Nat} {y : ℝ} (h : (m : ℝ) = y) : Truncates m false y :=
  ⟨h.le, h ▸ lt_add_one _, iff_of_false nofun h.not_lt⟩

/-- f32OfNat rounds n / 2^k as 00_scope R18 says. -/
theorem nearestF32_f32OfNat {n k : Nat} (hk : k ≤ 125) (hn : n < 2 ^ 100) : NearestF32 (f32OfNat n k) ((n : ℝ) / 2 ^ k) := by
  have scaled := f32Magnitude_mul_two_pow (m := n * 16777216) (k := k + 24) (by omega) (by omega) (126 - k)
  rw [show k + 24 + (126 - k) = 150 by omega] at scaled
  refine nearestF32_of_magnitude (k := 150) (m := n * 16777216 * 2 ^ (126 - k)) (sticky := false) le_rfl ?_ ?_ ?_
  · refine .of_eq ?_
    have powers : (2 : ℝ) ^ 150 = 2 ^ k * (16777216 * 2 ^ (126 - k)) := by
      rw [show (16777216 : ℝ) = 2 ^ 24 by norm_num, ← pow_add, ← pow_add]
      congr 1
      omega
    rw [powers, ← mul_assoc, div_mul_cancel₀ _ (by positivity)]
    push_cast
    ring
  · have small : (n : ℝ) < 2 ^ 100 := by exact_mod_cast hn
    exact (div_le_self (Nat.cast_nonneg n) (one_le_pow₀ one_le_two)).trans_lt small
  · rw [f32OfNat, scaled, toNat_ofNat_of_lt ((f32Magnitude_le _ _ _).trans_lt (by decide))]

/-- An entry, or 0 past the end, is in a range that holds 0 and every entry. -/
theorem getD_range {l : List Int} {hi : Int} (hl : ∀ x ∈ l, 0 ≤ x ∧ x ≤ hi) (h0 : 0 ≤ hi) (k : Nat) :
    0 ≤ l.getD k 0 ∧ l.getD k 0 ≤ hi := by
  rcases Nat.lt_or_ge k l.length with inside | beyond
  · rw [List.getD_eq_getElem _ _ inside]
    exact hl _ (List.getElem_mem inside)
  · rw [List.getD_eq_default _ _ beyond]
    exact ⟨le_rfl, h0⟩

/-- Word k of SPEC_READ, from an accumulator in the range of 10_state R58. -/
theorem nearestF32_specWord {acc : Vector Int 256} (h : ∀ x ∈ acc.toList, 0 ≤ x ∧ x ≤ 46341 * 65536) (k : Nat) :
    NearestF32 (specWord acc k)
      (((acc.toList.getD (2 * k) 0 + acc.toList.getD (2 * k + 1) 0 : Int) : ℝ) / 65536) := by
  obtain ⟨lo, hi⟩ := getD_range h (by decide) (2 * k)
  obtain ⟨lo', hi'⟩ := getD_range h (by decide) (2 * k + 1)
  rw [specWord]
  generalize acc.toList.getD (2 * k) 0 = a at *
  generalize acc.toList.getD (2 * k + 1) 0 = b at *
  have nearest := nearestF32_f32OfNat (n := (a + b).toNat) (k := 16) (by decide)
    (show _ < 1267650600228229401496703205376 by omega)
  have sum : (((a + b).toNat : Nat) : ℝ) = ((a + b : Int) : ℝ) := by
    exact_mod_cast Int.toNat_of_nonneg (show 0 ≤ a + b by omega)
  rwa [sum, show (2 : ℝ) ^ 16 = 65536 by norm_num] at nearest

/-- Settles O24: by the lock's state; the holder's words are the nearest ones. -/
theorem specReadAnswers : Obligations.SpecReadAnswers := by
  refine ⟨decodeOfEncode .specRead rfl, fun s => ⟨fun held inRange => ?_, fun other => exec_raises (if_neg other)⟩⟩
  refine ⟨_, specWords s.regs.spec.acc, if_pos held, s.respond_completes s.regs _, rfl, ?_, fun k hk => ?_⟩
  · rw [specWords, List.length_map, List.length_range]
  · have word : (specWords s.regs.spec.acc).getD k 0 = specWord s.regs.spec.acc k := by
      simp [specWords, hk]
    rw [word]
    exact nearestF32_specWord inRange k

end Sys2Proof.Machine
